-- ==== Sys2Proof/Word.lean ====
section
/-! DEFINITION. The core's data widths (00_scope.md R8, R16): bytes, words, blocks and the fixed tables. -/

namespace Sys2Proof

/-- A byte: 8 bits (R16). -/
abbrev Byte := BitVec 8

/-- A word: 32 bits (R16), the width of every host access (R9). -/
abbrev Word := BitVec 32

/-- A block: 16 bytes `B[0]..B[15]` in block order (R18). -/
abbrev Block := Vector Byte 16

/-- Four words: the KEY registers or the STATE registers (R40, R42). -/
abbrev Quad := Vector Word 4

/-- A substitution table: 256 entries of 8 bits (R45, R46). -/
abbrev Table := Vector Byte 256

/-- The round-key memory: 44 words (R47). -/
abbrev RoundKeys := Vector Word 44

end Sys2Proof
end

