-- ==== Sys2Proof/Syntax.lean ====
section
/-! DEFINITION. The commands of the core: one constructor for each row of spec/opcode_table.json (30_encoding.md R127).
Decode of R131 yields the opcode and the three fields RND, OPA and OPB of every legal word, used or not, so every
constructor carries the three: `rnd` is RND = v[11:8], `a` is OPA = v[23:16], `b` is OPB = v[31:24] (R120). Which of them a
command uses is R127; the others are ignored (R129). -/

namespace Sys2Proof

/-- A command of the core (R127). -/
inductive Instr where
  /-- NOP (R295); uses no field. -/
  | nop (rnd : BitVec 4) (a b : Byte)
  /-- KEY_EXPAND (R226); uses no field. -/
  | keyExpand (rnd : BitVec 4) (a b : Byte)
  /-- ENCRYPT (R293); uses no field. -/
  | encrypt (rnd : BitVec 4) (a b : Byte)
  /-- DECRYPT (R294); uses no field. -/
  | decrypt (rnd : BitVec 4) (a b : Byte)
  /-- GF_MUL (R165); uses OPA and OPB. -/
  | gfMul (rnd : BitVec 4) (a b : Byte)
  /-- GF_INV (R166); uses OPA. -/
  | gfInv (rnd : BitVec 4) (a b : Byte)
  /-- ADD_ROUND_KEY (R260); uses RND. -/
  | addRoundKey (rnd : BitVec 4) (a b : Byte)
  /-- SUB_BYTES (R261); uses no field. -/
  | subBytes (rnd : BitVec 4) (a b : Byte)
  /-- SHIFT_ROWS (R262); uses no field. -/
  | shiftRows (rnd : BitVec 4) (a b : Byte)
  /-- MIX_COLUMNS (R263); uses no field. -/
  | mixColumns (rnd : BitVec 4) (a b : Byte)
  /-- INV_SUB_BYTES (R264); uses no field. -/
  | invSubBytes (rnd : BitVec 4) (a b : Byte)
  /-- INV_SHIFT_ROWS (R265); uses no field. -/
  | invShiftRows (rnd : BitVec 4) (a b : Byte)
  /-- INV_MIX_COLUMNS (R266); uses no field. -/
  | invMixColumns (rnd : BitVec 4) (a b : Byte)
  deriving DecidableEq, Repr

/-- RND = v[11:8], the round-key group index (R122). -/
def Instr.rnd : Instr → BitVec 4
  | .nop r _ _ => r
  | .keyExpand r _ _ => r
  | .encrypt r _ _ => r
  | .decrypt r _ _ => r
  | .gfMul r _ _ => r
  | .gfInv r _ _ => r
  | .addRoundKey r _ _ => r
  | .subBytes r _ _ => r
  | .shiftRows r _ _ => r
  | .mixColumns r _ _ => r
  | .invSubBytes r _ _ => r
  | .invShiftRows r _ _ => r
  | .invMixColumns r _ _ => r

/-- OPA = v[23:16], byte operand A (R124). -/
def Instr.opa : Instr → Byte
  | .nop _ a _ => a
  | .keyExpand _ a _ => a
  | .encrypt _ a _ => a
  | .decrypt _ a _ => a
  | .gfMul _ a _ => a
  | .gfInv _ a _ => a
  | .addRoundKey _ a _ => a
  | .subBytes _ a _ => a
  | .shiftRows _ a _ => a
  | .mixColumns _ a _ => a
  | .invSubBytes _ a _ => a
  | .invShiftRows _ a _ => a
  | .invMixColumns _ a _ => a

/-- OPB = v[31:24], byte operand B (R125). -/
def Instr.opb : Instr → Byte
  | .nop _ _ b => b
  | .keyExpand _ _ b => b
  | .encrypt _ _ b => b
  | .decrypt _ _ b => b
  | .gfMul _ _ b => b
  | .gfInv _ _ b => b
  | .addRoundKey _ _ b => b
  | .subBytes _ _ b => b
  | .shiftRows _ _ b => b
  | .mixColumns _ _ b => b
  | .invSubBytes _ _ b => b
  | .invShiftRows _ _ b => b
  | .invMixColumns _ _ b => b

/-- The same command with the fields it does not use set to 0 (R127, R129): what the assembler writes (R132). -/
def Instr.canonical : Instr → Instr
  | .nop _ _ _ => .nop 0 0 0
  | .keyExpand _ _ _ => .keyExpand 0 0 0
  | .encrypt _ _ _ => .encrypt 0 0 0
  | .decrypt _ _ _ => .decrypt 0 0 0
  | .gfMul _ a b => .gfMul 0 a b
  | .gfInv _ a _ => .gfInv 0 a 0
  | .addRoundKey r _ _ => .addRoundKey r 0 0
  | .subBytes _ _ _ => .subBytes 0 0 0
  | .shiftRows _ _ _ => .shiftRows 0 0 0
  | .mixColumns _ _ _ => .mixColumns 0 0 0
  | .invSubBytes _ _ _ => .invSubBytes 0 0 0
  | .invShiftRows _ _ _ => .invShiftRows 0 0 0
  | .invMixColumns _ _ _ => .invMixColumns 0 0 0

end Sys2Proof
end

