-- ==== Sys2Proof/Decode.lean ====
section
/-! DEFINITION. The command word CMD32 (30_encoding.md R120 to R131): its fields, the decoder, total on all 2^32 words
and rejecting by name, and the encoder. -/

namespace Sys2Proof

/-- OPC = v[7:0] (R121). -/
def fieldOpc (v : Word) : Byte := v.extractLsb' 0 8

/-- RND = v[11:8] (R122). -/
def fieldRnd (v : Word) : BitVec 4 := v.extractLsb' 8 4

/-- RSV = v[15:12] (R123). -/
def fieldRsv (v : Word) : BitVec 4 := v.extractLsb' 12 4

/-- OPA = v[23:16] (R124). -/
def fieldOpa (v : Word) : Byte := v.extractLsb' 16 8

/-- OPB = v[31:24] (R125). -/
def fieldOpb (v : Word) : Byte := v.extractLsb' 24 8

/-- Why a word is no command (R128). -/
inductive Illegal where
  /-- RSV is not 0 (R123). -/
  | reservedFieldNotZero
  /-- OPC is none of the 13 values of R127. -/
  | undefinedOpcode
  deriving DecidableEq, Repr

/-- A row of the opcode map: the opcode and the command made from RND, OPA and OPB. -/
structure OpcodeRow where
  opc : Byte
  command : BitVec 4 → Byte → Byte → Instr

/-- The opcode map (R127). -/
def opcodeMap : List OpcodeRow :=
  [⟨0x00, .nop⟩, ⟨0x01, .keyExpand⟩, ⟨0x02, .encrypt⟩, ⟨0x03, .decrypt⟩,
   ⟨0x10, .gfMul⟩, ⟨0x11, .gfInv⟩,
   ⟨0x20, .addRoundKey⟩, ⟨0x21, .subBytes⟩, ⟨0x22, .shiftRows⟩, ⟨0x23, .mixColumns⟩,
   ⟨0x31, .invSubBytes⟩, ⟨0x32, .invShiftRows⟩, ⟨0x33, .invMixColumns⟩]

/-- Decode(v), total on all 32-bit words (R131). -/
def decode (v : Word) : Except Illegal Instr :=
  if fieldRsv v ≠ 0 then .error .reservedFieldNotZero
  else
    match opcodeMap.find? (fun row => row.opc == fieldOpc v) with
    | none => .error .undefinedOpcode
    | some row => .ok (row.command (fieldRnd v) (fieldOpa v) (fieldOpb v))

/-- The opcode of a command (R127). -/
def Instr.opcode : Instr → Byte
  | .nop _ _ _ => 0x00
  | .keyExpand _ _ _ => 0x01
  | .encrypt _ _ _ => 0x02
  | .decrypt _ _ _ => 0x03
  | .gfMul _ _ _ => 0x10
  | .gfInv _ _ _ => 0x11
  | .addRoundKey _ _ _ => 0x20
  | .subBytes _ _ _ => 0x21
  | .shiftRows _ _ _ => 0x22
  | .mixColumns _ _ _ => 0x23
  | .invSubBytes _ _ _ => 0x31
  | .invShiftRows _ _ _ => 0x32
  | .invMixColumns _ _ _ => 0x33

/-- The word of a command: `{OPB, OPA, 0b0000, RND, OPC}` (R120, R132). -/
def encode (i : Instr) : Word := i.opb ++ i.opa ++ (0 : BitVec 4) ++ i.rnd ++ i.opcode

/-- The command the decoder reads from a word of spec/opcode_table.json, bit 0 the least significant; every bit at
`nbits` and above is 0. A command is one 32-bit word (R130). -/
def decodeTableWord (nbits w : Nat) : Option Instr :=
  match decode (BitVec.ofNat 32 (w % 2 ^ nbits)) with
  | .ok i => some i
  | .error _ => none

end Sys2Proof
end

