-- ==== Sys2Proof/Config.lean ====
section
/-! DEFINITION. What a model of the core takes as parameters (00_scope.md R11): the types of SBOX_VARIANT and
STATE_LAYOUT, and the free latency LAT. The values this hardware has are in Machine/Parameters.lean. -/

namespace Sys2Proof.Config

/-- SBOX_VARIANT: which affine transform the table builder uses (R12, 41_substitution_tables.md R191, R192). -/
inductive SboxVariant where
  /-- SRC_SHIFT_SEQ: each non-rotating shift is of the updated value (R191). -/
  | srcShiftSeq
  /-- SRC_SHIFT_PAR: each non-rotating shift is of the original value (R192). -/
  | srcShiftPar
  /-- FIPS_ROTATE: the rotating transform of the standard (R192). -/
  | fipsRotate
  deriving DecidableEq, Repr

/-- STATE_LAYOUT: how block bytes fill the state matrix (R13, 10_state.md R44). -/
inductive StateLayout where
  /-- ROW_MAJOR: 4 consecutive bytes are a row. -/
  | rowMajor
  /-- COLUMN_MAJOR: 4 consecutive bytes are a column. -/
  | columnMajor
  deriving DecidableEq, Repr

/-- The two parameters that have a value in each hardware: a machine takes them as its argument (R11). The third, LAT, has
none and is free below. -/
structure Params where
  /-- SBOX_VARIANT (R12). -/
  sboxVariant : SboxVariant
  /-- STATE_LAYOUT (R13). -/
  stateLayout : StateLayout
  deriving DecidableEq, Repr

/-- LAT, the free latency (R14, 70_reset_and_hazards.md R412, R413; log 1): `latency n` is the number of host steps
that may fall between the start of the `n`-th busy period and the core step that ends it. The period's LAT is
`latency n + 1`, so it is positive. It has no body: every latency is admitted. -/
opaque latency : Nat → Nat

end Sys2Proof.Config
end

