-- ==== Sys2Proof/Machine/State.lean ====
section
/-! DEFINITION. The machine's state (10_state.md R30), its reset values (R57), and the reasons a step can stop. -/

namespace Sys2Proof.Machine

/-- PHASE of the sequencer (R49). -/
inductive Phase where
  /-- The init sequence is in progress. -/
  | init
  /-- No command in progress. -/
  | idle
  /-- An accepted command is in progress. -/
  | run
  deriving DecidableEq, Repr

/-- The four fields of STATUS (R33). Bits 31:4 are no state: they read 0. -/
structure Status where
  /-- Bit 0: the init sequence or an accepted command is in progress (R34). -/
  busy : Bool
  /-- Bit 1: SBOX and ISBOX hold the built tables (R35). -/
  tablesReady : Bool
  /-- Bit 2: RK holds the expansion of KEY0..KEY3 (R36). -/
  keyReady : Bool
  /-- Bit 3: the sticky error flag (R37). -/
  err : Bool
  deriving DecidableEq, Repr

/-- The errors the core records (60_exceptions.md R351). -/
inductive Err where
  /-- ILLEGAL_CMD (R352). -/
  | illegalCmd
  /-- BUSY (R353). -/
  | busy
  /-- NO_KEY (R354). -/
  | noKey
  /-- BAD_ROUND (R355). -/
  | badRound
  /-- INV_ZERO (R356). -/
  | invZero
  deriving DecidableEq, Repr

/-- What the checks at acceptance find for a command offered while BUSY = 0 (R358, R359). -/
inductive Verdict where
  /-- The command is accepted. -/
  | accept
  /-- The command is accepted and an error is recorded (INV_ZERO, R356). -/
  | acceptNoting (e : Err)
  /-- An error is recorded and the command is rejected. -/
  | reject (e : Err)
  deriving DecidableEq, Repr

/-- WORK, the sequencer's private storage (R51). Its organisation is not architectural; this one follows the schedules of
R196, R227, R296 and R297 (log 3). -/
structure Work where
  /-- The block X of a pipeline (R296, R297). -/
  x : Block
  /-- The round counter. -/
  round : Nat
  /-- The stage counter: micro-steps done. -/
  stage : Nat
  /-- The words w[0..43] of the key expansion (R227). -/
  words : RoundKeys
  /-- The running word of the key expansion: the last w[i] computed. -/
  running : Word
  /-- The table-builder index i (R196). -/
  index : Nat
  deriving DecidableEq, Repr

/-- One thing the outside world does to the core: a host access (R89, R90, R135, R139) or an edge of the reset input
(70_reset_and_hazards.md R400). Addresses are byte addresses of any width; the core sees bits 11:2 (R91). -/
inductive HostAct where
  /-- `WR`: MemWrite(addr, 4, value). -/
  | wr (addr : Nat) (value : Word)
  /-- `RD`: MemRead(addr, 4). -/
  | rd (addr : Nat)
  /-- `WAIT`: read STATUS until bit 0 is 0 (R139). -/
  | wait
  /-- RESET_ACTIVE goes to 1. -/
  | assertReset
  /-- RESET_ACTIVE goes to 0. -/
  | releaseReset
  deriving DecidableEq, Repr

/-- Why the model stops. Neither is an event of the hardware: both stand in states that no run reaches (log 8). -/
inductive Fault where
  /-- Raised by a core step with PHASE = RUN and a CUR that is no command. Safe: OfferCommand latches legal words only
  (R359), so no rule speaks of it and no run reaches it. -/
  | currentWordNotACommand
  /-- Raised by ADD_ROUND_KEY at its completion with RND > 10. Safe: acceptance rejects it (R355) and RK has no such
  words (R260), so no run reaches it. -/
  | noSuchRoundKeyGroup
  deriving DecidableEq, Repr

/-- Why the model gives an instruction no meaning. -/
inductive Refusal where
  /-- Raised by an arm of `exec` whose instruction is not modelled. No arm does so now. Safe: the model stops. -/
  | notModelled (mnemonic : String)
  deriving DecidableEq, Repr

/-- The state: the tuple of R30, less what is hard-wired (ID, CMD, RCON: log 9), the reset input, and the host's side of
the interface. -/
structure State where
  /-- RESET_ACTIVE, the reset input (R400). -/
  resetActive : Bool
  /-- STATUS (R33). -/
  status : Status
  /-- ERR_CAUSE[3:0] (R38). -/
  errCause : BitVec 4
  /-- RESULT[7:0] (R39). -/
  result : Byte
  /-- KEY0..KEY3 (R40). -/
  key : Quad
  /-- STATE0..STATE3 (R42). -/
  block : Quad
  /-- SBOX (R45). -/
  sbox : Table
  /-- ISBOX (R46). -/
  isbox : Table
  /-- RK (R47). -/
  rk : RoundKeys
  /-- PHASE (R49). -/
  phase : Phase
  /-- CUR (R50). -/
  cur : Word
  /-- WORK (R51). -/
  work : Work
  /-- The model's own: what the outside world has yet to do, in order (log 2). -/
  host : List HostAct
  /-- The model's own: what the host's reads have returned, oldest first (log 2). -/
  reads : List Word
  /-- The model's own: host steps that come before the enabled core step (log 1). -/
  delay : Nat
  /-- The model's own: latencies drawn so far (log 1). -/
  draws : Nat
  deriving DecidableEq, Repr

/-- WORK at reset: unspecified by R57, so zero (DESIGN CHOICE, log 6). -/
def Work.zero : Work :=
  { x := Vector.replicate 16 0, round := 0, stage := 0, words := Vector.replicate 44 0, running := 0, index := 0 }

/-- The machine right after reset is released (R57, R402). SBOX, ISBOX, CUR and WORK are unspecified by R57 and 0 here
(DESIGN CHOICE, logs 4 to 6); the last four fields are the model's own (logs 1, 2). -/
def State.reset : State :=
  { resetActive := false
    status := { busy := true, tablesReady := false, keyReady := false, err := false }
    errCause := 0
    result := 0
    key := Vector.replicate 4 0
    block := Vector.replicate 4 0
    sbox := Vector.replicate 256 0
    isbox := Vector.replicate 256 0
    rk := Vector.replicate 44 0
    phase := .init
    cur := 0
    work := Work.zero
    host := []
    reads := []
    delay := Config.latency 0
    draws := 1 }

/-- What a step or a meaning answers. -/
abbrev Result := Host.Outcome State Fault Refusal

end Sys2Proof.Machine
end

