-- ==== Sys2Proof/Machine/Flags.lean ====
section
/-! DEFINITION. The status flags and the error record (10_state.md R33 to R38, 60_exceptions.md R350, R351, R357, R360).
The core has no condition codes (R55). -/

namespace Sys2Proof.Machine

/-- A flag as one bit. -/
def bit (b : Bool) : BitVec 1 := BitVec.ofBool b

/-- What STATUS reads: `zext_32({ERR, KEY_READY, TABLES_READY, BUSY})` (R33). -/
def statusWord (f : Status) : Word :=
  (bit f.err ++ bit f.keyReady ++ bit f.tablesReady ++ bit f.busy : BitVec 4).setWidth 32

/-- The code of an error (R351). Code 0 is NONE; 6 to 15 are never produced. -/
def errCode : Err → BitVec 4
  | .illegalCmd => 1
  | .busy => 2
  | .noKey => 3
  | .badRound => 4
  | .invZero => 5

/-- `raise Err(CODE)` (R357): the first error since the last clear keeps ERR_CAUSE; ERR is set. Nothing else changes: no
state is saved and no control is transferred (R350). -/
def raiseErr (e : Err) (s : State) : State :=
  { s with
    errCause := if s.status.err then s.errCause else errCode e
    status := { s.status with err := true } }

/-- A STATUS write with bit 3 = 1 (R360): the only return from an error. -/
def clearErr (s : State) : State :=
  { s with errCause := 0, status := { s.status with err := false } }

end Sys2Proof.Machine
end

