-- ==== Sys2Proof/Machine/Parameters.lean ====
section
/-! DEFINITION. The parameter values of this hardware (00_scope.md R10 to R13). -/

namespace Sys2Proof.Machine

/-- SBOX_VARIANT of this hardware (R12). -/
def sboxVariant : Config.SboxVariant := .srcShiftSeq

/-- STATE_LAYOUT of this hardware (R13). -/
def stateLayout : Config.StateLayout := .rowMajor

/-- The parameters of this hardware (R11's defaults). -/
def hardware : Config.Params := { sboxVariant := sboxVariant, stateLayout := stateLayout }

/-- The constant read from ID: the bytes "OAES" (R10, R31). -/
def idValue : Word := 0x4F414553

end Sys2Proof.Machine
end

