-- ==== Sys2Proof/Machine/Field.lean ====
section
/-! DEFINITION. The field GF(2^8) modulo 0x11B (40_field_arithmetic.md R160 to R164). -/

namespace Sys2Proof.Machine

/-- `n` rounds of the multiply loop (R161): p is the accumulator. The shift of a byte discards the bit shifted out. -/
def gmulLoop : Nat → Byte → Byte → Byte → Byte
  | 0, _, _, p => p
  | n + 1, a, b, p =>
    gmulLoop n
      (if a.getLsbD 7 then (a <<< 1) ^^^ 0x1B#8 else a <<< 1)
      (b >>> 1)
      (if b.getLsbD 0 then p ^^^ a else p)

/-- Field multiplication: the loop repeated 8 times from p = 0 (R161). -/
def gmul (a b : Byte) : Byte := gmulLoop 8 a b 0x00

/-- Multiplication by 0x02 (R164). -/
def xtime (a : Byte) : Byte := (a <<< 1) ^^^ (if a.getLsbD 7 then 0x1B#8 else 0x00#8)

/-- The modulus polynomial x^8 + x^4 + x^3 + x + 1 (R160). A polynomial over GF(2) is a Nat whose bit i is the coefficient
of x^i. -/
def modulus : Nat := 0x11B

/-- `n` rounds of long division in GF(2)[x]: the quotient so far and what is left of the dividend. -/
def polyDivModLoop : Nat → Nat → Nat → Nat → Nat × Nat
  | 0, r, _, q => (q, r)
  | n + 1, r, d, q =>
    if r = 0 ∨ r.log2 < d.log2 then (q, r)
    else polyDivModLoop n (r ^^^ (d <<< (r.log2 - d.log2))) d (q ^^^ (1 <<< (r.log2 - d.log2)))

/-- `polydivmod(a, d)`: quotient and remainder in GF(2)[x] (R163). Nine rounds suffice: the dividends have degree at most 8
and each round lowers the degree. -/
def polyDivMod (a d : Nat) : Nat × Nat := polyDivModLoop 9 a d 0

/-- `n` rounds of the carry-less product. -/
def polyMulLoop : Nat → Nat → Nat → Nat
  | 0, _, _ => 0
  | n + 1, a, b => (if b.testBit 0 then a else 0) ^^^ polyMulLoop n (a <<< 1) (b >>> 1)

/-- `polymul(a, b)`: carry-less product, no reduction (R163), of factors of degree at most 8. -/
def polyMul (a b : Nat) : Nat := polyMulLoop 9 a b

/-- `n` rounds of the Euclid loop of R163: it answers t1 as soon as r1 = 1. -/
def euclidLoop : Nat → Nat → Nat → Nat → Nat → Nat
  | 0, _, _, _, t1 => t1
  | n + 1, r0, r1, t0, t1 =>
    if r1 = 1 then t1
    else euclidLoop n r1 (polyDivMod r0 r1).2 t1 (t0 ^^^ polyMul (polyDivMod r0 r1).1 t1)

/-- Inversion (R163): 0 for 0, else extended Euclid on polynomials. The loop needs at most 7 rounds (R163), and 8 are
allowed ("recursion depth is bounded by 8"). -/
def ginv (x : Byte) : Byte :=
  if x = 0x00 then 0x00 else BitVec.ofNat 8 (euclidLoop 8 modulus x.toNat 0x00 0x01)

end Sys2Proof.Machine
end

