-- ==== Sys2Proof/Machine/Operands.lean ====
section
/-! DEFINITION. The operands of the commands: bytes of words (00_scope.md R17), the block held in four words
(10_state.md R43) and the state matrix (R44). The core has no other operand form (30_encoding.md R126). -/

namespace Sys2Proof.Machine

/-- `byte(w, j) = w[31-8j : 24-8j]`, for j in 0..3: byte 0 is the most significant (R17). -/
def byteOf (w : Word) (j : Nat) : Byte := w.extractLsb' (24 - 8 * j) 8

/-- `word(b0, b1, b2, b3) = {b0, b1, b2, b3}` (R17). -/
def wordOf (b0 b1 b2 b3 : Byte) : Word := b0 ++ b1 ++ b2 ++ b3

/-- The block held in four words: `B[4k+j] = byte(Wk, j)` (R18, R43, R250). -/
def blk (q : Quad) : Block :=
  Vector.ofFn fun n => byteOf (q[n.val / 4]'(by omega)) (n.val % 4)

/-- A block written back to four words (R250): `Wk = word(B[4k], B[4k+1], B[4k+2], B[4k+3])`. -/
def setBlk (b : Block) : Quad :=
  Vector.ofFn fun k =>
    wordOf (b[4 * k.val]'(by omega)) (b[4 * k.val + 1]'(by omega)) (b[4 * k.val + 2]'(by omega))
      (b[4 * k.val + 3]'(by omega))

/-- `pos(r, c)`: which byte of the block is row r, column c of the state matrix (R44). -/
def pos (l : Config.StateLayout) (r c : Fin 4) : Fin 16 :=
  match l with
  | .rowMajor => ⟨4 * r.val + c.val, by omega⟩
  | .columnMajor => ⟨r.val + 4 * c.val, by omega⟩

/-- The row that byte n of a block is in (R44, read backwards). -/
def rowOf (l : Config.StateLayout) (n : Fin 16) : Fin 4 :=
  match l with
  | .rowMajor => ⟨n.val / 4, by omega⟩
  | .columnMajor => ⟨n.val % 4, by omega⟩

/-- The column that byte n of a block is in (R44, read backwards). -/
def colOf (l : Config.StateLayout) (n : Fin 16) : Fin 4 :=
  match l with
  | .rowMajor => ⟨n.val % 4, by omega⟩
  | .columnMajor => ⟨n.val / 4, by omega⟩

/-- The matrix element `S(r, c) = B[pos(r, c)]` (R44, R250). -/
def elem (l : Config.StateLayout) (b : Block) (r c : Fin 4) : Byte := b[pos l r c]

/-- The block whose matrix is `S'`: "writing S'(r, c) defines the result through the same pos" (R250). -/
def ofMatrix (l : Config.StateLayout) (s : Fin 4 → Fin 4 → Byte) : Block :=
  Vector.ofFn fun n => s (rowOf l n) (colOf l n)

/-- The entry of a table at a byte. -/
def lookup (t : Table) (b : Byte) : Byte := t[b.toNat]

end Sys2Proof.Machine
end

