-- ==== Sys2Proof/Machine/KeySchedule.lean ====
section
/-! DEFINITION. The key scheduler (42_key_schedule.md R220 to R225). -/

namespace Sys2Proof.Machine

/-- RCON, the round-constant ROM (R48, R220). -/
def rcon : Vector Byte 10 := #v[0x01, 0x02, 0x04, 0x08, 0x10, 0x20, 0x40, 0x80, 0x1B, 0x36]

/-- `RotWord(w) = {w[23:0], w[31:24]}` (R221). -/
def rotWord (w : Word) : Word := w.extractLsb' 0 24 ++ w.extractLsb' 24 8

/-- SubWord: the forward table on each byte (R222). -/
def subWord (sbox : Table) (w : Word) : Word :=
  wordOf (lookup sbox (byteOf w 0)) (lookup sbox (byteOf w 1)) (lookup sbox (byteOf w 2)) (lookup sbox (byteOf w 3))

/-- The `temp` of index i made from the previous word (R224): for i a multiple of 4 it is rotated, substituted and XORed
with the round constant in byte 0. -/
def keyTemp (sbox : Table) (i : Nat) (prev : Word) : Word :=
  if i % 4 = 0 then
    subWord sbox (rotWord prev) ^^^ ((rcon.getD (i / 4 - 1) 0).setWidth 32 <<< 24)
  else prev

/-- `w[i] <- temp ^ w[i-4]` (R224): the micro-step Ei (R227). -/
def keyStep (sbox : Table) (i : Nat) (w : RoundKeys) : RoundKeys :=
  w.setIfInBounds i (keyTemp sbox i (w.getD (i - 1) 0) ^^^ w.getD (i - 4) 0)

/-- The words after the micro-steps E4..E(n+3), in increasing order (R224, R227). -/
def keySteps (sbox : Table) : Nat → RoundKeys → RoundKeys
  | 0, w => w
  | n + 1, w => keyStep sbox (n + 4) (keySteps sbox n w)

/-- `w[k] = KEYk` for k in 0..3 (R223); the other words are not written yet. -/
def initialWords (key : Quad) : RoundKeys := Vector.ofFn fun j => key.getD j.val 0

/-- EXPAND(KEY0..KEY3) (R224). -/
def expand (sbox : Table) (key : Quad) : RoundKeys := keySteps sbox 40 (initialWords key)

/-- `rkbyte(g, n) = byte(w[4g + (n div 4)], n mod 4)`, g in 0..10 (R225). -/
def rkByte (rk : RoundKeys) (g : Fin 11) (n : Fin 16) : Byte :=
  byteOf (rk[4 * g.val + n.val / 4]'(by omega)) (n.val % 4)

end Sys2Proof.Machine
end

