-- ==== Sys2Proof/Machine/Stages.lean ====
section
/-! DEFINITION. The round stages as functions on a block (43_round_stages.md R250 to R257). -/

namespace Sys2Proof.Machine

/-- AddRoundKey, in block order (R251). -/
def addRoundKey (rk : RoundKeys) (g : Fin 11) (b : Block) : Block :=
  Vector.ofFn fun n => b[n] ^^^ rkByte rk g n

/-- SubBytes (R252). -/
def subBytes (sbox : Table) (b : Block) : Block := Vector.ofFn fun n => lookup sbox b[n]

/-- ShiftRows: `S'(r, c) = S(r, c + r)`, indices modulo 4 (R253). -/
def shiftRows (l : Config.StateLayout) (b : Block) : Block := ofMatrix l fun r c => elem l b r (c + r)

/-- One column of MixColumns (R254): row r of the new column. -/
def mixColumn (s0 s1 s2 s3 : Byte) : Fin 4 → Byte
  | 0 => gmul 0x02 s0 ^^^ gmul 0x03 s1 ^^^ s2 ^^^ s3
  | 1 => s0 ^^^ gmul 0x02 s1 ^^^ gmul 0x03 s2 ^^^ s3
  | 2 => s0 ^^^ s1 ^^^ gmul 0x02 s2 ^^^ gmul 0x03 s3
  | 3 => gmul 0x03 s0 ^^^ s1 ^^^ s2 ^^^ gmul 0x02 s3

/-- MixColumns (R254). -/
def mixColumns (l : Config.StateLayout) (b : Block) : Block :=
  ofMatrix l fun r c => mixColumn (elem l b 0 c) (elem l b 1 c) (elem l b 2 c) (elem l b 3 c) r

/-- InvSubBytes (R255). -/
def invSubBytes (isbox : Table) (b : Block) : Block := Vector.ofFn fun n => lookup isbox b[n]

/-- InvShiftRows: `S'(r, c) = S(r, c - r)`, indices modulo 4 (R256). -/
def invShiftRows (l : Config.StateLayout) (b : Block) : Block := ofMatrix l fun r c => elem l b r (c - r)

/-- One column of InvMixColumns (R257). -/
def invMixColumn (s0 s1 s2 s3 : Byte) : Fin 4 → Byte
  | 0 => gmul 0x0E s0 ^^^ gmul 0x0B s1 ^^^ gmul 0x0D s2 ^^^ gmul 0x09 s3
  | 1 => gmul 0x09 s0 ^^^ gmul 0x0E s1 ^^^ gmul 0x0B s2 ^^^ gmul 0x0D s3
  | 2 => gmul 0x0D s0 ^^^ gmul 0x09 s1 ^^^ gmul 0x0E s2 ^^^ gmul 0x0B s3
  | 3 => gmul 0x0B s0 ^^^ gmul 0x0D s1 ^^^ gmul 0x09 s2 ^^^ gmul 0x0E s3

/-- InvMixColumns (R257). -/
def invMixColumns (l : Config.StateLayout) (b : Block) : Block :=
  ofMatrix l fun r c => invMixColumn (elem l b 0 c) (elem l b 1 c) (elem l b 2 c) (elem l b 3 c) r

end Sys2Proof.Machine
end

