-- ==== Sys2Proof/Machine/Pipelines.lean ====
section
/-! DEFINITION. The block pipelines (44_block_pipelines.md R290, R291). -/

namespace Sys2Proof.Machine

/-- The main rounds 1..9, increasing (R290). -/
def mainRounds : List (Fin 11) := [1, 2, 3, 4, 5, 6, 7, 8, 9]

/-- One main round of encryption (R290). -/
def cipherRound (l : Config.StateLayout) (sbox : Table) (rk : RoundKeys) (b : Block) (r : Fin 11) : Block :=
  addRoundKey rk r (mixColumns l (shiftRows l (subBytes sbox b)))

/-- CIPHER(B) (R290). -/
def cipher (l : Config.StateLayout) (sbox : Table) (rk : RoundKeys) (b : Block) : Block :=
  addRoundKey rk 10 (shiftRows l (subBytes sbox (mainRounds.foldl (cipherRound l sbox rk) (addRoundKey rk 0 b))))

/-- One main round of decryption: AddRoundKey comes before InvMixColumns (R291). -/
def invCipherRound (l : Config.StateLayout) (isbox : Table) (rk : RoundKeys) (b : Block) (r : Fin 11) : Block :=
  invMixColumns l (addRoundKey rk r (invSubBytes isbox (invShiftRows l b)))

/-- INVCIPHER(B): the main rounds run 9..1 (R291). -/
def invCipher (l : Config.StateLayout) (isbox : Table) (rk : RoundKeys) (b : Block) : Block :=
  addRoundKey rk 0
    (invSubBytes isbox (invShiftRows l (mainRounds.reverse.foldl (invCipherRound l isbox rk) (addRoundKey rk 10 b))))

end Sys2Proof.Machine
end

