-- ==== Sys2Proof/Machine/Tables.lean ====
section
/-! DEFINITION. The substitution table builder (41_substitution_tables.md): the affine transforms, the forward and inverse
tables, and the two passes of the init sequence. -/

namespace Sys2Proof.Machine

/-- `rotl8(v, n)` (R192). -/
def rotl8 (v : Byte) (n : Nat) : Byte := (v <<< n) ||| (v >>> (8 - n))

/-- AFF for SRC_SHIFT_SEQ: each shift is of the updated value (R191). -/
def affSeq (v : Byte) : Byte :=
  let t := v ^^^ (v <<< 1)
  let t := t ^^^ (t <<< 2)
  let t := t ^^^ (t <<< 4)
  t ^^^ 0x63

/-- AFF for SRC_SHIFT_PAR: each shift is of the original value (R192). -/
def affPar (v : Byte) : Byte := v ^^^ (v <<< 1) ^^^ (v <<< 2) ^^^ (v <<< 4) ^^^ 0x63

/-- AFF for FIPS_ROTATE (R192). -/
def affFips (v : Byte) : Byte := v ^^^ rotl8 v 1 ^^^ rotl8 v 2 ^^^ rotl8 v 3 ^^^ rotl8 v 4 ^^^ 0x63

/-- AFF by SBOX_VARIANT (R191, R192). -/
def aff : Config.SboxVariant → Byte → Byte
  | .srcShiftSeq, v => affSeq v
  | .srcShiftPar, v => affPar v
  | .fipsRotate, v => affFips v

/-- FWD(i), the forward table's entry (R193). -/
def fwd (v : Config.SboxVariant) (i : Byte) : Byte := if i = 0x00 then 0x63 else aff v (ginv i)

/-- The forward pass after the micro-steps F0..F(n-1): `SBOX[i] <- FWD(i)` in increasing order (R196). -/
def forwardPass (v : Config.SboxVariant) : Nat → Table → Table
  | 0, t => t
  | n + 1, t => (forwardPass v n t).setIfInBounds n (fwd v (BitVec.ofNat 8 n))

/-- The inverse pass after the micro-steps I0..I(n-1): `ISBOX[SBOX[i]] <- i` in increasing order (R194, R196). -/
def inversePass (sbox : Table) : Nat → Table → Table
  | 0, t => t
  | n + 1, t => (inversePass sbox n t).setIfInBounds (lookup sbox (BitVec.ofNat 8 n)).toNat (BitVec.ofNat 8 n)

/-- The table of FWD (R193, R197). -/
def fwdTable (v : Config.SboxVariant) : Table := Vector.ofFn fun i => fwd v (BitVec.ofNat 8 i.val)

/-- INVT, made by scanning the forward table (R194, R198). The scan's start does not matter: it writes every entry (R195). -/
def invTable (v : Config.SboxVariant) : Table := inversePass (fwdTable v) 256 (Vector.replicate 256 0)

/-- INV(y) (R194). -/
def inv (v : Config.SboxVariant) (y : Byte) : Byte := lookup (invTable v) y

end Sys2Proof.Machine
end

