-- ==== Sys2Proof/Machine/Schedule.lean ====
section
/-! DEFINITION. The micro-step schedules over WORK (41_substitution_tables.md R196, 42_key_schedule.md R227,
44_block_pipelines.md R296, R297). A completion leaves in WORK what the last micro-step of its schedule leaves (log 3). -/

namespace Sys2Proof.Machine

/-- A stage of a pipeline: one micro-step of R296 or R297. -/
inductive Stage where
  | ark (g : Fin 11)
  | sb
  | sr
  | mc
  | isb
  | isr
  | imc
  deriving DecidableEq, Repr

/-- What a stage does to the block X (R251 to R257). -/
def stageFn (l : Config.StateLayout) (sbox isbox : Table) (rk : RoundKeys) (x : Block) : Stage → Block
  | .ark g => addRoundKey rk g x
  | .sb => subBytes sbox x
  | .sr => shiftRows l x
  | .mc => mixColumns l x
  | .isb => invSubBytes isbox x
  | .isr => invShiftRows l x
  | .imc => invMixColumns l x

/-- The 40 stages of ENCRYPT with the round each is in (R296): step 1; steps 4r-2 .. 4r+1 for r = 1..9; steps 38, 39, 40. -/
def encryptStages : List (Nat × Stage) :=
  [(0, .ark 0)] ++ mainRounds.flatMap (fun r => [(r.val, .sb), (r.val, .sr), (r.val, .mc), (r.val, .ark r)])
    ++ [(10, .sb), (10, .sr), (10, .ark 10)]

/-- The 40 stages of DECRYPT with the round each is in (R297): the rounds run 9..1. -/
def decryptStages : List (Nat × Stage) :=
  [(10, .ark 10)] ++ mainRounds.reverse.flatMap (fun r => [(r.val, .isr), (r.val, .isb), (r.val, .ark r), (r.val, .imc)])
    ++ [(0, .isr), (0, .isb), (0, .ark 0)]

/-- Step 0 of a pipeline: `X = blk()` (R296, R297). -/
def loadWork (x : Block) (w : Work) : Work := { w with x := x, round := 0, stage := 0 }

/-- One micro-step of a pipeline on WORK (R296, R297). -/
def pipelineStep (l : Config.StateLayout) (sbox isbox : Table) (rk : RoundKeys) (w : Work) (st : Nat × Stage) : Work :=
  { w with x := stageFn l sbox isbox rk w.x st.2, round := st.1, stage := w.stage + 1 }

/-- WORK after the micro-steps of a list of stages. -/
def runStages (l : Config.StateLayout) (sbox isbox : Table) (rk : RoundKeys) (w : Work) (sts : List (Nat × Stage)) : Work :=
  sts.foldl (pipelineStep l sbox isbox rk) w

/-- WORK after the `n` micro-steps E4..E(n+3) of KEY_EXPAND: the words are held in WORK (R227). -/
def keyWork (sbox : Table) (key : Quad) (n : Nat) (w : Work) : Work :=
  { w with
    words := keySteps sbox n (initialWords key)
    running := (keySteps sbox n (initialWords key)).getD (n + 3) 0
    stage := n }

/-- WORK after the init sequence: the builder's index has passed every entry (R196). -/
def initWork (w : Work) : Work := { w with index := 256, stage := 512 }

end Sys2Proof.Machine
end

