-- ==== Sys2Proof/Machine/Ops.lean ====
section
/-! DEFINITION. The shared operations: the two moments of a command (60_exceptions.md R358, R359, 20_memory.md R96), the
init sequence (R196), the register map and host reads (R81 to R91), and reset (70_reset_and_hazards.md R400 to R403). -/

namespace Sys2Proof.Machine

/-! ### A command: offer and completion -/

/-- Acceptance (R359): CUR <- v, PHASE <- RUN, BUSY <- 1. The latency of the new busy period is drawn (log 1). -/
def accept (v : Word) (s : State) : State :=
  { s with
    cur := v
    phase := .run
    status := { s.status with busy := true }
    delay := Config.latency s.draws
    draws := s.draws + 1 }

/-- The end of every completion: PHASE <- IDLE, BUSY <- 0 (R96). -/
def finish (s : State) : State :=
  { s with phase := .idle, status := { s.status with busy := false } }

/-- A legal command offered while BUSY = 0 (R359), given what its checks find (R358). -/
def offer (v : Word) (verdict : Verdict) (s : State) : State :=
  match verdict with
  | .accept => accept v s
  | .acceptNoting e => accept v (raiseErr e s)
  | .reject e => raiseErr e s

/-- The two moments of a command (log 7). With BUSY = 0 it is being offered (R359). With BUSY = 1 and PHASE = RUN it is the
command in CUR, and its completion applies the effect (R96). With BUSY = 1 otherwise it is offered during the init
sequence, and dropped with error BUSY (R353). -/
def runCommand (v : Word) (verdict : Verdict) (effect : State → State) (s : State) : Result :=
  if s.status.busy then
    match s.phase with
    | .run => .next (finish (effect s))
    | .init => .next (raiseErr .busy s)
    | .idle => .next (raiseErr .busy s)
  else .next (offer v verdict s)

/-- The check of the commands that need the round keys (R354). -/
def needsKey (s : State) : Verdict := if s.status.keyReady then .accept else .reject .noKey

/-- `setblk(f(blk()))`: a block function applied to STATE (R250). -/
def mapBlock (f : Block → Block) (s : State) : State := { s with block := setBlk (f (blk s.block)) }

/-! ### The init sequence -/

/-- The effect of the init sequence: the forward pass, then the inverse pass, then TABLES_READY <- 1 (R196), with
the affine transform of an SBOX_VARIANT. -/
def buildTables (v : Config.SboxVariant) (s : State) : State :=
  { s with
    sbox := forwardPass v 256 s.sbox
    isbox := inversePass (forwardPass v 256 s.sbox) 256 s.isbox
    status := { s.status with tablesReady := true }
    work := initWork s.work }

/-! ### The register space -/

/-- What an offset of the register space names (R81). -/
inductive Target where
  | id
  | cmd
  | status
  | errCause
  | result
  | key (k : Fin 4)
  | block (k : Fin 4)
  | sboxWindow (i : Fin 256)
  | isboxWindow (i : Fin 256)
  | rkWindow (j : Fin 44)
  | rconWindow (k : Fin 10)
  | reserved
  deriving DecidableEq, Repr

/-- The word an address selects: bits 11:2 of the byte address; bits 1:0 and bits above 11 are not seen (R80, R91). -/
def wordIndex (addr : Nat) : Nat := addr / 4 % 1024

/-- The offset of the word an address selects, `zext_12({addr[11:2], 0b00})` (R89). -/
def offsetOf (addr : Nat) : Nat := 4 * wordIndex addr

/-- What an offset names (R81). -/
def targetAt (off : Nat) : Target :=
  if off = 0x000 then .id
  else if off = 0x004 then .cmd
  else if off = 0x008 then .status
  else if off = 0x00C then .errCause
  else if off = 0x010 then .result
  else if h : 0x020 ≤ off ∧ off ≤ 0x02C then .key ⟨(off - 0x020) / 4, by omega⟩
  else if h : 0x030 ≤ off ∧ off ≤ 0x03C then .block ⟨(off - 0x030) / 4, by omega⟩
  else if h : 0x400 ≤ off ∧ off ≤ 0x7FC then .sboxWindow ⟨(off - 0x400) / 4, by omega⟩
  else if h : 0x800 ≤ off ∧ off ≤ 0xBFC then .isboxWindow ⟨(off - 0x800) / 4, by omega⟩
  else if h : 0xC00 ≤ off ∧ off ≤ 0xCAC then .rkWindow ⟨(off - 0xC00) / 4, by omega⟩
  else if h : 0xD00 ≤ off ∧ off ≤ 0xD24 then .rconWindow ⟨(off - 0xD00) / 4, by omega⟩
  else .reserved

/-- What an address names: only the word it selects matters (R81, R91). -/
def target (addr : Nat) : Target := targetAt (offsetOf addr)

/-- The offset a register or window name stands for in host programs (30_encoding.md R134, R81). A reserved offset has no
name. -/
def regOffset : Target → Option Nat
  | .id => some 0x000
  | .cmd => some 0x004
  | .status => some 0x008
  | .errCause => some 0x00C
  | .result => some 0x010
  | .key k => some (0x020 + 4 * k.val)
  | .block k => some (0x030 + 4 * k.val)
  | .sboxWindow i => some (0x400 + 4 * i.val)
  | .isboxWindow i => some (0x800 + 4 * i.val)
  | .rkWindow j => some (0xC00 + 4 * j.val)
  | .rconWindow k => some (0xD00 + 4 * k.val)
  | .reserved => none

/-- A data register or a table window reads 0 while BUSY = 1 (R87). -/
def unlessBusy (s : State) (v : Word) : Word := if s.status.busy then 0 else v

/-- What a target reads while reset is not active (R89). -/
def readTarget (s : State) : Target → Word
  | .id => idValue
  | .cmd => 0
  | .status => statusWord s.status
  | .errCause => s.errCause.setWidth 32
  | .result => unlessBusy s (s.result.setWidth 32)
  | .key k => unlessBusy s s.key[k]
  | .block k => unlessBusy s s.block[k]
  | .sboxWindow i => unlessBusy s (s.sbox[i].setWidth 32)
  | .isboxWindow i => unlessBusy s (s.isbox[i].setWidth 32)
  | .rkWindow j => unlessBusy s s.rk[j]
  | .rconWindow k => rcon[k].setWidth 32
  | .reserved => 0

/-- `MemRead(addr, 4)` (R89). A read changes no state. -/
def memRead (addr : Nat) (s : State) : Word := if s.resetActive then 0 else readTarget s (target addr)

/-- A write to KEYn (R40, R90, R353). -/
def writeKey (k : Fin 4) (v : Word) (s : State) : State :=
  if s.status.busy then raiseErr .busy s
  else { s with key := s.key.set k v, status := { s.status with keyReady := false } }

/-- A write to STATEn (R42, R90, R353). -/
def writeBlock (k : Fin 4) (v : Word) (s : State) : State :=
  if s.status.busy then raiseErr .busy s
  else { s with block := s.block.set k v }

/-- A write to STATUS: bit 3 = 1 clears the error record, in any phase; every other bit is ignored (R33, R360). -/
def writeStatus (v : Word) (s : State) : State := if v.getLsbD 3 then clearErr s else s

/-! ### Reset -/

/-- The core at its reset values with RESET_ACTIVE = 1 (R400). What is not the core's state stays: the host's remaining
acts and what it has read, and the draw count. -/
def heldInReset (s : State) : State :=
  { State.reset with resetActive := true, host := s.host, reads := s.reads, delay := s.delay, draws := s.draws }

/-- RESET_ACTIVE goes from 1 to 0: the state is that of R57 and the init sequence is enabled (R402). Its latency is drawn
(log 1). Releasing a reset that is not active does nothing. -/
def releaseReset (s : State) : State :=
  if s.resetActive then
    { heldInReset s with resetActive := false, delay := Config.latency s.draws, draws := s.draws + 1 }
  else s

end Sys2Proof.Machine
end

