-- ==== Sys2Proof/Machine/BlockCommands.lean ====
section
/-! DEFINITION. The block and key commands NOP, KEY_EXPAND, ENCRYPT and DECRYPT (42_key_schedule.md R226,
44_block_pipelines.md R293 to R295). -/

namespace Sys2Proof.Machine

/-- NOP (R295): no state change besides BUSY <- 0 at completion. -/
def execNop (rnd : BitVec 4) (a b : Byte) (s : State) : Result :=
  runCommand (encode (.nop rnd a b)) .accept id s

/-- KEY_EXPAND (R226): RK <- EXPAND(KEY0..KEY3), KEY_READY <- 1. WORK holds the words at the end of the schedule (R227). -/
def execKeyExpand (rnd : BitVec 4) (a b : Byte) (s : State) : Result :=
  runCommand (encode (.keyExpand rnd a b)) .accept
    (fun s =>
      { s with
        rk := expand s.sbox s.key
        status := { s.status with keyReady := true }
        work := keyWork s.sbox s.key 40 s.work })
    s

/-- ENCRYPT under a STATE_LAYOUT (R293): STATE <- CIPHER(STATE), in place. WORK holds the block at the end of the schedule
(R296). -/
def encryptFor (l : Config.StateLayout) (rnd : BitVec 4) (a b : Byte) (s : State) : Result :=
  runCommand (encode (.encrypt rnd a b)) (needsKey s)
    (fun s =>
      { mapBlock (cipher l s.sbox s.rk) s with
        work := runStages l s.sbox s.isbox s.rk (loadWork (blk s.block) s.work) encryptStages })
    s

/-- ENCRYPT on this hardware. -/
def execEncrypt (rnd : BitVec 4) (a b : Byte) (s : State) : Result := encryptFor stateLayout rnd a b s

/-- DECRYPT under a STATE_LAYOUT (R294): STATE <- INVCIPHER(STATE), in place. WORK holds the block at the end of the schedule
(R297). -/
def decryptFor (l : Config.StateLayout) (rnd : BitVec 4) (a b : Byte) (s : State) : Result :=
  runCommand (encode (.decrypt rnd a b)) (needsKey s)
    (fun s =>
      { mapBlock (invCipher l s.isbox s.rk) s with
        work := runStages l s.sbox s.isbox s.rk (loadWork (blk s.block) s.work) decryptStages })
    s

/-- DECRYPT on this hardware. -/
def execDecrypt (rnd : BitVec 4) (a b : Byte) (s : State) : Result := decryptFor stateLayout rnd a b s

end Sys2Proof.Machine
end

