-- ==== Sys2Proof/Machine/FieldCommands.lean ====
section
/-! DEFINITION. The field commands GF_MUL and GF_INV (40_field_arithmetic.md R165, R166). -/

namespace Sys2Proof.Machine

/-- GF_MUL (R165): RESULT <- gmul(OPA, OPB). -/
def execGfMul (rnd : BitVec 4) (a b : Byte) (s : State) : Result :=
  runCommand (encode (.gfMul rnd a b)) .accept (fun s => { s with result := gmul a b }) s

/-- GF_INV (R166): RESULT <- ginv(OPA). OPA = 0 records INV_ZERO at acceptance and still runs (R356). -/
def execGfInv (rnd : BitVec 4) (a b : Byte) (s : State) : Result :=
  runCommand (encode (.gfInv rnd a b)) (if a = 0x00 then .acceptNoting .invZero else .accept)
    (fun s => { s with result := ginv a }) s

end Sys2Proof.Machine
end

