-- ==== Sys2Proof/Machine/StageCommands.lean ====
section
/-! DEFINITION. The stage commands (43_round_stages.md R260 to R266): each applies one stage function to STATE. -/

namespace Sys2Proof.Machine

/-- ADD_ROUND_KEY (R260). RND > 10 is rejected with BAD_ROUND, before KEY_READY is looked at (R355, R358). A running
ADD_ROUND_KEY with RND > 10 is in no run: RK has no such words, and the model stops there (log 8). -/
def execAddRoundKey (rnd : BitVec 4) (a b : Byte) (s : State) : Result :=
  if h : rnd.toNat ≤ 10 then
    runCommand (encode (.addRoundKey rnd a b)) (needsKey s)
      (fun s => mapBlock (addRoundKey s.rk ⟨rnd.toNat, by omega⟩) s) s
  else if s.status.busy ∧ s.phase = .run then .fault .noSuchRoundKeyGroup
  else runCommand (encode (.addRoundKey rnd a b)) (.reject .badRound) id s

/-- SUB_BYTES (R261). -/
def execSubBytes (rnd : BitVec 4) (a b : Byte) (s : State) : Result :=
  runCommand (encode (.subBytes rnd a b)) .accept (fun s => mapBlock (subBytes s.sbox) s) s

/-- SHIFT_ROWS under a STATE_LAYOUT (R262). -/
def shiftRowsFor (l : Config.StateLayout) (rnd : BitVec 4) (a b : Byte) (s : State) : Result :=
  runCommand (encode (.shiftRows rnd a b)) .accept (mapBlock (shiftRows l)) s

/-- SHIFT_ROWS on this hardware. -/
def execShiftRows (rnd : BitVec 4) (a b : Byte) (s : State) : Result := shiftRowsFor stateLayout rnd a b s

/-- MIX_COLUMNS under a STATE_LAYOUT (R263). -/
def mixColumnsFor (l : Config.StateLayout) (rnd : BitVec 4) (a b : Byte) (s : State) : Result :=
  runCommand (encode (.mixColumns rnd a b)) .accept (mapBlock (mixColumns l)) s

/-- MIX_COLUMNS on this hardware. -/
def execMixColumns (rnd : BitVec 4) (a b : Byte) (s : State) : Result := mixColumnsFor stateLayout rnd a b s

/-- INV_SUB_BYTES (R264). -/
def execInvSubBytes (rnd : BitVec 4) (a b : Byte) (s : State) : Result :=
  runCommand (encode (.invSubBytes rnd a b)) .accept (fun s => mapBlock (invSubBytes s.isbox) s) s

/-- INV_SHIFT_ROWS under a STATE_LAYOUT (R265). -/
def invShiftRowsFor (l : Config.StateLayout) (rnd : BitVec 4) (a b : Byte) (s : State) : Result :=
  runCommand (encode (.invShiftRows rnd a b)) .accept (mapBlock (invShiftRows l)) s

/-- INV_SHIFT_ROWS on this hardware. -/
def execInvShiftRows (rnd : BitVec 4) (a b : Byte) (s : State) : Result := invShiftRowsFor stateLayout rnd a b s

/-- INV_MIX_COLUMNS under a STATE_LAYOUT (R266). -/
def invMixColumnsFor (l : Config.StateLayout) (rnd : BitVec 4) (a b : Byte) (s : State) : Result :=
  runCommand (encode (.invMixColumns rnd a b)) .accept (mapBlock (invMixColumns l)) s

/-- INV_MIX_COLUMNS on this hardware. -/
def execInvMixColumns (rnd : BitVec 4) (a b : Byte) (s : State) : Result := invMixColumnsFor stateLayout rnd a b s

end Sys2Proof.Machine
end

