-- ==== Sys2Proof/Machine/Dispatch.lean ====
section
/-! DEFINITION. The meaning of each command (30_encoding.md R127), one arm per constructor. -/

namespace Sys2Proof.Machine

def exec (i : Instr) (s : State) : Host.Outcome State Fault Refusal :=
  match i with
  | .nop rnd a b => Sys2Proof.Machine.execNop rnd a b s
  | .keyExpand rnd a b => Sys2Proof.Machine.execKeyExpand rnd a b s
  | .encrypt rnd a b => Sys2Proof.Machine.execEncrypt rnd a b s
  | .decrypt rnd a b => Sys2Proof.Machine.execDecrypt rnd a b s
  | .gfMul rnd a b => Sys2Proof.Machine.execGfMul rnd a b s
  | .gfInv rnd a b => Sys2Proof.Machine.execGfInv rnd a b s
  | .addRoundKey rnd a b => Sys2Proof.Machine.execAddRoundKey rnd a b s
  | .subBytes rnd a b => Sys2Proof.Machine.execSubBytes rnd a b s
  | .shiftRows rnd a b => Sys2Proof.Machine.execShiftRows rnd a b s
  | .mixColumns rnd a b => Sys2Proof.Machine.execMixColumns rnd a b s
  | .invSubBytes rnd a b => Sys2Proof.Machine.execInvSubBytes rnd a b s
  | .invShiftRows rnd a b => Sys2Proof.Machine.execInvShiftRows rnd a b s
  | .invMixColumns rnd a b => Sys2Proof.Machine.execInvMixColumns rnd a b s

end Sys2Proof.Machine
end

