-- ==== Sys2Proof/Machine/Agents.lean ====
section
/-! DEFINITION. The two agents (00_scope.md R4, 20_memory.md R96): host writes and OfferCommand (R90, R359), one host step,
one core step, and which of them moves (log 1). What a command does is the argument `run`, and the affine transform of the
init sequence is an argument too, so that the same agents serve every parameter (R11, log 12); the names without `By` are
those of this hardware. -/

namespace Sys2Proof.Machine

/-- `OfferCommand(v)` (R359). BUSY is checked before the word is decoded (R358); a legal word's other checks and its
acceptance are its meaning's. -/
def offerCommandBy (run : Instr → State → Result) (v : Word) (s : State) : Result :=
  if s.status.busy then .next (raiseErr .busy s)
  else
    match decode v with
    | .error _ => .next (raiseErr .illegalCmd s)
    | .ok i => run i s

/-- `MemWrite(addr, 4, v)` (R90). Writes to read-only and reserved offsets are ignored (R82, R88). -/
def memWriteBy (run : Instr → State → Result) (addr : Nat) (v : Word) (s : State) : Result :=
  if s.resetActive then .next s
  else
    match target addr with
    | .cmd => offerCommandBy run v s
    | .status => .next (writeStatus v s)
    | .key k => .next (writeKey k v s)
    | .block k => .next (writeBlock k v s)
    | .id => .next s
    | .errCause => .next s
    | .result => .next s
    | .sboxWindow _ => .next s
    | .isboxWindow _ => .next s
    | .rkWindow _ => .next s
    | .rconWindow _ => .next s
    | .reserved => .next s

/-- A core step is enabled only while BUSY = 1 and reset is not active (R96, R400), in PHASE INIT or RUN. It is taken when
the busy period's host steps have passed (log 1). -/
def coreMoves (s : State) : Bool :=
  !s.resetActive && s.status.busy && s.phase != .idle && s.delay == 0

/-- One core step (R96): the completion of the init sequence or of the command in CUR. -/
def coreStepBy (v : Config.SboxVariant) (run : Instr → State → Result) (s : State) : Result :=
  match s.phase with
  | .init => .next (finish (buildTables v s))
  | .run =>
    match decode s.cur with
    | .ok i => run i s
    | .error _ => .fault .currentWordNotACommand
  | .idle => .next s

/-- A host step's place in the busy period is used up (log 1). -/
def slotPassed (s : State) : State := if s.status.busy then { s with delay := s.delay - 1 } else s

/-- The first of the host's remaining acts is taken off the list. -/
def popHost (s : State) : State := { s with host := s.host.tail }

/-- One host step: the next access or reset edge of the list (R89, R90, R135, R139, R400, R402). With an empty list the
host does nothing and the core holds its state (60_exceptions.md R369). -/
def hostStepBy (run : Instr → State → Result) (s : State) : Result :=
  match s.host with
  | [] => .next (slotPassed s)
  | .wr addr v :: _ => memWriteBy run addr v (popHost (slotPassed s))
  | .rd addr :: _ =>
    .next { popHost (slotPassed s) with reads := s.reads ++ [memRead addr s] }
  | .wait :: _ =>
    .next (if (memRead 0x008 s).getLsbD 0 then slotPassed s else popHost (slotPassed s))
  | .assertReset :: _ => .next (heldInReset (popHost (slotPassed s)))
  | .releaseReset :: _ => .next (releaseReset (popHost (slotPassed s)))

/-- One step: the core's where it moves, else the host's (R96). -/
def stepBy (v : Config.SboxVariant) (run : Instr → State → Result) (s : State) : Result :=
  if coreMoves s then coreStepBy v run s else hostStepBy run s

/-! ### This hardware -/

/-- OfferCommand on this hardware. -/
def offerCommand (v : Word) (s : State) : Result := offerCommandBy exec v s

/-- MemWrite on this hardware. -/
def memWrite (addr : Nat) (v : Word) (s : State) : Result := memWriteBy exec addr v s

/-- A core step of this hardware. -/
def coreStep (s : State) : Result := coreStepBy sboxVariant exec s

/-- A host step of this hardware. -/
def hostStep (s : State) : Result := hostStepBy exec s

/-- The state in which the very next step is the core step that runs the command word w (log 11). -/
def withCommandInCur (w : Word) (s : State) : State :=
  { s with
    resetActive := false
    cur := w
    phase := .run
    status := { s.status with busy := true }
    delay := 0 }

end Sys2Proof.Machine
end

