-- ==== Sys2Proof/Machine/Step.lean ====
section
/-! DEFINITION. One step of the machine (20_memory.md R96): a core step or a host step. -/

namespace Sys2Proof.Machine

/-- One step of this hardware: the core's where it moves, else the host's. -/
def step (s : State) : Host.Outcome State Fault Refusal := stepBy sboxVariant exec s

/-- s with a table word as the command in CUR, whose completion is the next step (log 11). -/
def State.withFetchWord (s : State) (nbits w : Nat) : State :=
  withCommandInCur (BitVec.ofNat 32 (w % 2 ^ nbits)) s

end Sys2Proof.Machine
end

