-- ==== Sys2Proof/Machine/HostProcedures.lean ====
section
/-! DEFINITION. The host procedures (48_host_procedures.md R320 to R327): host software, not hardware (00_scope.md R7). Each
yields the list of accesses the host makes, or works on bytes. Nothing of the core calls anything here (log 14). -/

namespace Sys2Proof.Machine

/-- Text to bytes: UTF-8 (R320). -/
def textBytes (t : String) : List Byte := t.toUTF8.data.toList.map fun u => BitVec.ofNat 8 u.toNat

/-- `NORMKEY(k) = (k ++ zeros(16))[0..15]` (R321). -/
def normKey (k : List Byte) : List Byte := (k ++ List.replicate 16 0).take 16

/-- The pad value `16 - (L mod 16)` of a message of L bytes (R323). -/
def padValue (len : Nat) : Nat := 16 - len % 16

/-- PAD(m) (R323). -/
def pad (m : List Byte) : List Byte :=
  m ++ List.replicate (padValue m.length) (BitVec.ofNat 8 (padValue m.length))

/-- UNPAD(m), with its permissive fallback (R323). -/
def unpad (m : List Byte) : List Byte :=
  match m.getLast? with
  | none => m
  | some p =>
    if 1 ≤ p.toNat ∧ p.toNat ≤ 16 ∧ p.toNat ≤ m.length ∧ (m.drop (m.length - p.toNat)).all (· == p) then
      m.take (m.length - p.toNat)
    else m

/-- The big-endian word k of a list of bytes (R92, R140). -/
def wordAt (bytes : List Byte) (k : Nat) : Word :=
  wordOf (bytes.getD (4 * k) 0) (bytes.getD (4 * k + 1) 0) (bytes.getD (4 * k + 2) 0) (bytes.getD (4 * k + 3) 0)

/-- The four bytes of a word, first byte first (R17). -/
def bytesOf (w : Word) : List Byte := [byteOf w 0, byteOf w 1, byteOf w 2, byteOf w 3]

/-- A command line of a host program: `WR CMD, word` (R137). -/
def issueLine (i : Instr) : HostAct := .wr 0x004 (encode i)

/-- `CLRERR` (R138). -/
def clrErrLine : HostAct := .wr 0x008 0x00000008

/-- `LDKEY` of 16 bytes (R140). -/
def ldKey (k : List Byte) : List HostAct :=
  [.wr 0x020 (wordAt k 0), .wr 0x024 (wordAt k 1), .wr 0x028 (wordAt k 2), .wr 0x02C (wordAt k 3)]

/-- `LDBLK` of 16 bytes (R140). -/
def ldBlk (b : List Byte) : List HostAct :=
  [.wr 0x030 (wordAt b 0), .wr 0x034 (wordAt b 1), .wr 0x038 (wordAt b 2), .wr 0x03C (wordAt b 3)]

/-- `RDBLK` (R140). -/
def rdBlk : List HostAct := [.rd 0x030, .rd 0x034, .rd 0x038, .rd 0x03C]

/-- CONSTRUCT(k) (R322). -/
def construct (k : List Byte) : List HostAct :=
  [.wait] ++ ldKey (normKey k) ++ [issueLine (.keyExpand 0 0 0), .wait]

/-- The 16-byte blocks of a message whose length is a multiple of 16, in order (R324). -/
def blocksOf (m : List Byte) : List (List Byte) :=
  (List.range (m.length / 16)).map fun k => (m.drop (16 * k)).take 16

/-- One block through the core: LDBLK, the command, WAIT, RDBLK (R324, R325). -/
def blockLines (i : Instr) (b : List Byte) : List HostAct := ldBlk b ++ [issueLine i, .wait] ++ rdBlk

/-- The accesses of ENCRYPT_MSG (R324). -/
def encryptMsg (m : List Byte) : List HostAct :=
  (blocksOf (pad m)).flatMap (blockLines (.encrypt 0 0 0))

/-- The bytes of what the host's reads returned, in order (R324, R325). -/
def readBytes (ws : List Word) : List Byte := ws.flatMap bytesOf

/-- The host's error kinds (R326). Only the first is ever raised: normalisation never fails, and a bad pad is no error. -/
inductive HostError where
  | invalidCiphertextLength
  | invalidKeyLength
  | paddingValidationFailed
  deriving DecidableEq, Repr

/-- The accesses of DECRYPT_MSG, or its failure before any of them (R325). -/
def decryptMsg (c : List Byte) : Except HostError (List HostAct) :=
  if c.length = 0 ∨ c.length % 16 ≠ 0 then .error .invalidCiphertextLength
  else .ok ((blocksOf c).flatMap (blockLines (.decrypt 0 0 0)))

/-- What DECRYPT_MSG returns from the words its reads returned (R325). -/
def decryptResult (ws : List Word) : List Byte := unpad (readBytes ws)

/-- The 40 stage commands that do what ENCRYPT does (44_block_pipelines.md R299). -/
def encryptStageCommands : List Instr :=
  [.addRoundKey 0 0 0]
    ++ [1, 2, 3, 4, 5, 6, 7, 8, 9].flatMap
        (fun r => [.subBytes 0 0 0, .shiftRows 0 0 0, .mixColumns 0 0 0, .addRoundKey r 0 0])
    ++ [.subBytes 0 0 0, .shiftRows 0 0 0, .addRoundKey 10 0 0]

/-- The 40 stage commands that do what DECRYPT does (R299). -/
def decryptStageCommands : List Instr :=
  [.addRoundKey 10 0 0]
    ++ [9, 8, 7, 6, 5, 4, 3, 2, 1].flatMap
        (fun r => [.invShiftRows 0 0 0, .invSubBytes 0 0 0, .addRoundKey r 0 0, .invMixColumns 0 0 0])
    ++ [.invShiftRows 0 0 0, .invSubBytes 0 0 0, .addRoundKey 0 0 0]

/-- A command offered and, if accepted, completed: the command line followed by WAIT, with nothing between (R299). -/
def issueAndWait (i : Instr) (s : State) : Result :=
  match offerCommand (encode i) s with
  | .next t => if t.status.busy then coreStep t else .next t
  | .fault f => .fault f
  | .refused r => .refused r

/-- A list of commands, each followed by WAIT (R299). -/
def issueAll : List Instr → State → Result
  | [], s => .next s
  | i :: is, s =>
    match issueAndWait i s with
    | .next t => issueAll is t
    | .fault f => .fault f
    | .refused r => .refused r

end Sys2Proof.Machine
end

