-- ==== Sys2Proof/Machine/Instances.lean ====
section
/-! DEFINITION. The machine with SBOX_VARIANT and STATE_LAYOUT as its argument (00_scope.md R11): what a command does, a
step, and the machine. At `hardware` it is the machine of Machine/Step.lean. State.reset is the same for every parameter
(10_state.md R57). LAT, the third parameter of R11, is free in every machine (log 1). -/

namespace Sys2Proof.Machine

/-- What a command does under the parameters `p`. The init sequence uses SBOX_VARIANT (R191, R192); of the commands, those
that read the state matrix use STATE_LAYOUT (R44). -/
def execFor (p : Config.Params) (i : Instr) (s : State) : Result :=
  match i with
  | .nop rnd a b => execNop rnd a b s
  | .keyExpand rnd a b => execKeyExpand rnd a b s
  | .encrypt rnd a b => encryptFor p.stateLayout rnd a b s
  | .decrypt rnd a b => decryptFor p.stateLayout rnd a b s
  | .gfMul rnd a b => execGfMul rnd a b s
  | .gfInv rnd a b => execGfInv rnd a b s
  | .addRoundKey rnd a b => execAddRoundKey rnd a b s
  | .subBytes rnd a b => execSubBytes rnd a b s
  | .shiftRows rnd a b => shiftRowsFor p.stateLayout rnd a b s
  | .mixColumns rnd a b => mixColumnsFor p.stateLayout rnd a b s
  | .invSubBytes rnd a b => execInvSubBytes rnd a b s
  | .invShiftRows rnd a b => invShiftRowsFor p.stateLayout rnd a b s
  | .invMixColumns rnd a b => invMixColumnsFor p.stateLayout rnd a b s

/-- One step under the parameters `p`. -/
def stepFor (p : Config.Params) (s : State) : Result := stepBy p.sboxVariant (execFor p) s

/-- The machine under the parameters `p`. -/
def coreFor (p : Config.Params) : Host.Core :=
  { State := State
    Fault := Fault
    Refusal := Refusal
    step := stepFor p
    reset := State.reset }

end Sys2Proof.Machine
end

