-- ==== Sys2Proof/Safety.lean ====
section
/-! DEFINITION. What a good state is, under each SBOX_VARIANT and on this hardware: the invariants the rules give
(10_state.md R35, R49, R56, 60_exceptions.md R351, R357, 70_reset_and_hazards.md R400), and what a host can see. -/

namespace Sys2Proof.Safety

open Sys2Proof.Machine

/-- `STATUS.BUSY = 1` exactly when PHASE is INIT or RUN (R49). -/
def busyIffWorking (s : State) : Prop := s.status.busy = true ↔ s.phase ≠ .idle

/-- TABLES_READY is 0 exactly during the init sequence (R35). -/
def tablesReadyIffInitDone (s : State) : Prop := s.status.tablesReady = true ↔ s.phase ≠ .init

/-- TABLES_READY = 1 implies that SBOX and ISBOX are FWD and INV (R56). -/
def tablesBuilt (v : Config.SboxVariant) (s : State) : Prop :=
  s.status.tablesReady = true →
    ∀ i : Byte, lookup s.sbox i = fwd v i ∧ lookup s.isbox i = inv v i

/-- KEY_READY = 1 implies that RK is the expansion of KEY0..KEY3 (R56). -/
def roundKeysExpanded (v : Config.SboxVariant) (s : State) : Prop :=
  s.status.keyReady = true → s.rk = expand (fwdTable v) s.key

/-- KEY_READY = 1 implies TABLES_READY = 1 (R56). -/
def keyReadyNeedsTables (s : State) : Prop := s.status.keyReady = true → s.status.tablesReady = true

/-- A command that R358 lets through: its group is in range and its key is there. -/
def passesChecks (i : Instr) (s : State) : Bool :=
  match i with
  | .addRoundKey r _ _ => decide (r.toNat ≤ 10) && s.status.keyReady
  | .encrypt _ _ _ => s.status.keyReady
  | .decrypt _ _ _ => s.status.keyReady
  | .nop _ _ _ => true
  | .keyExpand _ _ _ => true
  | .gfMul _ _ _ => true
  | .gfInv _ _ _ => true
  | .subBytes _ _ _ => true
  | .shiftRows _ _ _ => true
  | .mixColumns _ _ _ => true
  | .invSubBytes _ _ _ => true
  | .invShiftRows _ _ _ => true
  | .invMixColumns _ _ _ => true

/-- While PHASE = RUN, CUR holds a command that passed the checks (R50, R359). -/
def currentCommandAccepted (s : State) : Prop :=
  s.phase = .run → ∃ i, decode s.cur = .ok i ∧ passesChecks i s = true

/-- ERR_CAUSE is NONE exactly when ERR = 0, and the codes 6 to 15 are never produced (R351, R357, R360). -/
def errorRecordSound (s : State) : Prop :=
  (s.status.err = true ↔ s.errCause ≠ 0) ∧ s.errCause.toNat ≤ 5

/-- While RESET_ACTIVE = 1 every piece of the core's state is at its reset value (R400). -/
def heldWhileReset (s : State) : Prop := s.resetActive = true → s = heldInReset s

/-- The invariant of the machine under an SBOX_VARIANT. No part of it depends on STATE_LAYOUT. -/
structure InvFor (v : Config.SboxVariant) (s : State) : Prop where
  busy : busyIffWorking s
  initDone : tablesReadyIffInitDone s
  tables : tablesBuilt v s
  roundKeys : roundKeysExpanded v s
  keyTables : keyReadyNeedsTables s
  current : currentCommandAccepted s
  error : errorRecordSound s
  reset : heldWhileReset s

/-- The invariant of this hardware. -/
abbrev Inv (s : State) : Prop := InvFor sboxVariant s

/-- Two states that agree on what a host access can see while BUSY = 1: STATUS, ERR_CAUSE and the reset input (R52, R87). -/
def sameWhileBusy (s t : State) : Prop :=
  s.resetActive = t.resetActive ∧ s.status = t.status ∧ s.errCause = t.errCause

/-- No reset edge is among a list of acts. -/
def noResetEdge (acts : List HostAct) : Prop := ∀ a ∈ acts, a ≠ .assertReset ∧ a ≠ .releaseReset

end Sys2Proof.Safety
end

