-- ==== Sys2Proof/Certificates/Slice0/Obligations.lean ====
section
/-! DEFINITION. The statements for the provers. Each formalises rules of spec/; "log n" names a row of notes/assumptions where
a clause rests on the model's own choice. The definitions of the first section write the spec's pseudocode out again, by
offsets, opcodes and codes, so that a statement does not repeat the model's own words. -/

namespace Sys2Proof.Statements

open Sys2Proof Sys2Proof.Machine Sys2Proof.Safety

/-- What recording the error with this code leaves (60_exceptions.md R357). -/
def recorded (code : BitVec 4) (s : State) : State :=
  { s with
    errCause := if s.status.err then s.errCause else code
    status := { s.status with err := true } }

/-- What accepting the command word v leaves (R359). The last two fields are the model's own; what they hold is left open. -/
def accepted (v : Word) (s : State) (delay draws : Nat) : State :=
  { s with
    cur := v
    phase := .run
    status := { s.status with busy := true }
    delay := delay
    draws := draws }

/-- Offering v at s accepts it, with the record of errors of `noted` (R359). -/
def accepts (v : Word) (s noted : State) : Prop :=
  ∃ delay draws, offerCommand v s = .next (accepted v noted delay draws)

/-- PHASE <- IDLE, STATUS.BUSY <- 0: the end of a completion (20_memory.md R96). -/
def completed (s : State) : State := { s with phase := .idle, status := { s.status with busy := false } }

/-- An accepted command is in progress. -/
def isRunning (s : State) : Prop := s.status.busy = true ∧ s.phase = .run

/-- The core takes commands. -/
def notBusy (s : State) : Prop := s.status.busy = false

/-- A command word from its fields, RSV = 0 (30_encoding.md R120). -/
def cmd (b a : Byte) (rnd : BitVec 4) (opc : Byte) : Word := b ++ a ++ (0 : BitVec 4) ++ rnd ++ opc

/-- "BUSY and ILLEGAL_CMD reject the command": a word with this opcode is dropped with code 2 while BUSY = 1, and rejected
with code 1 when RSV is not 0; nothing else changes. -/
def rejectsBusyAndIllegal (opc : Byte) : Prop :=
  ∀ (v : Word) (s : State), v.extractLsb' 0 8 = opc →
    (s.status.busy = true → offerCommand v s = .next (recorded 2 s)) ∧
    (s.status.busy = false → v.extractLsb' 12 4 ≠ 0#4 → offerCommand v s = .next (recorded 1 s))

/-- A command with no check of its own is accepted whenever BUSY = 0. -/
def acceptedWhenNotBusy (opc : Byte) : Prop :=
  ∀ (rnd : BitVec 4) (a b : Byte) (s : State), notBusy s → accepts (cmd b a rnd opc) s s

/-- A command that needs the key is accepted with KEY_READY = 1 and rejected with NO_KEY (code 3) without. -/
def acceptedWithKey (opc : Byte) : Prop :=
  ∀ (rnd : BitVec 4) (a b : Byte) (s : State), notBusy s →
    (s.status.keyReady = true → accepts (cmd b a rnd opc) s s) ∧
    (s.status.keyReady = false → offerCommand (cmd b a rnd opc) s = .next (recorded 3 s))

/-- The offset an address selects: bits 11:2, then two zero bits (20_memory.md R89). -/
def off (addr : Nat) : Nat := addr / 4 % 1024 * 4

/-- The spec's block 00112233 44556677 8899AABB CCDDEEFF. -/
def sampleBlock : Quad := #v[0x00112233, 0x44556677, 0x8899AABB, 0xCCDDEEFF]

/-- The spec's key 00010203 04050607 08090A0B 0C0D0E0F. -/
def sampleKey : Quad := #v[0x00010203, 0x04050607, 0x08090A0B, 0x0C0D0E0F]

/-- This hardware's built tables. -/
def sboxBuilt : Table := fwdTable .srcShiftSeq

/-- This hardware's built inverse table. -/
def isboxBuilt : Table := invTable .srcShiftSeq

/-- Byte-wise XOR of two blocks. -/
def xorBlock (a b : Block) : Block := Vector.ofFn fun n => a[n] ^^^ b[n]

/-- The block whose bytes are all `x`. -/
def allBytes (x : Byte) : Block := Vector.ofFn fun _ => x

/-- `x` to the power `n` by repeated gmul. -/
def gpow (x : Byte) : Nat → Byte
  | 0 => 1
  | n + 1 => gmul x (gpow x n)

/-- OfferCommand(v) as R359 writes it, by opcode numbers. The last two arguments are what the model's own fields hold after an
acceptance. -/
def offerSpec (v : Word) (s : State) (delay draws : Nat) : State :=
  if s.status.busy then recorded 2 s
  else if v.extractLsb' 12 4 ≠ 0#4 ∨
      (v.extractLsb' 0 8).toNat ∉ [0x00, 0x01, 0x02, 0x03, 0x10, 0x11, 0x20, 0x21, 0x22, 0x23, 0x31, 0x32, 0x33] then recorded 1 s
  else if (v.extractLsb' 0 8).toNat = 0x20 ∧ (v.extractLsb' 8 4).toNat > 10 then recorded 4 s
  else if (v.extractLsb' 0 8).toNat ∈ [0x02, 0x03, 0x20] ∧ s.status.keyReady = false then recorded 3 s
  else accepted v (if (v.extractLsb' 0 8).toNat = 0x11 ∧ v.extractLsb' 16 8 = 0#8 then recorded 5 s else s) delay draws

/-- MemRead as R89 writes it, by offsets. -/
def memReadSpec (addr : Nat) (s : State) : Word :=
  let o := off addr
  let data (w : Word) : Word := if s.status.busy then 0 else w
  if s.resetActive then 0
  else if o = 0x000 then 0x4F414553
  else if o = 0x004 then 0
  else if o = 0x008 then
    BitVec.ofNat 32 (8 * s.status.err.toNat + 4 * s.status.keyReady.toNat + 2 * s.status.tablesReady.toNat
      + s.status.busy.toNat)
  else if o = 0x00C then s.errCause.setWidth 32
  else if o = 0x010 then data (s.result.setWidth 32)
  else if 0x020 ≤ o ∧ o ≤ 0x02C then data (s.key.toList.getD ((o - 0x020) / 4) 0)
  else if 0x030 ≤ o ∧ o ≤ 0x03C then data (s.block.toList.getD ((o - 0x030) / 4) 0)
  else if 0x400 ≤ o ∧ o ≤ 0x7FC then data ((s.sbox.toList.getD ((o - 0x400) / 4) 0).setWidth 32)
  else if 0x800 ≤ o ∧ o ≤ 0xBFC then data ((s.isbox.toList.getD ((o - 0x800) / 4) 0).setWidth 32)
  else if 0xC00 ≤ o ∧ o ≤ 0xCAC then data (s.rk.toList.getD ((o - 0xC00) / 4) 0)
  else if 0xD00 ≤ o ∧ o ≤ 0xD24 then
    (([0x01, 0x02, 0x04, 0x08, 0x10, 0x20, 0x40, 0x80, 0x1B, 0x36] : List Byte).getD ((o - 0xD00) / 4) 0).setWidth 32
  else 0

/-- MemWrite as R90 writes it, by offsets. -/
def memWriteSpec (addr : Nat) (v : Word) (s : State) (delay draws : Nat) : State :=
  let o := off addr
  if s.resetActive then s
  else if o = 0x004 then offerSpec v s delay draws
  else if o = 0x008 then
    if v.getLsbD 3 then { s with errCause := 0, status := { s.status with err := false } } else s
  else if 0x020 ≤ o ∧ o ≤ 0x02C then
    if s.status.busy then recorded 2 s
    else { s with key := s.key.setIfInBounds ((o - 0x020) / 4) v, status := { s.status with keyReady := false } }
  else if 0x030 ≤ o ∧ o ≤ 0x03C then
    if s.status.busy then recorded 2 s
    else { s with block := s.block.setIfInBounds ((o - 0x030) / 4) v }
  else s

/-- A 16-byte list as a block. -/
def blockOf (bytes : List Byte) : Block := Vector.ofFn fun n => bytes.getD n.val 0

/-- ENCRYPT_MSG and DECRYPT_MSG on bytes, with the core's pipelines as functions (48_host_procedures.md R324, R325). -/
def cipherBytes (key : Quad) (m : List Byte) : List Byte :=
  (blocksOf m).flatMap fun x => (cipher stateLayout sboxBuilt (expand sboxBuilt key) (blockOf x)).toList

/-- The same for decryption. -/
def invCipherBytes (key : Quad) (c : List Byte) : List Byte :=
  (blocksOf c).flatMap fun y => (invCipher stateLayout isboxBuilt (expand sboxBuilt key) (blockOf y)).toList

end Sys2Proof.Statements

open Sys2Proof Sys2Proof.Machine Sys2Proof.Safety Sys2Proof.Statements

/-! ### Encoding (30_encoding.md) -/

/-- Decoding the word of a command gives the command back, with every field at every value, used or not. -/
def Obligations.DecodeOfEncode : Prop := ∀ i : Instr, decode (encode i) = .ok i

/-- R131: a word decodes exactly when RSV = 0 and its opcode is one of the 13; then its opcode is the command's and its three
fields are the command's, and the command's word is that word, so no bit is dropped. -/
def Obligations.DecodedFieldsAreTheWordsFields : Prop :=
  (∀ v : Word, (∃ i, decode v = .ok i) ↔ (v.extractLsb' 12 4 = 0#4 ∧
    (v.extractLsb' 0 8).toNat ∈ [0x00, 0x01, 0x02, 0x03, 0x10, 0x11, 0x20, 0x21, 0x22, 0x23, 0x31, 0x32, 0x33])) ∧
  ∀ (v : Word) (i : Instr), decode v = .ok i →
    v.extractLsb' 12 4 = 0#4 ∧ i.opcode = v.extractLsb' 0 8 ∧ i.rnd = v.extractLsb' 8 4 ∧ i.opa = v.extractLsb' 16 8 ∧
      i.opb = v.extractLsb' 24 8 ∧ encode i = v

/-- R128: exactly the words with RSV not 0 or one of the 243 undefined opcodes are illegal, and an illegal word offered
while BUSY = 0 records ILLEGAL_CMD (code 1) and has no other effect. -/
def Obligations.IllegalWordsAreRejected : Prop :=
  (∀ v : Word, (∃ e, decode v = .error e) ↔
    (v.extractLsb' 12 4 ≠ 0#4 ∨
      (v.extractLsb' 0 8).toNat ∉ [0x00, 0x01, 0x02, 0x03, 0x10, 0x11, 0x20, 0x21, 0x22, 0x23, 0x31, 0x32, 0x33])) ∧
  (∀ o : Byte, (o.toNat ∉ [0x00, 0x01, 0x02, 0x03, 0x10, 0x11, 0x20, 0x21, 0x22, 0x23, 0x31, 0x32, 0x33] ↔
    (0x04 ≤ o.toNat ∧ o.toNat ≤ 0x0F) ∨ (0x12 ≤ o.toNat ∧ o.toNat ≤ 0x1F) ∨ (0x24 ≤ o.toNat ∧ o.toNat ≤ 0x30) ∨
      (0x34 ≤ o.toNat ∧ o.toNat ≤ 0xFF))) ∧
  ((List.range 256).filter fun o =>
    decide (o ∉ [0x00, 0x01, 0x02, 0x03, 0x10, 0x11, 0x20, 0x21, 0x22, 0x23, 0x31, 0x32, 0x33])).length = 243 ∧
  (∀ (v : Word) (s : State) (e : Illegal), notBusy s → decode v = .error e → offerCommand v s = .next (recorded 1 s))

/-- Words written out from R120 and R127, one or more of each group, decode to the commands they stand for. -/
def Obligations.SampleWordsDecode : Prop :=
  decode 0x00000000 = .ok (.nop 0 0 0) ∧ decode 0x00000002 = .ok (.encrypt 0 0 0) ∧
  decode 0x83570010 = .ok (.gfMul 0 0x57 0x83) ∧ decode 0x00530011 = .ok (.gfInv 0 0x53 0) ∧
  decode 0x00000A20 = .ok (.addRoundKey 10 0 0) ∧ decode 0x00000023 = .ok (.mixColumns 0 0 0) ∧
  decode 0x00000033 = .ok (.invMixColumns 0 0 0) ∧ decode 0xFFFF0F00 = .ok (.nop 0xF 0xFF 0xFF) ∧
  decode 0x00001000 = .error .reservedFieldNotZero ∧ decode 0x00000004 = .error .undefinedOpcode

/-- R129: the fields a command does not use do not matter: a running command, and one met while busy, does what the command
with those fields 0 does; an offered one does the same but for CUR, which holds the word as written. NOP is matched by
every word with RSV = 0 and OPC = 0. -/
def Obligations.UnusedFieldsDoNotMatter : Prop :=
  (∀ (i : Instr) (s : State), s.status.busy = true → exec i s = exec i.canonical s) ∧
  (∀ (i : Instr) (s : State), notBusy s →
    ∃ t u, exec i s = .next t ∧ exec i.canonical s = .next u ∧ { t with cur := 0 } = { u with cur := 0 }) ∧
  (∀ v : Word, (∃ rnd a b, decode v = .ok (.nop rnd a b)) ↔ (v.extractLsb' 12 4 = 0#4 ∧ v.extractLsb' 0 8 = 0x00#8))

/-! ### Steps (20_memory.md R96) -/

/-- A step is the decoded command's meaning or the host's next act. The core step runs the command in CUR, under every
parameter; a host write to CMD with BUSY = 0 runs the offer of the word written. Where the core does not move, a WR step at
every address answers memWrite of the state with the act taken off the list; an RD step appends memRead and changes nothing
else (R89, R95); WAIT leaves the list when STATUS bit 0 reads 0; a host with nothing to do changes nothing; and in all four the
model's own delay is used up or kept (R96, logs 1, 2, 7). At the hardware's parameters the machine that takes them as its argument
(R11) is this one. -/
def Obligations.StepRunsTheDecodedCommand : Prop :=
  (∀ (s : State) (i : Instr), s.resetActive = false → s.status.busy = true → s.phase = .run → s.delay = 0 →
    decode s.cur = .ok i → step s = exec i s) ∧
  (∀ (s : State) (i : Instr) (addr : Nat) (v : Word) (rest : List HostAct), s.resetActive = false → notBusy s →
    s.host = .wr addr v :: rest → off addr = 0x004 → decode v = .ok i → step s = exec i { s with host := rest }) ∧
  (∀ (s : State) (addr : Nat) (v : Word) (rest : List HostAct), coreMoves s = false → s.host = .wr addr v :: rest →
    ∃ d ≤ s.delay, step s = memWrite addr v { s with host := rest, delay := d }) ∧
  (∀ (s : State) (addr : Nat) (rest : List HostAct), coreMoves s = false → s.host = .rd addr :: rest →
    ∃ d ≤ s.delay, step s = .next { s with host := rest, reads := s.reads ++ [memRead addr s], delay := d }) ∧
  (∀ (s : State) (rest : List HostAct), coreMoves s = false → s.host = .wait :: rest →
    ∃ d ≤ s.delay, step s = .next { s with host := if (memRead 0x008 s).getLsbD 0 then s.host else rest, delay := d }) ∧
  (∀ s : State, coreMoves s = false → s.host = [] → ∃ d ≤ s.delay, step s = .next { s with delay := d }) ∧
  (∀ (p : Config.Params) (s : State) (i : Instr), s.resetActive = false → s.status.busy = true → s.phase = .run →
    s.delay = 0 → decode s.cur = .ok i → stepFor p s = execFor p i s) ∧
  (∀ s : State, stepFor { sboxVariant := .srcShiftSeq, stateLayout := .rowMajor } s = step s) ∧
  (∀ (i : Instr) (s : State), execFor { sboxVariant := .srcShiftSeq, stateLayout := .rowMajor } i s = exec i s)

/-- The init sequence builds FWD and INV whatever the tables held, sets TABLES_READY, ends idle, and changes nothing else
but WORK: on this hardware, and under every SBOX_VARIANT (R11). -/
def Obligations.InitSequenceBuildsTheTables : Prop :=
  (∀ s : State, s.resetActive = false → s.status.busy = true → s.phase = .init → s.delay = 0 →
    ∃ t, step s = .next t ∧
      (∀ i : Byte, lookup t.sbox i = fwd .srcShiftSeq i ∧ lookup t.isbox i = inv .srcShiftSeq i) ∧
      t = completed { s with sbox := t.sbox, isbox := t.isbox, work := t.work,
                             status := { s.status with tablesReady := true } }) ∧
  (∀ (p : Config.Params) (s : State), s.resetActive = false → s.status.busy = true → s.phase = .init → s.delay = 0 →
    ∃ t, stepFor p s = .next t ∧
      (∀ i : Byte, lookup t.sbox i = fwd p.sboxVariant i ∧ lookup t.isbox i = inv p.sboxVariant i) ∧
      t = completed { s with sbox := t.sbox, isbox := t.isbox, work := t.work,
                             status := { s.status with tablesReady := true } })

/-! ### The commands (40_field_arithmetic.md, 42_key_schedule.md, 43_round_stages.md, 44_block_pipelines.md) -/

/-- R165, GF_MUL: encoding, acceptance, completion, errors, corner cases, example. -/
def Obligations.GfMulMultipliesIntoResult : Prop :=
  (∀ rnd a b, decode (cmd b a rnd 0x10) = .ok (.gfMul rnd a b)) ∧
  acceptedWhenNotBusy 0x10 ∧ rejectsBusyAndIllegal 0x10 ∧
  (∀ rnd a b s, isRunning s → exec (.gfMul rnd a b) s = .next (completed { s with result := gmul a b })) ∧
  (∀ a b : Byte, gmul a 0 = 0 ∧ gmul 0 b = 0 ∧ gmul 1 b = b ∧ gmul a b = gmul b a) ∧
  gmul 0x80 0x02 = 0x1B ∧ gmul 0xFF 0xFF = 0x13 ∧ cmd 0x83 0x57 0 0x10 = 0x83570010 ∧ gmul 0x57 0x83 = 0xC1

/-- R166, GF_INV: encoding, acceptance with INV_ZERO (code 5) recorded for 0 and the command still accepted, completion,
errors, corner cases, example. -/
def Obligations.GfInvInvertsIntoResult : Prop :=
  (∀ rnd a b, decode (cmd b a rnd 0x11) = .ok (.gfInv rnd a b)) ∧
  (∀ rnd a b s, notBusy s → a ≠ 0 → accepts (cmd b a rnd 0x11) s s) ∧
  (∀ rnd b s, notBusy s → accepts (cmd b 0 rnd 0x11) s (recorded 5 s)) ∧
  rejectsBusyAndIllegal 0x11 ∧
  (∀ rnd a b s, isRunning s → exec (.gfInv rnd a b) s = .next (completed { s with result := ginv a })) ∧
  ginv 0x00 = 0x00 ∧ ginv 0x01 = 0x01 ∧ (∀ x, ginv (ginv x) = x) ∧ (∀ x, ginv x = gpow x 254) ∧
  cmd 0 0x53 0 0x11 = 0x00530011 ∧ ginv 0x53 = 0xCA

/-- R226, KEY_EXPAND: encoding, acceptance, completion (RK and KEY_READY; WORK is not architectural, log 3), errors, corner
cases, example. KEYn cannot change before the completion: a write to it is dropped. -/
def Obligations.KeyExpandFillsTheRoundKeys : Prop :=
  (∀ rnd a b, decode (cmd b a rnd 0x01) = .ok (.keyExpand rnd a b)) ∧
  acceptedWhenNotBusy 0x01 ∧ rejectsBusyAndIllegal 0x01 ∧
  (∀ rnd a b s, isRunning s → ∃ w : Work,
    exec (.keyExpand rnd a b) s =
      .next (completed { s with rk := expand s.sbox s.key, status := { s.status with keyReady := true }, work := w })) ∧
  (∀ (k : Fin 4) (v : Word) (s : State), s.resetActive = false → isRunning s →
    memWrite (0x020 + 4 * k.val) v s = .next (recorded 2 s)) ∧
  encode (.keyExpand 0 0 0) = 0x00000001 ∧
  (∀ j : Fin 4, (expand sboxBuilt #v[0, 0, 0, 0])[4 + j.val] = 0x62636363) ∧
  (expand sboxBuilt sampleKey)[4] = 0x3DC1DCF0 ∧ (expand sboxBuilt sampleKey)[5] = 0x39C4DAF7 ∧
  (expand sboxBuilt sampleKey)[6] = 0x31CDD0FC ∧ (expand sboxBuilt sampleKey)[7] = 0x3DC0DEF3 ∧
  (expand sboxBuilt sampleKey)[40] = 0x69359DFD ∧ (expand sboxBuilt sampleKey)[41] = 0x3424E3D6 ∧
  (expand sboxBuilt sampleKey)[42] = 0xD191F0A5 ∧ (expand sboxBuilt sampleKey)[43] = 0x5151B236

/-- R293, ENCRYPT: encoding, acceptance with the key or NO_KEY, completion in place (WORK is not architectural, log 3),
errors, corner case, example. The completion is said under every STATE_LAYOUT too (R11). -/
def Obligations.EncryptReplacesTheBlock : Prop :=
  (∀ rnd a b, decode (cmd b a rnd 0x02) = .ok (.encrypt rnd a b)) ∧
  acceptedWithKey 0x02 ∧ rejectsBusyAndIllegal 0x02 ∧
  (∀ rnd a b s, isRunning s → ∃ w : Work,
    exec (.encrypt rnd a b) s =
      .next (completed { s with block := setBlk (cipher .rowMajor s.sbox s.rk (blk s.block)), work := w })) ∧
  (∀ p rnd a b s, isRunning s → ∃ w : Work,
    execFor p (.encrypt rnd a b) s =
      .next (completed { s with block := setBlk (cipher p.stateLayout s.sbox s.rk (blk s.block)), work := w })) ∧
  encode (.encrypt 0 0 0) = 0x00000002 ∧
  setBlk (cipher .rowMajor sboxBuilt (expand sboxBuilt #v[0, 0, 0, 0]) (blk #v[0, 0, 0, 0])) =
    #v[0x4A4FF947, 0x4D22FE7C, 0xB8A45006, 0xC8FC80EE] ∧
  setBlk (cipher .rowMajor sboxBuilt (expand sboxBuilt sampleKey) (blk sampleBlock)) =
    #v[0xF517910F, 0x2FBBEC11, 0x5F5AB08B, 0xE37F485E]

/-- R294, DECRYPT: encoding, acceptance with the key or NO_KEY, completion in place (WORK is not architectural, log 3),
errors, ENCRYPT undone, example. The completion is said under every STATE_LAYOUT too (R11). -/
def Obligations.DecryptReplacesTheBlock : Prop :=
  (∀ rnd a b, decode (cmd b a rnd 0x03) = .ok (.decrypt rnd a b)) ∧
  acceptedWithKey 0x03 ∧ rejectsBusyAndIllegal 0x03 ∧
  (∀ rnd a b s, isRunning s → ∃ w : Work,
    exec (.decrypt rnd a b) s =
      .next (completed { s with block := setBlk (invCipher .rowMajor s.isbox s.rk (blk s.block)), work := w })) ∧
  (∀ p rnd a b s, isRunning s → ∃ w : Work,
    execFor p (.decrypt rnd a b) s =
      .next (completed { s with block := setBlk (invCipher p.stateLayout s.isbox s.rk (blk s.block)), work := w })) ∧
  encode (.decrypt 0 0 0) = 0x00000003 ∧
  (∀ (rk : RoundKeys) (B : Block), invCipher .rowMajor isboxBuilt rk (cipher .rowMajor sboxBuilt rk B) = B) ∧
  setBlk (invCipher .rowMajor isboxBuilt (expand sboxBuilt sampleKey)
    (blk #v[0xF517910F, 0x2FBBEC11, 0x5F5AB08B, 0xE37F485E])) = sampleBlock

/-- R295, NOP: encoding, acceptance, completion, errors; `NOP ; WAIT` leaves every register as it was, STATUS included. -/
def Obligations.NopChangesNothing : Prop :=
  (∀ rnd a b, decode (cmd b a rnd 0x00) = .ok (.nop rnd a b)) ∧
  acceptedWhenNotBusy 0x00 ∧ rejectsBusyAndIllegal 0x00 ∧
  (∀ rnd a b s, isRunning s → exec (.nop rnd a b) s = .next (completed s)) ∧
  (∀ rnd a b s, notBusy s → s.phase = .idle → ∃ t, issueAndWait (.nop rnd a b) s = .next t ∧
    t = { s with cur := t.cur, delay := t.delay, draws := t.draws })

/-- R260, ADD_ROUND_KEY: encoding, the two checks in their order (BAD_ROUND is code 4), completion, corner cases, example. -/
def Obligations.AddRoundKeyXorsTheGroup : Prop :=
  (∀ rnd a b, decode (cmd b a rnd 0x20) = .ok (.addRoundKey rnd a b)) ∧ rejectsBusyAndIllegal 0x20 ∧
  (∀ rnd a b s, notBusy s →
    (10 < rnd.toNat → offerCommand (cmd b a rnd 0x20) s = .next (recorded 4 s)) ∧
    (rnd.toNat ≤ 10 → s.status.keyReady = false → offerCommand (cmd b a rnd 0x20) s = .next (recorded 3 s)) ∧
    (rnd.toNat ≤ 10 → s.status.keyReady = true → accepts (cmd b a rnd 0x20) s s)) ∧
  (∀ (rnd : BitVec 4) (a b : Byte) (s : State) (h : rnd.toNat ≤ 10), isRunning s →
    ∃ t, exec (.addRoundKey rnd a b) s = .next t ∧ t = completed { s with block := t.block } ∧
      ∀ n : Fin 16, (blk t.block)[n] =
        (blk s.block)[n] ^^^ byteOf (s.rk[4 * rnd.toNat + n.val / 4]'(by omega)) (n.val % 4)) ∧
  (∀ (sbox : Table) (key : Quad) (B : Block), addRoundKey (expand sbox key) 0 B = xorBlock B (blk key)) ∧
  (∀ rk g B, addRoundKey rk g (addRoundKey rk g B) = B) ∧
  encode (.addRoundKey 1 0 0) = 0x00000120 ∧
  setBlk (addRoundKey (expand sboxBuilt sampleKey) 0 (blk sampleBlock)) = #v[0x00102030, 0x40506070, 0x8090A0B0, 0xC0D0E0F0]

/-- R261, SUB_BYTES: encoding, acceptance (KEY_READY is not needed), completion, errors, corner cases, example. -/
def Obligations.SubBytesSubstitutesEveryByte : Prop :=
  (∀ rnd a b, decode (cmd b a rnd 0x21) = .ok (.subBytes rnd a b)) ∧
  acceptedWhenNotBusy 0x21 ∧ rejectsBusyAndIllegal 0x21 ∧
  (∀ rnd a b s, isRunning s → ∃ t, exec (.subBytes rnd a b) s = .next t ∧ t = completed { s with block := t.block } ∧
    ∀ n : Fin 16, (blk t.block)[n] = s.sbox[(blk s.block)[n].toNat]) ∧
  encode (.subBytes 0 0 0) = 0x00000021 ∧
  subBytes sboxBuilt (allBytes 0x00) = allBytes 0x63 ∧ subBytes sboxBuilt (allBytes 0x14) = allBytes 0x14 ∧
  subBytes sboxBuilt (allBytes 0x77) = allBytes 0x77 ∧
  setBlk (subBytes sboxBuilt (blk sampleBlock)) = #v[0x630F5547, 0x787F7177, 0xEA6F6D88, 0x6ACB6997]

/-- R262, SHIFT_ROWS: encoding, acceptance, completion, errors, corner cases, example. The completion is said on the words:
row r is STATEr, rotated left by 8r bits (R258), and under every STATE_LAYOUT on the block (R11). -/
def Obligations.ShiftRowsRotatesTheRowsLeft : Prop :=
  (∀ rnd a b, decode (cmd b a rnd 0x22) = .ok (.shiftRows rnd a b)) ∧
  acceptedWhenNotBusy 0x22 ∧ rejectsBusyAndIllegal 0x22 ∧
  (∀ rnd a b s, isRunning s → ∃ t, exec (.shiftRows rnd a b) s = .next t ∧ t = completed { s with block := t.block } ∧
    (∀ r c : Fin 4, elem .rowMajor (blk t.block) r c = elem .rowMajor (blk s.block) r (c + r)) ∧
    ∀ r : Fin 4, t.block[r] = s.block[r].rotateLeft (8 * r.val)) ∧
  (∀ p rnd a b s, isRunning s → execFor p (.shiftRows rnd a b) s =
    .next (completed { s with block := setBlk (shiftRows p.stateLayout (blk s.block)) })) ∧
  encode (.shiftRows 0 0 0) = 0x00000022 ∧
  (∀ q : Quad, (∀ r : Fin 4, ∃ x, q[r] = wordOf x x x x) → setBlk (shiftRows .rowMajor (blk q)) = q) ∧
  (∀ l B, shiftRows l (shiftRows l (shiftRows l (shiftRows l B))) = B) ∧
  setBlk (shiftRows .rowMajor (blk sampleBlock)) = #v[0x00112233, 0x55667744, 0xAABB8899, 0xFFCCDDEE]

/-- R263, MIX_COLUMNS: encoding, acceptance, completion by the four formulas, and under every STATE_LAYOUT on the
block (R11), errors, corner cases, examples. -/
def Obligations.MixColumnsCombinesTheColumns : Prop :=
  (∀ rnd a b, decode (cmd b a rnd 0x23) = .ok (.mixColumns rnd a b)) ∧
  acceptedWhenNotBusy 0x23 ∧ rejectsBusyAndIllegal 0x23 ∧
  (∀ rnd a b s, isRunning s → ∃ t, exec (.mixColumns rnd a b) s = .next t ∧ t = completed { s with block := t.block } ∧
    ∀ c < 4,
      byteOf t.block[0] c = gmul 2 (byteOf s.block[0] c) ^^^ gmul 3 (byteOf s.block[1] c) ^^^ byteOf s.block[2] c
        ^^^ byteOf s.block[3] c ∧
      byteOf t.block[1] c = byteOf s.block[0] c ^^^ gmul 2 (byteOf s.block[1] c) ^^^ gmul 3 (byteOf s.block[2] c)
        ^^^ byteOf s.block[3] c ∧
      byteOf t.block[2] c = byteOf s.block[0] c ^^^ byteOf s.block[1] c ^^^ gmul 2 (byteOf s.block[2] c)
        ^^^ gmul 3 (byteOf s.block[3] c) ∧
      byteOf t.block[3] c = gmul 3 (byteOf s.block[0] c) ^^^ byteOf s.block[1] c ^^^ byteOf s.block[2] c
        ^^^ gmul 2 (byteOf s.block[3] c)) ∧
  (∀ p rnd a b s, isRunning s → execFor p (.mixColumns rnd a b) s =
    .next (completed { s with block := setBlk (mixColumns p.stateLayout (blk s.block)) })) ∧
  encode (.mixColumns 0 0 0) = 0x00000023 ∧
  (∀ l, mixColumns l (allBytes 0) = allBytes 0) ∧ (∀ x r, mixColumn x x x x r = x) ∧
  setBlk (mixColumns .rowMajor (blk sampleBlock)) = #v[0x8899AABB, 0xC7D6E5F4, 0x00112233, 0x4F5E6D7C] ∧
  (mixColumn 0xDB 0x13 0x53 0x45 0 = 0x8E ∧ mixColumn 0xDB 0x13 0x53 0x45 1 = 0x4D ∧
    mixColumn 0xDB 0x13 0x53 0x45 2 = 0xA1 ∧ mixColumn 0xDB 0x13 0x53 0x45 3 = 0xBC)

/-- R264, INV_SUB_BYTES: encoding, acceptance, completion, errors, corner cases, example. -/
def Obligations.InvSubBytesSubstitutesEveryByte : Prop :=
  (∀ rnd a b, decode (cmd b a rnd 0x31) = .ok (.invSubBytes rnd a b)) ∧
  acceptedWhenNotBusy 0x31 ∧ rejectsBusyAndIllegal 0x31 ∧
  (∀ rnd a b s, isRunning s → ∃ t, exec (.invSubBytes rnd a b) s = .next t ∧ t = completed { s with block := t.block } ∧
    ∀ n : Fin 16, (blk t.block)[n] = s.isbox[(blk s.block)[n].toNat]) ∧
  encode (.invSubBytes 0 0 0) = 0x00000031 ∧
  invSubBytes isboxBuilt (allBytes 0x00) = allBytes 0xB8 ∧
  (∀ B, invSubBytes isboxBuilt (subBytes sboxBuilt B) = B) ∧
  setBlk (invSubBytes isboxBuilt (blk sampleBlock)) = #v[0xB884A35B, 0x4722C777, 0xBBE5F0F4, 0x232F728F]

/-- R265, INV_SHIFT_ROWS: encoding, acceptance, completion (under every STATE_LAYOUT too, R11), errors, corner cases, example;
the row-2 rotation is the same in both directions. -/
def Obligations.InvShiftRowsRotatesTheRowsRight : Prop :=
  (∀ rnd a b, decode (cmd b a rnd 0x32) = .ok (.invShiftRows rnd a b)) ∧
  acceptedWhenNotBusy 0x32 ∧ rejectsBusyAndIllegal 0x32 ∧
  (∀ rnd a b s, isRunning s → ∃ t, exec (.invShiftRows rnd a b) s = .next t ∧ t = completed { s with block := t.block } ∧
    (∀ r c : Fin 4, elem .rowMajor (blk t.block) r c = elem .rowMajor (blk s.block) r (c - r)) ∧
    ∀ r : Fin 4, t.block[r] = s.block[r].rotateRight (8 * r.val)) ∧
  (∀ p rnd a b s, isRunning s → execFor p (.invShiftRows rnd a b) s =
    .next (completed { s with block := setBlk (invShiftRows p.stateLayout (blk s.block)) })) ∧
  encode (.invShiftRows 0 0 0) = 0x00000032 ∧
  (∀ q : Quad, (∀ r : Fin 4, ∃ x, q[r] = wordOf x x x x) → setBlk (invShiftRows .rowMajor (blk q)) = q) ∧
  (∀ l B, invShiftRows l (invShiftRows l (invShiftRows l (invShiftRows l B))) = B) ∧
  (∀ l B c, elem l (invShiftRows l B) 2 c = elem l (shiftRows l B) 2 c) ∧
  setBlk (invShiftRows .rowMajor (blk sampleBlock)) = #v[0x00112233, 0x77445566, 0xAABB8899, 0xDDEEFFCC]

/-- R266, INV_MIX_COLUMNS: encoding, acceptance, completion by the four formulas of R257, and under every
STATE_LAYOUT on the block (R11), errors, corner cases, example. -/
def Obligations.InvMixColumnsUndoesTheMix : Prop :=
  (∀ rnd a b, decode (cmd b a rnd 0x33) = .ok (.invMixColumns rnd a b)) ∧
  acceptedWhenNotBusy 0x33 ∧ rejectsBusyAndIllegal 0x33 ∧
  (∀ rnd a b s, isRunning s → ∃ t, exec (.invMixColumns rnd a b) s = .next t ∧ t = completed { s with block := t.block } ∧
    ∀ c < 4,
      byteOf t.block[0] c = gmul 0x0E (byteOf s.block[0] c) ^^^ gmul 0x0B (byteOf s.block[1] c)
        ^^^ gmul 0x0D (byteOf s.block[2] c) ^^^ gmul 0x09 (byteOf s.block[3] c) ∧
      byteOf t.block[1] c = gmul 0x09 (byteOf s.block[0] c) ^^^ gmul 0x0E (byteOf s.block[1] c)
        ^^^ gmul 0x0B (byteOf s.block[2] c) ^^^ gmul 0x0D (byteOf s.block[3] c) ∧
      byteOf t.block[2] c = gmul 0x0D (byteOf s.block[0] c) ^^^ gmul 0x09 (byteOf s.block[1] c)
        ^^^ gmul 0x0E (byteOf s.block[2] c) ^^^ gmul 0x0B (byteOf s.block[3] c) ∧
      byteOf t.block[3] c = gmul 0x0B (byteOf s.block[0] c) ^^^ gmul 0x0D (byteOf s.block[1] c)
        ^^^ gmul 0x09 (byteOf s.block[2] c) ^^^ gmul 0x0E (byteOf s.block[3] c)) ∧
  (∀ p rnd a b s, isRunning s → execFor p (.invMixColumns rnd a b) s =
    .next (completed { s with block := setBlk (invMixColumns p.stateLayout (blk s.block)) })) ∧
  encode (.invMixColumns 0 0 0) = 0x00000033 ∧
  (∀ l, invMixColumns l (allBytes 0) = allBytes 0) ∧ (∀ x r, invMixColumn x x x x r = x) ∧
  (∀ l B, invMixColumns l (mixColumns l B) = B) ∧
  setBlk (invMixColumns .rowMajor (blk sampleBlock)) = #v[0x9E8FBCAD, 0xD1C0F3E2, 0x16073425, 0x59487B6A]

/-- The frame of every command, through the host's read of every address: at its completion the block and stage commands
change what STATE reads and nothing else, GF_MUL and GF_INV what RESULT reads, KEY_EXPAND the RK window and KEY_READY,
NOP nothing (PHASE and BUSY put back); the key, the tables, the error record, the reset input, the host's list and its
reads are unchanged by all of them. -/
def Obligations.CommandFrame : Prop :=
  ∀ (i : Instr) (s t : State), isRunning s → exec i s = .next t →
    t.key = s.key ∧ t.sbox = s.sbox ∧ t.isbox = s.isbox ∧ t.errCause = s.errCause ∧ t.resetActive = s.resetActive ∧
    t.cur = s.cur ∧ t.host = s.host ∧ t.reads = s.reads ∧ t.delay = s.delay ∧ t.draws = s.draws ∧
    t.phase = .idle ∧ t.status.busy = false ∧ t.status.tablesReady = s.status.tablesReady ∧ t.status.err = s.status.err ∧
    match i with
    | .nop _ _ _ => t.status = (completed s).status ∧ ∀ addr, memRead addr t = memRead addr (completed s)
    | .keyExpand _ _ _ => t.result = s.result ∧ t.block = s.block ∧
        ∀ addr, ¬ (0xC00 ≤ off addr ∧ off addr ≤ 0xCAC) → off addr ≠ 0x008 →
          memRead addr t = memRead addr (completed s)
    | .gfMul _ _ _ | .gfInv _ _ _ => t.status = (completed s).status ∧ t.rk = s.rk ∧ t.block = s.block ∧
        ∀ addr, off addr ≠ 0x010 → memRead addr t = memRead addr (completed s)
    | .encrypt _ _ _ | .decrypt _ _ _ | .addRoundKey _ _ _ | .subBytes _ _ _ | .shiftRows _ _ _ | .mixColumns _ _ _
    | .invSubBytes _ _ _ | .invShiftRows _ _ _ | .invMixColumns _ _ _ =>
        t.status = (completed s).status ∧ t.rk = s.rk ∧ t.result = s.result ∧
        ∀ addr, ¬ (0x030 ≤ off addr ∧ off addr ≤ 0x03C) → memRead addr t = memRead addr (completed s)

/-! ### Errors and acceptance (60_exceptions.md) -/

/-- R359: OfferCommand is the spec's pseudocode, for every word and every state. The check order of R358 is in it. -/
def Obligations.OfferCommandFollowsTheChecks : Prop :=
  ∀ (v : Word) (s : State), ∃ delay draws, offerCommand v s = .next (offerSpec v s delay draws)

/-- R361: an error while ERR = 1 leaves ERR_CAUSE as it was, and ERR never blocks a command: an offer is accepted with
ERR = 1 exactly when it is with ERR = 0, and a running command completes with the same data. -/
def Obligations.FirstErrorKeptAndNeverBlocks : Prop :=
  (∀ (e : Err) (s : State), s.status.err = true →
    (raiseErr e s).errCause = s.errCause ∧ (raiseErr e s).status = s.status) ∧
  (∀ (e : Err) (s : State), s.status.err = false →
    (raiseErr e s).errCause = errCode e ∧ (raiseErr e s).status = { s.status with err := true }) ∧
  (∀ (v : Word) (s t u : State) (cause : BitVec 4) (flag : Bool), notBusy s → offerCommand v s = .next t →
    offerCommand v { s with errCause := cause, status := { s.status with err := flag } } = .next u →
    (t.status.busy = u.status.busy ∧ t.cur = u.cur ∧ t.phase = u.phase)) ∧
  (∀ (i : Instr) (s t : State) (cause : BitVec 4) (flag : Bool), isRunning s → exec i s = .next t →
    exec i { s with errCause := cause, status := { s.status with err := flag } } =
      .next { t with errCause := cause, status := { t.status with err := flag } })

/-- R353: while BUSY = 1 a write to CMD, KEY0..3 or STATE0..3 records BUSY (code 2) and changes nothing else, whatever is
in progress; writes to STATUS, reserved offsets and read-only registers do not raise it. -/
def Obligations.WritesWhileBusyAreDropped : Prop :=
  ∀ (addr : Nat) (v : Word) (s : State), s.resetActive = false → s.status.busy = true →
    (off addr = 0x004 ∨ (0x020 ≤ off addr ∧ off addr ≤ 0x03C) → memWrite addr v s = .next (recorded 2 s)) ∧
    (off addr ≠ 0x004 → ¬ (0x020 ≤ off addr ∧ off addr ≤ 0x03C) →
      ∃ t, memWrite addr v s = .next t ∧ (t.status.err = true → s.status.err = true) ∧ (t.errCause = s.errCause ∨ t.errCause = 0))

/-! ### The status flags over every step (10_state.md R34 to R37) -/

/-- R34: BUSY goes from 0 to 1 only by an accepted command or a reset edge, and from 1 to 0 only by the core step that
completes the init sequence or the running command; while it is 1, writes to CMD, KEYn and STATEn are rejected and the data
registers and windows read 0. -/
def Obligations.BusyIsSetByAcceptanceAndClearedByCompletion : Prop :=
  (∀ s t : State, step s = .next t → s.status.busy = false → t.status.busy = true →
    (∃ addr v rest, s.host = .wr addr v :: rest ∧ off addr = 0x004 ∧ t.cur = v ∧ t.phase = .run ∧
      ∃ i, decode v = .ok i) ∨
    s.host.head? = some .assertReset ∨ s.host.head? = some .releaseReset) ∧
  (∀ s t : State, step s = .next t → s.status.busy = true → t.status.busy = false →
    coreMoves s = true ∧ step s = coreStep s ∧ t.phase = .idle) ∧
  (∀ s : State, (heldInReset s).status.busy = true) ∧
  (∀ (addr : Nat) (v : Word) (s : State), s.resetActive = false → s.status.busy = true →
    (off addr = 0x004 ∨ (0x020 ≤ off addr ∧ off addr ≤ 0x03C) → memWrite addr v s = .next (recorded 2 s)) ∧
    (off addr = 0x010 ∨ (0x020 ≤ off addr ∧ off addr ≤ 0x03C) ∨ (0x400 ≤ off addr ∧ off addr ≤ 0xCAC) →
      memRead addr s = 0))

/-- R35: TABLES_READY goes to 1 only by the core step that completes the init sequence, which sets it, and to 0 only by a
reset edge; in a good state a command can only be accepted once it is 1. -/
def Obligations.TablesReadyIsSetByInitOnly : Prop :=
  (∀ s : State, (heldInReset s).status.tablesReady = false) ∧
  (∀ s t : State, step s = .next t → s.status.tablesReady = false → t.status.tablesReady = true →
    coreMoves s = true ∧ s.phase = .init) ∧
  (∀ s t : State, coreMoves s = true → s.phase = .init → step s = .next t → t.status.tablesReady = true) ∧
  (∀ s t : State, step s = .next t → s.status.tablesReady = true → t.status.tablesReady = false →
    s.host.head? = some .assertReset ∨ s.host.head? = some .releaseReset) ∧
  (∀ (s t : State) (v : Word), Inv s → offerCommand v s = .next t → s.phase ≠ .run → t.phase = .run →
    s.status.tablesReady = true)

/-- R36: KEY_READY goes to 1 only by the completion of KEY_EXPAND, which sets it, and to 0 only by a reset edge or an accepted
write to KEY0..KEY3, which clears it; ENCRYPT, DECRYPT and ADD_ROUND_KEY are rejected while it is 0. -/
def Obligations.KeyReadyIsSetByKeyExpandAndClearedByKeyWrites : Prop :=
  (∀ s : State, (heldInReset s).status.keyReady = false) ∧
  (∀ s t : State, step s = .next t → s.status.keyReady = false → t.status.keyReady = true →
    coreMoves s = true ∧ s.phase = .run ∧ ∃ rnd a b, decode s.cur = .ok (.keyExpand rnd a b)) ∧
  (∀ s t : State, ∀ rnd a b, coreMoves s = true → s.phase = .run → decode s.cur = .ok (.keyExpand rnd a b) →
    step s = .next t → t.status.keyReady = true) ∧
  (∀ s t : State, step s = .next t → s.status.keyReady = true → t.status.keyReady = false →
    (∃ addr v rest, s.host = .wr addr v :: rest ∧ 0x020 ≤ off addr ∧ off addr ≤ 0x02C ∧ notBusy s) ∨
    s.host.head? = some .assertReset ∨ s.host.head? = some .releaseReset) ∧
  (∀ (addr : Nat) (v : Word) (s t : State), s.resetActive = false → notBusy s → 0x020 ≤ off addr → off addr ≤ 0x02C →
    memWrite addr v s = .next t → t.status.keyReady = false) ∧
  (∀ (v : Word) (s : State), notBusy s → s.status.keyReady = false → (v.extractLsb' 0 8).toNat ∈ [0x02, 0x03, 0x20] →
    ∃ t, offerCommand v s = .next t ∧ t = { s with errCause := t.errCause, status := t.status } ∧ t.status.busy = false ∧
      t.status.err = true)

/-- R37 and R360: a STATUS write with bit 3 = 1 sets ERR and ERR_CAUSE to 0 in any phase and whatever BUSY is, with bit 3 = 0 it
changes nothing, and in no case does it change anything else or run a command; nothing else clears ERR but a reset edge, no
command does, and every error sets it. -/
def Obligations.ErrIsClearedByStatusWritesOnly : Prop :=
  (∀ (addr : Nat) (v : Word) (s : State), s.resetActive = false → off addr = 0x008 →
    (v.getLsbD 3 = true →
      memWrite addr v s = .next { s with errCause := 0, status := { s.status with err := false } }) ∧
    (v.getLsbD 3 = false → memWrite addr v s = .next s)) ∧
  (∀ s : State, (heldInReset s).status.err = false ∧ (heldInReset s).errCause = 0) ∧
  (∀ s t : State, step s = .next t → s.status.err = true → t.status.err = false →
    (∃ addr v rest, s.host = .wr addr v :: rest ∧ off addr = 0x008 ∧ v.getLsbD 3 = true) ∨
    s.host.head? = some .assertReset ∨ s.host.head? = some .releaseReset) ∧
  (∀ (i : Instr) (s t : State), exec i s = .next t → s.status.err = true → t.status.err = true) ∧
  (∀ (e : Err) (s : State), (raiseErr e s).status.err = true)

/-! ### The registers (10_state.md R39, R40, R42) -/

/-- R40: a write to KEYn with BUSY = 0 stores the word, clears KEY_READY and changes no other word, RK included; it then reads
back; with BUSY = 1 it is dropped; and no step but such a write or a reset edge changes KEYn. -/
def Obligations.KeyRegistersHoldWhatTheHostWrites : Prop :=
  (∀ (k : Fin 4) (v : Word) (s : State), s.resetActive = false → notBusy s →
    ∃ t, memWrite (0x020 + 4 * k.val) v s = .next t ∧
      t = { s with key := t.key, status := { s.status with keyReady := false } } ∧
      (∀ j : Fin 4, t.key[j] = if j = k then v else s.key[j]) ∧ memRead (0x020 + 4 * k.val) t = v) ∧
  (∀ (k : Fin 4) (v : Word) (s : State), s.resetActive = false → s.status.busy = true →
    memWrite (0x020 + 4 * k.val) v s = .next (recorded 2 s)) ∧
  (∀ (k : Fin 4) (s : State), s.resetActive = false → notBusy s → memRead (0x020 + 4 * k.val) s = s.key[k]) ∧
  (∀ s t : State, step s = .next t → t.key ≠ s.key →
    (∃ addr v rest, s.host = .wr addr v :: rest ∧ 0x020 ≤ off addr ∧ off addr ≤ 0x02C ∧ notBusy s) ∨
    s.host.head? = some .assertReset ∨ s.host.head? = some .releaseReset)

/-- R39 and R42: RESULT changes only by a completing GF_MUL or GF_INV or a reset edge; STATEn changes only by a completing
block or stage command, an accepted write to it or a reset edge; such a write stores the word, changes nothing else and reads
back. -/
def Obligations.ResultAndStateChangeOnlyAsTheRulesSay : Prop :=
  (∀ s t : State, step s = .next t → t.result ≠ s.result →
    (coreMoves s = true ∧ s.phase = .run ∧
      ∃ rnd a b, decode s.cur = .ok (.gfMul rnd a b) ∨ decode s.cur = .ok (.gfInv rnd a b)) ∨
    s.host.head? = some .assertReset ∨ s.host.head? = some .releaseReset) ∧
  (∀ s t : State, step s = .next t → t.block ≠ s.block →
    (coreMoves s = true ∧ s.phase = .run ∧ ∃ i, decode s.cur = .ok i ∧
      i.opcode.toNat ∈ [0x02, 0x03, 0x20, 0x21, 0x22, 0x23, 0x31, 0x32, 0x33]) ∨
    (∃ addr v rest, s.host = .wr addr v :: rest ∧ 0x030 ≤ off addr ∧ off addr ≤ 0x03C ∧ notBusy s) ∨
    s.host.head? = some .assertReset ∨ s.host.head? = some .releaseReset) ∧
  (∀ (k : Fin 4) (v : Word) (s : State), s.resetActive = false → notBusy s →
    ∃ t, memWrite (0x030 + 4 * k.val) v s = .next t ∧ t = { s with block := t.block } ∧
      (∀ j : Fin 4, t.block[j] = if j = k then v else s.block[j]) ∧ memRead (0x030 + 4 * k.val) t = v) ∧
  (∀ s : State, s.resetActive = false → notBusy s → memRead 0x010 s = s.result.setWidth 32)

/-- R45 to R47, R50 and R103: SBOX and ISBOX change only by the completing init sequence or a reset edge, RK only by a completing
KEY_EXPAND or a reset edge, and CUR only by an accepted write to CMD, which stores the word, or a reset edge. -/
def Obligations.TablesRoundKeysAndCurChangeOnlyAsTheRulesSay : Prop :=
  (∀ s t : State, step s = .next t → (t.sbox ≠ s.sbox ∨ t.isbox ≠ s.isbox) →
    (coreMoves s = true ∧ s.phase = .init) ∨ s.host.head? = some .assertReset ∨ s.host.head? = some .releaseReset) ∧
  (∀ s t : State, step s = .next t → t.rk ≠ s.rk →
    (coreMoves s = true ∧ s.phase = .run ∧ ∃ rnd a b, decode s.cur = .ok (.keyExpand rnd a b)) ∨
    s.host.head? = some .assertReset ∨ s.host.head? = some .releaseReset) ∧
  (∀ s t : State, step s = .next t → t.cur ≠ s.cur →
    (∃ addr v rest, s.host = .wr addr v :: rest ∧ off addr = 0x004 ∧ notBusy s ∧ t.cur = v ∧ t.phase = .run) ∨
    s.host.head? = some .assertReset ∨ s.host.head? = some .releaseReset)

/-! ### The register space (20_memory.md) -/

/-- R89: MemRead is the spec's pseudocode, for every address and every state. -/
def Obligations.MemReadFollowsTheMap : Prop := ∀ (addr : Nat) (s : State), memRead addr s = memReadSpec addr s

/-- R90: MemWrite is the spec's pseudocode, for every address, value and state. -/
def Obligations.MemWriteFollowsTheMap : Prop :=
  ∀ (addr : Nat) (v : Word) (s : State), ∃ delay draws, memWrite addr v s = .next (memWriteSpec addr v s delay draws)

/-- R91: address bits 1:0 and the bits above 11 are not seen, in reads and in writes; so no base address matters either. -/
def Obligations.OnlyAddressBits11To2Matter : Prop :=
  ∀ (base word low : Nat) (v : Word) (s : State), low < 4 → word < 1024 →
    memRead (4096 * base + 4 * word + low) s = memRead (4 * word) s ∧
    memWrite (4096 * base + 4 * word + low) v s = memWrite (4 * word) v s

/-- R82 and R88: reserved offsets read 0, and writes to reserved offsets and to read-only registers and windows change nothing
and record no error, whatever BUSY is. -/
def Obligations.ReservedAndReadOnlyWritesAreIgnored : Prop :=
  ∀ (addr : Nat) (v : Word) (s : State),
    ((0x014 ≤ off addr ∧ off addr ≤ 0x01C) ∨ (0x040 ≤ off addr ∧ off addr ≤ 0x3FC) ∨ (0xCB0 ≤ off addr ∧ off addr ≤ 0xCFC) ∨
        (0xD28 ≤ off addr ∧ off addr ≤ 0xFFC) → memRead addr s = 0 ∧ memWrite addr v s = .next s) ∧
    (off addr = 0x000 ∨ off addr = 0x00C ∨ off addr = 0x010 ∨ (0x400 ≤ off addr ∧ off addr ≤ 0xCAC) ∨
        (0xD00 ≤ off addr ∧ off addr ≤ 0xD24) → memWrite addr v s = .next s) ∧
    (off addr = 0x008 → v.getLsbD 3 = false → memWrite addr v s = .next s)

/-- R87: while BUSY = 1 RESULT, KEY0..3, STATE0..3 and the SBOX, ISBOX and RK windows read 0, and ID, CMD, STATUS, ERR_CAUSE,
the RCON window and reserved offsets read what they read with BUSY = 0, but for STATUS bit 0 itself. -/
def Obligations.DataReadsAreZeroWhileBusy : Prop :=
  ∀ (addr : Nat) (s : State), s.resetActive = false → s.status.busy = true →
    (off addr = 0x010 ∨ (0x020 ≤ off addr ∧ off addr ≤ 0x03C) ∨ (0x400 ≤ off addr ∧ off addr ≤ 0xCAC) →
      memRead addr s = 0) ∧
    (¬ (off addr = 0x010 ∨ (0x020 ≤ off addr ∧ off addr ≤ 0x03C) ∨ (0x400 ≤ off addr ∧ off addr ≤ 0xCAC)) →
      off addr ≠ 0x008 → memRead addr s = memRead addr (completed s)) ∧
    (off addr = 0x008 → memRead addr s = memRead addr (completed s) ||| 1)

/-! ### Reset (10_state.md R57, 70_reset_and_hazards.md R400 to R403) -/

/-- R57: the reset values the spec gives. (SBOX, ISBOX, CUR and WORK, unspecified there, are not in it: logs 4 to 6.) -/
def Obligations.ResetValues : Prop :=
  State.reset.status = { busy := true, tablesReady := false, keyReady := false, err := false } ∧
  State.reset.errCause = 0 ∧ State.reset.result = 0 ∧
  (∀ k : Fin 4, State.reset.key[k] = 0 ∧ State.reset.block[k] = 0) ∧ (∀ j : Fin 44, State.reset.rk[j] = 0) ∧
  State.reset.phase = .init ∧
  memRead 0x000 State.reset = 0x4F414553 ∧ memRead 0x004 State.reset = 0 ∧ memRead 0x008 State.reset = 0x00000001 ∧
  (∀ k : Fin 10, memRead (0xD00 + 4 * k.val) State.reset =
    (([0x01, 0x02, 0x04, 0x08, 0x10, 0x20, 0x40, 0x80, 0x1B, 0x36] : List Byte).getD k.val 0).setWidth 32)

/-- R400 to R403: asserting reset, from any state where the host moves, puts every register at its reset value and abandons
what was in progress; while it is active every read gives 0, every write is ignored, no core step is taken and the registers
stay; releasing it gives the state of R57 with the init sequence enabled. The host's list and its past reads are not the
core's state and stay (log 10). -/
def Obligations.ResetHoldsAndReleases : Prop :=
  (∀ (s : State) (rest : List HostAct), coreMoves s = false → s.host = .assertReset :: rest →
    ∃ t, step s = .next t ∧ t.host = rest ∧ t.reads = s.reads ∧ t = heldInReset t) ∧
  (∀ s : State, heldInReset s = { State.reset with resetActive := true, host := s.host, reads := s.reads,
                                                   delay := s.delay, draws := s.draws }) ∧
  (∀ (addr : Nat) (v : Word) (s : State), s.resetActive = true → memRead addr s = 0 ∧ memWrite addr v s = .next s) ∧
  (∀ s t : State, s = heldInReset s → s.host.head? ≠ some .releaseReset → step s = .next t → t = heldInReset t) ∧
  (∀ (s : State) (rest : List HostAct), s.resetActive = true → s.host = .releaseReset :: rest →
    ∃ d, step s = .next { State.reset with host := rest, reads := s.reads, delay := d, draws := s.draws + 1 })

/-! ### Invariants (10_state.md R49, R56, 60_exceptions.md R351) -/

/-- The invariant holds right after reset. -/
def Obligations.InvariantHoldsAtReset : Prop := Inv State.reset

/-- R56 with R49, R35, R50, R351 and R400: every step of every agent keeps the invariant, on this hardware and under every
parameter (R11). -/
def Obligations.EveryStepKeepsTheInvariant : Prop :=
  (∀ s t : State, Inv s → step s = .next t → Inv t) ∧
  (∀ (p : Config.Params) (s t : State), InvFor p.sboxVariant s → stepFor p s = .next t → InvFor p.sboxVariant t)

/-- In a good state no step stops: the model's two faults and its refusal are never reached, on this hardware and
under every parameter (R11). -/
def Obligations.NoGoodStateStops : Prop :=
  (∀ s : State, Inv s → ∃ t, step s = .next t) ∧
  (∀ (p : Config.Params) (s : State), InvFor p.sboxVariant s → ∃ t, stepFor p s = .next t)

/-! ### The field (40_field_arithmetic.md) -/

/-- R162: gmul is the product of polynomials reduced modulo 0x11B, commutative, associative, distributive over XOR, with 0 and
1 as they should be and no zero divisors. -/
def Obligations.GmulIsTheFieldProduct : Prop :=
  (∀ a b : Byte, ∃ q : Nat, polyMul a.toNat b.toNat = (gmul a b).toNat ^^^ polyMul q 0x11B) ∧
  (∀ a b : Byte, gmul a b = gmul b a) ∧ (∀ a b c : Byte, gmul (gmul a b) c = gmul a (gmul b c)) ∧
  (∀ a b c : Byte, gmul a (b ^^^ c) = gmul a b ^^^ gmul a c ∧ gmul (a ^^^ b) c = gmul a c ^^^ gmul b c) ∧
  (∀ a b : Byte, gmul a 0 = 0 ∧ gmul 0 b = 0 ∧ gmul a 1 = a) ∧
  (∀ a b : Byte, gmul a b = 0 → a = 0 ∨ b = 0)

/-- R163: for x not 0, ginv x is the one byte whose product with x is 1; ginv 0 = 0; the Euclid loop needs at most 7 rounds; and
ginv is x^254 for every x. -/
def Obligations.GinvIsTheInverse : Prop :=
  (∀ x : Byte, x ≠ 0 → gmul x (ginv x) = 1 ∧ ∀ y, gmul x y = 1 → y = ginv x) ∧ ginv 0 = 0 ∧
  (∀ x : Byte, x ≠ 0 → euclidLoop 7 0x11B x.toNat 0 1 = euclidLoop 8 0x11B x.toNat 0 1 ∧
    euclidLoop 8 0x11B x.toNat 0 1 < 256) ∧
  (∀ x : Byte, ginv x = gpow x 254)

/-- R164: xtime is multiplication by 2, and multiplication by 3 is xtime XOR the byte. -/
def Obligations.XtimeIsMultiplicationByTwo : Prop :=
  ∀ a : Byte, xtime a = gmul a 0x02 ∧ gmul a 0x02 = (a <<< 1) ^^^ (if a.getLsbD 7 then 0x1B#8 else 0x00#8) ∧
    gmul a 0x03 = xtime a ^^^ a

/-! ### The tables (41_substitution_tables.md) -/

/-- R191: bit k of AFF(v) is the XOR of bits 0..k of v and bit k of 0x63; the map is invertible; the rule's examples. -/
def Obligations.AffineIsAPrefixParity : Prop :=
  (∀ (v : Byte) (k : Nat), k < 8 →
    (aff .srcShiftSeq v).getLsbD k = ((List.range (k + 1)).foldl (fun p j => p ^^ v.getLsbD j) false ^^ (0x63#8).getLsbD k)) ∧
  (∀ v w : Byte, aff .srcShiftSeq v = aff .srcShiftSeq w → v = w) ∧
  (∀ v w : Byte, aff .srcShiftSeq (v ^^^ w) ^^^ 0x63 = (aff .srcShiftSeq v ^^^ 0x63) ^^^ (aff .srcShiftSeq w ^^^ 0x63)) ∧
  aff .srcShiftSeq 0x00 = 0x63 ∧ aff .srcShiftSeq 0x01 = 0x9C ∧ aff .srcShiftSeq 0x80 = 0xE3 ∧ aff .srcShiftSeq 0xFF = 0x36

/-- R195: in every SBOX_VARIANT, FWD is a permutation, the scan that makes INVT writes each entry at exactly one index, and FWD
and INV undo each other. -/
def Obligations.TablesAreMutuallyInverse : Prop :=
  ∀ (v : Config.SboxVariant) (x : Byte),
    (∃ i, fwd v i = x ∧ ∀ j, fwd v j = x → j = i) ∧ inv v (fwd v x) = x ∧ fwd v (inv v x) = x

/-- R199: the facts of the rule; the fixed points of FWD are exactly 0x14 and 0x77. -/
def Obligations.TableFacts : Prop :=
  fwd .srcShiftSeq 0x00 = 0x63 ∧ fwd .srcShiftSeq 0x01 = 0x9C ∧ fwd .srcShiftSeq 0x02 = 0x18 ∧
  fwd .srcShiftSeq 0x53 = 0x25 ∧ fwd .srcShiftSeq 0x80 = 0xE2 ∧ fwd .srcShiftSeq 0xFF = 0x97 ∧
  inv .srcShiftSeq 0x00 = 0xB8 ∧ inv .srcShiftSeq 0x63 = 0x00 ∧ inv .srcShiftSeq 0x9C = 0x01 ∧
  (∀ x : Byte, fwd .srcShiftSeq x = x ↔ x = 0x14 ∨ x = 0x77) ∧
  fwd .fipsRotate 0x01 = 0x7C ∧ fwd .srcShiftSeq 0x01 ≠ 0x7C

/-! ### The key schedule (42_key_schedule.md) -/

/-- R224: the first four words are the key and every other word is `temp ^ w[i-4]`. -/
def Obligations.ExpandFollowsTheRecurrence : Prop :=
  ∀ (sbox : Table) (key : Quad),
    (∀ k : Fin 4, (expand sbox key)[k.val] = key[k]) ∧
    (∀ (i : Nat) (h4 : 4 ≤ i) (h : i < 44),
      (expand sbox key)[i] =
        (if i % 4 = 0 then
          wordOf (lookup sbox (byteOf (expand sbox key)[i - 1] 1)) (lookup sbox (byteOf (expand sbox key)[i - 1] 2))
            (lookup sbox (byteOf (expand sbox key)[i - 1] 3)) (lookup sbox (byteOf (expand sbox key)[i - 1] 0))
            ^^^ (((([0x01, 0x02, 0x04, 0x08, 0x10, 0x20, 0x40, 0x80, 0x1B, 0x36] : List Byte).getD (i / 4 - 1) 0).setWidth 32)
              <<< 24)
        else (expand sbox key)[i - 1]) ^^^ (expand sbox key)[i - 4])

/-- R228: words whose index is no multiple of 4 are the XOR of two earlier words, and the key is recoverable from group 10:
two keys with the same group 10 are the same key. -/
def Obligations.KeyIsRecoverableFromTheLastGroup : Prop :=
  (∀ (sbox : Table) (key : Quad) (i : Nat) (h4 : 4 ≤ i) (h : i < 44), i % 4 ≠ 0 →
    (expand sbox key)[i] = (expand sbox key)[i - 1] ^^^ (expand sbox key)[i - 4]) ∧
  (∀ (sbox : Table) (key key' : Quad), (∀ j : Fin 4, (expand sbox key)[40 + j.val] = (expand sbox key')[40 + j.val]) →
    key = key')

/-! ### The stages and pipelines (43_round_stages.md, 44_block_pipelines.md) -/

/-- R258: under ROW_MAJOR, ShiftRows and InvShiftRows rotate the word STATEr by 8r bits, and MixColumns and InvMixColumns work on
byte c of the four words; under COLUMN_MAJOR they work on the four bytes of one word. -/
def Obligations.WordLevelForms : Prop :=
  (∀ (q : Quad) (r : Fin 4), (setBlk (shiftRows .rowMajor (blk q)))[r] = q[r].rotateLeft (8 * r.val) ∧
    (setBlk (invShiftRows .rowMajor (blk q)))[r] = q[r].rotateRight (8 * r.val)) ∧
  (∀ (q : Quad) (r c : Fin 4),
    byteOf (setBlk (mixColumns .rowMajor (blk q)))[r] c.val =
      mixColumn (byteOf q[0] c.val) (byteOf q[1] c.val) (byteOf q[2] c.val) (byteOf q[3] c.val) r ∧
    byteOf (setBlk (invMixColumns .rowMajor (blk q)))[r] c.val =
      invMixColumn (byteOf q[0] c.val) (byteOf q[1] c.val) (byteOf q[2] c.val) (byteOf q[3] c.val) r) ∧
  (∀ (q : Quad) (r c : Fin 4),
    byteOf (setBlk (mixColumns .columnMajor (blk q)))[c] r.val =
      mixColumn (byteOf q[c] 0) (byteOf q[c] 1) (byteOf q[c] 2) (byteOf q[c] 3) r ∧
    byteOf (setBlk (invMixColumns .columnMajor (blk q)))[c] r.val =
      invMixColumn (byteOf q[c] 0) (byteOf q[c] 1) (byteOf q[c] 2) (byteOf q[c] 3) r)

/-- R267: the laws of the stages, in every SBOX_VARIANT and STATE_LAYOUT. -/
def Obligations.StageLaws : Prop :=
  ∀ (l : Config.StateLayout) (v : Config.SboxVariant) (rk : RoundKeys) (g : Fin 11),
    (∀ B, addRoundKey rk g (addRoundKey rk g B) = B) ∧
    (∀ B, invSubBytes (invTable v) (subBytes (fwdTable v) B) = B ∧ subBytes (fwdTable v) (invSubBytes (invTable v) B) = B) ∧
    (∀ B, invShiftRows l (shiftRows l B) = B ∧ shiftRows l (invShiftRows l B) = B) ∧
    (∀ B, invMixColumns l (mixColumns l B) = B ∧ mixColumns l (invMixColumns l B) = B) ∧
    (∀ B, subBytes (fwdTable v) (shiftRows l B) = shiftRows l (subBytes (fwdTable v) B) ∧
      invSubBytes (invTable v) (invShiftRows l B) = invShiftRows l (invSubBytes (invTable v) B)) ∧
    (∀ A B, mixColumns l (xorBlock A B) = xorBlock (mixColumns l A) (mixColumns l B) ∧
      invMixColumns l (xorBlock A B) = xorBlock (invMixColumns l A) (invMixColumns l B) ∧
      shiftRows l (xorBlock A B) = xorBlock (shiftRows l A) (shiftRows l B) ∧
      invShiftRows l (xorBlock A B) = xorBlock (invShiftRows l A) (invShiftRows l B)) ∧
    (∃ K, ∀ B, addRoundKey rk g B = xorBlock B K) ∧
    (∃ A B C, subBytes (fwdTable v) (xorBlock A (xorBlock B C)) ≠
      xorBlock (subBytes (fwdTable v) A) (xorBlock (subBytes (fwdTable v) B) (subBytes (fwdTable v) C))) ∧
    (∃ A B C, invSubBytes (invTable v) (xorBlock A (xorBlock B C)) ≠
      xorBlock (invSubBytes (invTable v) A) (xorBlock (invSubBytes (invTable v) B) (invSubBytes (invTable v) C)))

/-- R292: decryption undoes encryption and encryption undoes decryption, for every block, every RK contents, every
SBOX_VARIANT and STATE_LAYOUT. -/
def Obligations.PipelinesUndoEachOther : Prop :=
  ∀ (l : Config.StateLayout) (v : Config.SboxVariant) (rk : RoundKeys) (B : Block),
    invCipher l (invTable v) rk (cipher l (fwdTable v) rk B) = B ∧
    cipher l (fwdTable v) rk (invCipher l (invTable v) rk B) = B

/-- R296, R297 and R227: each pipeline's schedule has 40 micro-steps and leaves in X what the pipeline computes, and the words in
WORK at the end of the key schedule are the round keys. How WORK is laid out is the model's own (log 3). -/
def Obligations.SchedulesComputeThePipelines : Prop :=
  encryptStages.length = 40 ∧ decryptStages.length = 40 ∧
  (∀ l sbox isbox rk (w : Work) (B : Block),
    (runStages l sbox isbox rk (loadWork B w) encryptStages).x = cipher l sbox rk B ∧
    (runStages l sbox isbox rk (loadWork B w) encryptStages).stage = 40 ∧
    (runStages l sbox isbox rk (loadWork B w) decryptStages).x = invCipher l isbox rk B ∧
    (runStages l sbox isbox rk (loadWork B w) decryptStages).stage = 40) ∧
  (∀ sbox key (w : Work), (keyWork sbox key 40 w).words = expand sbox key ∧
    (keyWork sbox key 40 w).running = (expand sbox key)[43])

/-- R299: with KEY_READY = 1 and nothing in progress, the 40 stage commands, each followed by WAIT, leave in STATE what ENCRYPT
followed by WAIT leaves, and the same for DECRYPT. -/
def Obligations.StageCommandsEqualThePipelines : Prop :=
  ∀ s : State, notBusy s → s.phase = .idle → s.status.keyReady = true →
    (∃ t u, issueAll encryptStageCommands s = .next t ∧ issueAndWait (.encrypt 0 0 0) s = .next u ∧ t.block = u.block ∧
      t.status = u.status ∧ t.rk = u.rk) ∧
    (∃ t u, issueAll decryptStageCommands s = .next t ∧ issueAndWait (.decrypt 0 0 0) s = .next u ∧ t.block = u.block ∧
      t.status = u.status ∧ t.rk = u.rk)

/-! ### The two agents (10_state.md R52, 20_memory.md R96, 70_reset_and_hazards.md R412) -/

/-- R52: while BUSY = 1 the host learns nothing of the data: two busy states that agree on STATUS, ERR_CAUSE, the reset input and
the host's side, and differ in anything else, give the host the same reads over every host step up to the completion. -/
def Obligations.NothingIsObservedBeforeCompletion : Prop :=
  ∀ (n : Nat) (s t : State), s.status.busy = true → sameWhileBusy s t → s.host = t.host → s.reads = t.reads →
    s.delay = t.delay → n ≤ s.delay → noResetEdge (s.host.take n) →
    ∃ s' t', Host.Core.run core n s = .next s' ∧ Host.Core.run core n t = .next t' ∧ s'.reads = t'.reads ∧
      sameWhileBusy s' t' ∧ s'.host = t'.host

/-- R412: whatever is in progress completes after finitely many steps while reset is not asserted: exactly the period's host
steps and then the core step (log 1). -/
def Obligations.EveryBusyPeriodEnds : Prop :=
  ∀ s : State, Inv s → s.resetActive = false → s.status.busy = true → noResetEdge (s.host.take s.delay) →
    ∃ t, Host.Core.run core (s.delay + 1) s = .next t ∧ t.status.busy = false

/-- R139: a WAIT ends after finitely many steps, with BUSY = 0 and the rest of the host's program next. -/
def Obligations.WaitEnds : Prop :=
  ∀ (s : State) (rest : List HostAct), Inv s → s.resetActive = false → s.host = .wait :: rest →
    ∃ n t, n ≤ s.delay + 2 ∧ Host.Core.run core n s = .next t ∧ t.host = rest ∧ t.status.busy = false

/-- R370: a write to STATEk that meets a completion is admitted in both orders: if the completion comes first the write is stored
over the command's result, if the write comes first it is dropped with BUSY and the command's result stands (log 1). -/
def Obligations.WriteAndCompletionInBothOrders : Prop :=
  ∀ (i : Instr) (s t : State) (k : Fin 4) (v : Word) (rest : List HostAct), s.resetActive = false → isRunning s →
    decode s.cur = .ok i → exec i s = .next t → s.host = .wr (0x030 + 4 * k.val) v :: rest →
    (∃ u, Host.Core.run core 2 { s with delay := 0 } = .next u ∧ u.block = t.block.set k v ∧ u.status = t.status ∧
      u.errCause = t.errCause) ∧
    (∃ u, Host.Core.run core 2 { s with delay := 1 } = .next u ∧ u.block = t.block ∧
      u.status = { t.status with err := true } ∧ u.errCause = if s.status.err then s.errCause else 2)

/-! ### Host procedures (48_host_procedures.md) -/

/-- The padding codec and key normalisation, by their bytes. PAD appends p = 16 - (L mod 16) bytes of value p, so that the
length is a positive multiple of 16 and the last byte is p. UNPAD takes off p bytes of value p, p in 1..16, wherever the data
ends in them (so it undoes PAD), and returns the data unmodified in every other case: no data, a last byte p outside 1..16,
fewer than p bytes, or one of the last p bytes not equal to p. NORMKEY gives 16 bytes: byte n of the key, or 0 past its end.
DECRYPT_MSG fails before any access exactly on lengths that are no positive multiple of 16. -/
def Obligations.HostPaddingAndKeys : Prop :=
  (∀ m : List Byte,
    pad m = m ++ List.replicate (16 - m.length % 16) (BitVec.ofNat 8 (16 - m.length % 16)) ∧
    (pad m).length % 16 = 0 ∧ m.length < (pad m).length ∧ (pad m).length ≤ m.length + 16 ∧
    (pad m).getLast? = some (BitVec.ofNat 8 (16 - m.length % 16)) ∧ unpad (pad m) = m) ∧
  (∀ (m : List Byte) (p : Byte), 1 ≤ p.toNat → p.toNat ≤ 16 → unpad (m ++ List.replicate p.toNat p) = m) ∧
  unpad [] = [] ∧
  (∀ (m : List Byte) (p : Byte), (p.toNat = 0 ∨ 16 < p.toNat) → unpad (m ++ [p]) = m ++ [p]) ∧
  (∀ (m : List Byte) (p : Byte), (m ++ [p]).length < p.toNat → unpad (m ++ [p]) = m ++ [p]) ∧
  (∀ (m : List Byte) (p b : Byte) (rest : List Byte), b ≠ p → (b :: rest).length < p.toNat →
    unpad (m ++ b :: rest ++ [p]) = m ++ b :: rest ++ [p]) ∧
  (∀ k : List Byte, (normKey k).length = 16 ∧
    ∀ n, n < 16 → (normKey k)[n]? = some (if h : n < k.length then k[n] else 0)) ∧
  (∀ c : List Byte, decryptMsg c = .error .invalidCiphertextLength ↔ (c.length = 0 ∨ c.length % 16 ≠ 0))

/-- R327 on bytes: decrypting the encryption of a padded message and unpadding gives the message, for every key and message. -/
def Obligations.MessageRoundTrip : Prop :=
  ∀ (key : Quad) (m : List Byte), unpad (invCipherBytes key (cipherBytes key (pad m))) = m
end

