-- ==== Sys2Proof/Laws/Block.lean ====
section
/-! SUPPORT. Bytes of words, the block in four words, the state matrix, and each stage byte by byte. -/

namespace Sys2Proof.Machine

@[simp] theorem byteOf_wordOf_0 (b0 b1 b2 b3 : Byte) : byteOf (wordOf b0 b1 b2 b3) 0 = b0 := by
  apply BitVec.eq_of_getLsbD_eq
  intro k hk
  have h1 : ¬ 24 + k < 8 := by omega
  have h2 : ¬ 24 + k - 8 < 8 := by omega
  have h3 : ¬ 24 + k - 8 - 8 < 8 := by omega
  have h4 : 24 + k - 8 - 8 - 8 = k := by omega
  simp only [byteOf, wordOf, BitVec.getLsbD_extractLsb', BitVec.getLsbD_append, h1, h2, h3, h4]
  simp [hk]

@[simp] theorem byteOf_wordOf_1 (b0 b1 b2 b3 : Byte) : byteOf (wordOf b0 b1 b2 b3) 1 = b1 := by
  apply BitVec.eq_of_getLsbD_eq
  intro k hk
  have h1 : ¬ 16 + k < 8 := by omega
  have h2 : ¬ 16 + k - 8 < 8 := by omega
  have h3 : 16 + k - 8 - 8 = k := by omega
  simp only [byteOf, wordOf, BitVec.getLsbD_extractLsb', BitVec.getLsbD_append, h1, h2, h3]
  simp [hk]

@[simp] theorem byteOf_wordOf_2 (b0 b1 b2 b3 : Byte) : byteOf (wordOf b0 b1 b2 b3) 2 = b2 := by
  apply BitVec.eq_of_getLsbD_eq
  intro k hk
  have h1 : ¬ 8 + k < 8 := by omega
  have h2 : 8 + k - 8 = k := by omega
  simp only [byteOf, wordOf, BitVec.getLsbD_extractLsb', BitVec.getLsbD_append, h1, h2]
  simp [hk]

@[simp] theorem byteOf_wordOf_3 (b0 b1 b2 b3 : Byte) : byteOf (wordOf b0 b1 b2 b3) 3 = b3 := by
  apply BitVec.eq_of_getLsbD_eq
  intro k hk
  simp only [byteOf, wordOf, BitVec.getLsbD_extractLsb', BitVec.getLsbD_append]
  simp [hk]

/-- A word is its four bytes (R17). -/
@[simp] theorem wordOf_byteOf (w : Word) : wordOf (byteOf w 0) (byteOf w 1) (byteOf w 2) (byteOf w 3) = w := by
  apply BitVec.eq_of_getLsbD_eq
  intro k hk
  simp only [byteOf, wordOf, BitVec.getLsbD_append, BitVec.getLsbD_extractLsb']
  split
  · simp [*]
  · split
    · simp only [*, decide_true, Bool.true_and]; congr 1; omega
    · split
      · simp only [*, decide_true, Bool.true_and]; congr 1; omega
      · have : k - 8 - 8 - 8 < 8 := by omega
        simp only [this, decide_true, Bool.true_and]; congr 1; omega

/-- Two words with the same four bytes are the same word. -/
theorem word_ext_bytes {v w : Word} (h : ∀ j < 4, byteOf v j = byteOf w j) : v = w := by
  rw [← wordOf_byteOf v, ← wordOf_byteOf w, h 0 (by omega), h 1 (by omega), h 2 (by omega), h 3 (by omega)]

@[simp] theorem byteOf_xor (v w : Word) (j : Nat) : byteOf (v ^^^ w) j = byteOf v j ^^^ byteOf w j := by
  apply BitVec.eq_of_getLsbD_eq
  intro k hk
  simp [byteOf, hk]

theorem blk_getElem (q : Quad) (n : Nat) (h : n < 16) : (blk q)[n] = byteOf (q[n / 4]'(by omega)) (n % 4) := by
  simp [blk]

theorem setBlk_getElem (b : Block) (k : Nat) (h : k < 4) :
    (setBlk b)[k] = wordOf b[4 * k] b[4 * k + 1] b[4 * k + 2] b[4 * k + 3] := by
  simp [setBlk]

/-- Writing a block back and reading it gives it (R250). -/
@[simp] theorem blk_setBlk (b : Block) : blk (setBlk b) = b := by
  apply Vector.ext
  intro n hn
  rw [blk_getElem _ _ hn, setBlk_getElem]
  have hcases : n % 4 = 0 ∨ n % 4 = 1 ∨ n % 4 = 2 ∨ n % 4 = 3 := by omega
  rcases hcases with h | h | h | h <;> rw [h] <;> simp only [byteOf_wordOf_0, byteOf_wordOf_1, byteOf_wordOf_2,
    byteOf_wordOf_3] <;> congr 1 <;> omega

/-- Reading the block of four words and writing it back gives the words (R250). -/
@[simp] theorem setBlk_blk (q : Quad) : setBlk (blk q) = q := by
  apply Vector.ext
  intro k hk
  rw [setBlk_getElem _ _ hk, blk_getElem, blk_getElem, blk_getElem, blk_getElem]
  have e0 : 4 * k / 4 = k := by omega
  have e1 : (4 * k + 1) / 4 = k := by omega
  have e2 : (4 * k + 2) / 4 = k := by omega
  have e3 : (4 * k + 3) / 4 = k := by omega
  have m0 : 4 * k % 4 = 0 := by omega
  have m1 : (4 * k + 1) % 4 = 1 := by omega
  have m2 : (4 * k + 2) % 4 = 2 := by omega
  have m3 : (4 * k + 3) % 4 = 3 := by omega
  simp only [e0, e1, e2, e3, m0, m1, m2, m3, wordOf_byteOf]

/-- Applying two block functions one after the other (R250). -/
theorem setBlk_comp (f g : Block → Block) (q : Quad) : setBlk (g (blk (setBlk (f (blk q))))) = setBlk (g (f (blk q))) := by
  simp

@[simp] theorem rowOf_pos (l : Config.StateLayout) (r c : Fin 4) : rowOf l (pos l r c) = r := by
  cases l <;> simp only [rowOf, pos, Fin.ext_iff] <;> omega

@[simp] theorem colOf_pos (l : Config.StateLayout) (r c : Fin 4) : colOf l (pos l r c) = c := by
  cases l <;> simp only [colOf, pos, Fin.ext_iff] <;> omega

@[simp] theorem pos_rowOf_colOf (l : Config.StateLayout) (n : Fin 16) : pos l (rowOf l n) (colOf l n) = n := by
  cases l <;> simp only [rowOf, colOf, pos, Fin.ext_iff] <;> omega

/-- The matrix of the block made from a matrix is that matrix (R250). -/
@[simp] theorem elem_ofMatrix (l : Config.StateLayout) (s : Fin 4 → Fin 4 → Byte) (r c : Fin 4) :
    elem l (ofMatrix l s) r c = s r c := by
  simp [elem, ofMatrix]

/-- A block is the block of its matrix (R44). -/
@[simp] theorem ofMatrix_elem (l : Config.StateLayout) (b : Block) : ofMatrix l (elem l b) = b := by
  apply Vector.ext
  intro n hn
  simp [ofMatrix, elem]

/-- Two blocks with the same matrix are the same block (R44). -/
theorem block_ext_elem (l : Config.StateLayout) {a b : Block} (h : ∀ r c, elem l a r c = elem l b r c) : a = b := by
  rw [← ofMatrix_elem l a, ← ofMatrix_elem l b]
  congr 1
  funext r c
  exact h r c

@[simp] theorem addRoundKey_getElem (rk : RoundKeys) (g : Fin 11) (b : Block) (n : Nat) (h : n < 16) :
    (addRoundKey rk g b)[n] = b[n] ^^^ rkByte rk g ⟨n, h⟩ := by simp [addRoundKey]

@[simp] theorem subBytes_getElem (t : Table) (b : Block) (n : Nat) (h : n < 16) :
    (subBytes t b)[n] = lookup t b[n] := by simp [subBytes]

@[simp] theorem invSubBytes_getElem (t : Table) (b : Block) (n : Nat) (h : n < 16) :
    (invSubBytes t b)[n] = lookup t b[n] := by simp [invSubBytes]

@[simp] theorem elem_subBytes (l : Config.StateLayout) (t : Table) (b : Block) (r c : Fin 4) :
    elem l (subBytes t b) r c = lookup t (elem l b r c) := by simp [elem, subBytes]

@[simp] theorem elem_invSubBytes (l : Config.StateLayout) (t : Table) (b : Block) (r c : Fin 4) :
    elem l (invSubBytes t b) r c = lookup t (elem l b r c) := by simp [elem, invSubBytes]

@[simp] theorem elem_shiftRows (l : Config.StateLayout) (b : Block) (r c : Fin 4) :
    elem l (shiftRows l b) r c = elem l b r (c + r) := by simp [shiftRows]

@[simp] theorem elem_invShiftRows (l : Config.StateLayout) (b : Block) (r c : Fin 4) :
    elem l (invShiftRows l b) r c = elem l b r (c - r) := by simp [invShiftRows]

@[simp] theorem elem_mixColumns (l : Config.StateLayout) (b : Block) (r c : Fin 4) :
    elem l (mixColumns l b) r c = mixColumn (elem l b 0 c) (elem l b 1 c) (elem l b 2 c) (elem l b 3 c) r := by
  simp [mixColumns]

@[simp] theorem elem_invMixColumns (l : Config.StateLayout) (b : Block) (r c : Fin 4) :
    elem l (invMixColumns l b) r c = invMixColumn (elem l b 0 c) (elem l b 1 c) (elem l b 2 c) (elem l b 3 c) r := by
  simp [invMixColumns]

end Sys2Proof.Machine
end

