-- ==== Sys2Proof/Laws/Encoding.lean ====
section
/-! SUPPORT. The fields of a word written from its fields (30_encoding.md R120). -/

namespace Sys2Proof

/-- A command word from its fields: `{b, a, rsv, rnd, opc}` (R120). -/
def cmdWord (b a : Byte) (rsv rnd : BitVec 4) (opc : Byte) : Word := b ++ a ++ rsv ++ rnd ++ opc

theorem encode_eq_cmdWord (i : Instr) : encode i = cmdWord i.opb i.opa 0 i.rnd i.opcode := rfl

@[simp] theorem fieldOpc_cmdWord (b a : Byte) (rsv rnd : BitVec 4) (opc : Byte) :
    fieldOpc (cmdWord b a rsv rnd opc) = opc := by
  apply BitVec.eq_of_getLsbD_eq
  intro k hk
  simp only [fieldOpc, cmdWord, BitVec.getLsbD_extractLsb', BitVec.getLsbD_append]
  simp [hk]

@[simp] theorem fieldRnd_cmdWord (b a : Byte) (rsv rnd : BitVec 4) (opc : Byte) :
    fieldRnd (cmdWord b a rsv rnd opc) = rnd := by
  apply BitVec.eq_of_getLsbD_eq
  intro k hk
  have h1 : ¬ 8 + k < 8 := by omega
  have h2 : 8 + k - 8 = k := by omega
  simp only [fieldRnd, cmdWord, BitVec.getLsbD_extractLsb', BitVec.getLsbD_append, h1, h2]
  simp [hk]

@[simp] theorem fieldRsv_cmdWord (b a : Byte) (rsv rnd : BitVec 4) (opc : Byte) :
    fieldRsv (cmdWord b a rsv rnd opc) = rsv := by
  apply BitVec.eq_of_getLsbD_eq
  intro k hk
  have h1 : ¬ 12 + k < 8 := by omega
  have h2 : ¬ 12 + k - 8 < 4 := by omega
  have h3 : 12 + k - 8 - 4 = k := by omega
  simp only [fieldRsv, cmdWord, BitVec.getLsbD_extractLsb', BitVec.getLsbD_append, h1, h2, h3]
  simp [hk]

@[simp] theorem fieldOpa_cmdWord (b a : Byte) (rsv rnd : BitVec 4) (opc : Byte) :
    fieldOpa (cmdWord b a rsv rnd opc) = a := by
  apply BitVec.eq_of_getLsbD_eq
  intro k hk
  have h1 : ¬ 16 + k < 8 := by omega
  have h2 : ¬ 16 + k - 8 < 4 := by omega
  have h3 : ¬ 16 + k - 8 - 4 < 4 := by omega
  have h4 : 16 + k - 8 - 4 - 4 = k := by omega
  simp only [fieldOpa, cmdWord, BitVec.getLsbD_extractLsb', BitVec.getLsbD_append, h1, h2, h3, h4]
  simp [hk]

@[simp] theorem fieldOpb_cmdWord (b a : Byte) (rsv rnd : BitVec 4) (opc : Byte) :
    fieldOpb (cmdWord b a rsv rnd opc) = b := by
  apply BitVec.eq_of_getLsbD_eq
  intro k hk
  have h1 : ¬ 24 + k < 8 := by omega
  have h2 : ¬ 24 + k - 8 < 4 := by omega
  have h3 : ¬ 24 + k - 8 - 4 < 4 := by omega
  have h4 : ¬ 24 + k - 8 - 4 - 4 < 8 := by omega
  have h5 : 24 + k - 8 - 4 - 4 - 8 = k := by omega
  simp only [fieldOpb, cmdWord, BitVec.getLsbD_extractLsb', BitVec.getLsbD_append, h1, h2, h3, h4, h5]
  simp [hk]

/-- Two words with the same five fields are the same word. -/
theorem word_ext_fields {v w : Word} (h1 : fieldOpc v = fieldOpc w) (h2 : fieldRnd v = fieldRnd w)
    (h3 : fieldRsv v = fieldRsv w) (h4 : fieldOpa v = fieldOpa w) (h5 : fieldOpb v = fieldOpb w) : v = w := by
  have split (u : Word) : u = cmdWord (fieldOpb u) (fieldOpa u) (fieldRsv u) (fieldRnd u) (fieldOpc u) := by
    apply BitVec.eq_of_getLsbD_eq
    intro k hk
    simp only [cmdWord, fieldOpc, fieldRnd, fieldRsv, fieldOpa, fieldOpb, BitVec.getLsbD_append,
      BitVec.getLsbD_extractLsb']
    split
    · simp [*]
    · split
      · simp only [*, decide_true, Bool.true_and]; congr 1; omega
      · split
        · simp only [*, decide_true, Bool.true_and]; congr 1; omega
        · split
          · simp only [*, decide_true, Bool.true_and]; congr 1; omega
          · have : k - 8 - 4 - 4 - 8 < 8 := by omega
            simp only [this, decide_true, Bool.true_and]; congr 1; omega
  rw [split v, split w, h1, h2, h3, h4, h5]

end Sys2Proof
end

