-- ==== Sys2Proof/Laws/Field.lean ====
section
/-! SUPPORT. The multiply loop is linear in each factor (40_field_arithmetic.md R161). -/

namespace Sys2Proof.Machine

theorem xor_left_comm {w : Nat} (a b c : BitVec w) : a ^^^ (b ^^^ c) = b ^^^ (a ^^^ c) := by
  rw [← BitVec.xor_assoc, BitVec.xor_comm a b, BitVec.xor_assoc]

@[simp] theorem xor_self_left {w : Nat} (a b : BitVec w) : a ^^^ (a ^^^ b) = b := by
  rw [← BitVec.xor_assoc, BitVec.xor_self, BitVec.zero_xor]

/-- The loop's step of `a` (R161, R164). -/
theorem shiftFold_xor (a a' : Byte) :
    (if (a ^^^ a').getLsbD 7 then ((a ^^^ a') <<< 1) ^^^ 0x1B#8 else (a ^^^ a') <<< 1) =
      (if a.getLsbD 7 then (a <<< 1) ^^^ 0x1B#8 else a <<< 1) ^^^
        (if a'.getLsbD 7 then (a' <<< 1) ^^^ 0x1B#8 else a' <<< 1) := by
  rw [BitVec.shiftLeft_xor_distrib, BitVec.getLsbD_xor]
  cases a.getLsbD 7 <;> cases a'.getLsbD 7 <;> simp [BitVec.xor_assoc, BitVec.xor_comm, xor_left_comm]

theorem gmulLoop_xor_left (n : Nat) (a a' b p p' : Byte) :
    gmulLoop n (a ^^^ a') b (p ^^^ p') = gmulLoop n a b p ^^^ gmulLoop n a' b p' := by
  induction n generalizing a a' b p p' with
  | zero => rfl
  | succ n ih =>
    simp only [gmulLoop, shiftFold_xor]
    rw [← ih]
    congr 1
    cases b.getLsbD 0 <;> simp [BitVec.xor_comm, xor_left_comm]

theorem gmulLoop_xor_right (n : Nat) (a b b' p p' : Byte) :
    gmulLoop n a (b ^^^ b') (p ^^^ p') = gmulLoop n a b p ^^^ gmulLoop n a b' p' := by
  induction n generalizing a b b' p p' with
  | zero => rfl
  | succ n ih =>
    simp only [gmulLoop, BitVec.ushiftRight_xor_distrib, BitVec.getLsbD_xor]
    rw [← ih]
    congr 1
    cases b.getLsbD 0 <;> cases b'.getLsbD 0 <;> simp [BitVec.xor_comm, xor_left_comm]

theorem gmulLoop_zero_left (n : Nat) (b p : Byte) : gmulLoop n 0 b p = p := by
  induction n generalizing b p with
  | zero => rfl
  | succ n ih => simpa [gmulLoop] using ih (b >>> 1) p

theorem gmulLoop_zero_right (n : Nat) (a p : Byte) : gmulLoop n a 0 p = p := by
  induction n generalizing a p with
  | zero => rfl
  | succ n ih => simpa [gmulLoop] using ih _ p

/-- The multiply distributes over XOR in its first factor. -/
theorem gmul_distrib_left (a a' b : Byte) : gmul (a ^^^ a') b = gmul a b ^^^ gmul a' b := by
  simpa [gmul] using gmulLoop_xor_left 8 a a' b 0 0

/-- The multiply distributes over XOR in its second factor. -/
theorem gmul_distrib_right (a b b' : Byte) : gmul a (b ^^^ b') = gmul a b ^^^ gmul a b' := by
  simpa [gmul] using gmulLoop_xor_right 8 a b b' 0 0

@[simp] theorem gmul_zero_left (b : Byte) : gmul 0 b = 0 := gmulLoop_zero_left 8 b 0

@[simp] theorem gmul_zero_right (a : Byte) : gmul a 0 = 0 := gmulLoop_zero_right 8 a 0

/-- A statement about every byte that a computation over Fin 256 decides. -/
theorem byte_forall {P : Byte → Prop} (h : ∀ i : Fin 256, P (BitVec.ofFin i)) (x : Byte) : P x := h x.toFin

end Sys2Proof.Machine
end

