-- ==== Sys2Proof/Laws/KeySchedule.lean ====
section
/-! SUPPORT. The key expansion, word by word (42_key_schedule.md R223, R224). -/

namespace Sys2Proof.Machine

/-- A micro-step writes one word (R224, R227). -/
theorem keyStep_getElem (sbox : Table) (i : Nat) (w : RoundKeys) (j : Nat) (hj : j < 44) :
    (keyStep sbox i w)[j] =
      if i = j then keyTemp sbox i (w.getD (i - 1) 0) ^^^ w.getD (i - 4) 0 else w[j] := by
  simp [keyStep, Vector.getElem_setIfInBounds]

/-- Words past the last micro-step are as before. -/
theorem keySteps_getElem_above (sbox : Table) (n : Nat) (w : RoundKeys) (j : Nat) (hj : j < 44) (h : n + 4 ≤ j) :
    (keySteps sbox n w)[j] = w[j] := by
  induction n with
  | zero => rfl
  | succ n ih =>
    rw [keySteps, keyStep_getElem, if_neg (by omega)]
    exact ih (by omega)

/-- A word below the micro-steps' range is the initial word (R223). -/
theorem keySteps_getElem_initial (sbox : Table) (n : Nat) (w : RoundKeys) (j : Nat) (hj : j < 4) :
    (keySteps sbox n w)[j] = w[j] := by
  induction n with
  | zero => rfl
  | succ n ih => rw [keySteps, keyStep_getElem, if_neg (by omega)]; exact ih

/-- A word that is written is not written again. -/
theorem keySteps_getElem_stable (sbox : Table) (m n : Nat) (w : RoundKeys) (j : Nat) (hj : j < 44) (h : j < m + 4)
    (hmn : m ≤ n) : (keySteps sbox n w)[j] = (keySteps sbox m w)[j] := by
  induction n with
  | zero => have : m = 0 := by omega
            subst this; rfl
  | succ n ih =>
    by_cases hm : m = n + 1
    · subst hm; rfl
    · rw [keySteps, keyStep_getElem, if_neg (by omega)]
      exact ih (by omega)

theorem getD_eq {n : Nat} (w : Vector Word n) (j : Nat) (h : j < n) (d : Word) : w.getD j d = w[j] := by
  simp [Vector.getD, h]

end Sys2Proof.Machine
end

