-- ==== Sys2Proof/Laws/State.lean ====
section
/-! SUPPORT. One lemma per field for each update of State: what it writes and what it leaves. -/

namespace Sys2Proof.Machine

/-! ### Recording an error (R357) -/

@[simp] theorem raiseErr_resetActive (e : Err) (s : State) : (raiseErr e s).resetActive = s.resetActive := rfl
@[simp] theorem raiseErr_status (e : Err) (s : State) : (raiseErr e s).status = { s.status with err := true } := rfl
@[simp] theorem raiseErr_errCause (e : Err) (s : State) : (raiseErr e s).errCause = if s.status.err then s.errCause else errCode e := rfl
@[simp] theorem raiseErr_result (e : Err) (s : State) : (raiseErr e s).result = s.result := rfl
@[simp] theorem raiseErr_key (e : Err) (s : State) : (raiseErr e s).key = s.key := rfl
@[simp] theorem raiseErr_block (e : Err) (s : State) : (raiseErr e s).block = s.block := rfl
@[simp] theorem raiseErr_sbox (e : Err) (s : State) : (raiseErr e s).sbox = s.sbox := rfl
@[simp] theorem raiseErr_isbox (e : Err) (s : State) : (raiseErr e s).isbox = s.isbox := rfl
@[simp] theorem raiseErr_rk (e : Err) (s : State) : (raiseErr e s).rk = s.rk := rfl
@[simp] theorem raiseErr_phase (e : Err) (s : State) : (raiseErr e s).phase = s.phase := rfl
@[simp] theorem raiseErr_cur (e : Err) (s : State) : (raiseErr e s).cur = s.cur := rfl
@[simp] theorem raiseErr_work (e : Err) (s : State) : (raiseErr e s).work = s.work := rfl
@[simp] theorem raiseErr_host (e : Err) (s : State) : (raiseErr e s).host = s.host := rfl
@[simp] theorem raiseErr_reads (e : Err) (s : State) : (raiseErr e s).reads = s.reads := rfl
@[simp] theorem raiseErr_delay (e : Err) (s : State) : (raiseErr e s).delay = s.delay := rfl
@[simp] theorem raiseErr_draws (e : Err) (s : State) : (raiseErr e s).draws = s.draws := rfl

/-! ### Clearing the error record (R360) -/

@[simp] theorem clearErr_resetActive (s : State) : (clearErr s).resetActive = s.resetActive := rfl
@[simp] theorem clearErr_status (s : State) : (clearErr s).status = { s.status with err := false } := rfl
@[simp] theorem clearErr_errCause (s : State) : (clearErr s).errCause = 0 := rfl
@[simp] theorem clearErr_result (s : State) : (clearErr s).result = s.result := rfl
@[simp] theorem clearErr_key (s : State) : (clearErr s).key = s.key := rfl
@[simp] theorem clearErr_block (s : State) : (clearErr s).block = s.block := rfl
@[simp] theorem clearErr_sbox (s : State) : (clearErr s).sbox = s.sbox := rfl
@[simp] theorem clearErr_isbox (s : State) : (clearErr s).isbox = s.isbox := rfl
@[simp] theorem clearErr_rk (s : State) : (clearErr s).rk = s.rk := rfl
@[simp] theorem clearErr_phase (s : State) : (clearErr s).phase = s.phase := rfl
@[simp] theorem clearErr_cur (s : State) : (clearErr s).cur = s.cur := rfl
@[simp] theorem clearErr_work (s : State) : (clearErr s).work = s.work := rfl
@[simp] theorem clearErr_host (s : State) : (clearErr s).host = s.host := rfl
@[simp] theorem clearErr_reads (s : State) : (clearErr s).reads = s.reads := rfl
@[simp] theorem clearErr_delay (s : State) : (clearErr s).delay = s.delay := rfl
@[simp] theorem clearErr_draws (s : State) : (clearErr s).draws = s.draws := rfl

/-! ### Acceptance (R359) -/

@[simp] theorem accept_resetActive (v : Word) (s : State) : (accept v s).resetActive = s.resetActive := rfl
@[simp] theorem accept_status (v : Word) (s : State) : (accept v s).status = { s.status with busy := true } := rfl
@[simp] theorem accept_errCause (v : Word) (s : State) : (accept v s).errCause = s.errCause := rfl
@[simp] theorem accept_result (v : Word) (s : State) : (accept v s).result = s.result := rfl
@[simp] theorem accept_key (v : Word) (s : State) : (accept v s).key = s.key := rfl
@[simp] theorem accept_block (v : Word) (s : State) : (accept v s).block = s.block := rfl
@[simp] theorem accept_sbox (v : Word) (s : State) : (accept v s).sbox = s.sbox := rfl
@[simp] theorem accept_isbox (v : Word) (s : State) : (accept v s).isbox = s.isbox := rfl
@[simp] theorem accept_rk (v : Word) (s : State) : (accept v s).rk = s.rk := rfl
@[simp] theorem accept_phase (v : Word) (s : State) : (accept v s).phase = .run := rfl
@[simp] theorem accept_cur (v : Word) (s : State) : (accept v s).cur = v := rfl
@[simp] theorem accept_work (v : Word) (s : State) : (accept v s).work = s.work := rfl
@[simp] theorem accept_host (v : Word) (s : State) : (accept v s).host = s.host := rfl
@[simp] theorem accept_reads (v : Word) (s : State) : (accept v s).reads = s.reads := rfl
@[simp] theorem accept_delay (v : Word) (s : State) : (accept v s).delay = Config.latency s.draws := rfl
@[simp] theorem accept_draws (v : Word) (s : State) : (accept v s).draws = s.draws + 1 := rfl

/-! ### The end of a completion (R96) -/

@[simp] theorem finish_resetActive (s : State) : (finish s).resetActive = s.resetActive := rfl
@[simp] theorem finish_status (s : State) : (finish s).status = { s.status with busy := false } := rfl
@[simp] theorem finish_errCause (s : State) : (finish s).errCause = s.errCause := rfl
@[simp] theorem finish_result (s : State) : (finish s).result = s.result := rfl
@[simp] theorem finish_key (s : State) : (finish s).key = s.key := rfl
@[simp] theorem finish_block (s : State) : (finish s).block = s.block := rfl
@[simp] theorem finish_sbox (s : State) : (finish s).sbox = s.sbox := rfl
@[simp] theorem finish_isbox (s : State) : (finish s).isbox = s.isbox := rfl
@[simp] theorem finish_rk (s : State) : (finish s).rk = s.rk := rfl
@[simp] theorem finish_phase (s : State) : (finish s).phase = .idle := rfl
@[simp] theorem finish_cur (s : State) : (finish s).cur = s.cur := rfl
@[simp] theorem finish_work (s : State) : (finish s).work = s.work := rfl
@[simp] theorem finish_host (s : State) : (finish s).host = s.host := rfl
@[simp] theorem finish_reads (s : State) : (finish s).reads = s.reads := rfl
@[simp] theorem finish_delay (s : State) : (finish s).delay = s.delay := rfl
@[simp] theorem finish_draws (s : State) : (finish s).draws = s.draws := rfl

/-! ### A block function applied to STATE (R250) -/

@[simp] theorem mapBlock_resetActive (f : Block → Block) (s : State) : (mapBlock f s).resetActive = s.resetActive := rfl
@[simp] theorem mapBlock_status (f : Block → Block) (s : State) : (mapBlock f s).status = s.status := rfl
@[simp] theorem mapBlock_errCause (f : Block → Block) (s : State) : (mapBlock f s).errCause = s.errCause := rfl
@[simp] theorem mapBlock_result (f : Block → Block) (s : State) : (mapBlock f s).result = s.result := rfl
@[simp] theorem mapBlock_key (f : Block → Block) (s : State) : (mapBlock f s).key = s.key := rfl
@[simp] theorem mapBlock_block (f : Block → Block) (s : State) : (mapBlock f s).block = setBlk (f (blk s.block)) := rfl
@[simp] theorem mapBlock_sbox (f : Block → Block) (s : State) : (mapBlock f s).sbox = s.sbox := rfl
@[simp] theorem mapBlock_isbox (f : Block → Block) (s : State) : (mapBlock f s).isbox = s.isbox := rfl
@[simp] theorem mapBlock_rk (f : Block → Block) (s : State) : (mapBlock f s).rk = s.rk := rfl
@[simp] theorem mapBlock_phase (f : Block → Block) (s : State) : (mapBlock f s).phase = s.phase := rfl
@[simp] theorem mapBlock_cur (f : Block → Block) (s : State) : (mapBlock f s).cur = s.cur := rfl
@[simp] theorem mapBlock_work (f : Block → Block) (s : State) : (mapBlock f s).work = s.work := rfl
@[simp] theorem mapBlock_host (f : Block → Block) (s : State) : (mapBlock f s).host = s.host := rfl
@[simp] theorem mapBlock_reads (f : Block → Block) (s : State) : (mapBlock f s).reads = s.reads := rfl
@[simp] theorem mapBlock_delay (f : Block → Block) (s : State) : (mapBlock f s).delay = s.delay := rfl
@[simp] theorem mapBlock_draws (f : Block → Block) (s : State) : (mapBlock f s).draws = s.draws := rfl

/-! ### The init sequence (R196) -/

@[simp] theorem buildTables_resetActive (v : Config.SboxVariant) (s : State) : (buildTables v s).resetActive = s.resetActive := rfl
@[simp] theorem buildTables_status (v : Config.SboxVariant) (s : State) : (buildTables v s).status = { s.status with tablesReady := true } := rfl
@[simp] theorem buildTables_errCause (v : Config.SboxVariant) (s : State) : (buildTables v s).errCause = s.errCause := rfl
@[simp] theorem buildTables_result (v : Config.SboxVariant) (s : State) : (buildTables v s).result = s.result := rfl
@[simp] theorem buildTables_key (v : Config.SboxVariant) (s : State) : (buildTables v s).key = s.key := rfl
@[simp] theorem buildTables_block (v : Config.SboxVariant) (s : State) : (buildTables v s).block = s.block := rfl
@[simp] theorem buildTables_sbox (v : Config.SboxVariant) (s : State) : (buildTables v s).sbox = forwardPass v 256 s.sbox := rfl
@[simp] theorem buildTables_isbox (v : Config.SboxVariant) (s : State) : (buildTables v s).isbox = inversePass (forwardPass v 256 s.sbox) 256 s.isbox := rfl
@[simp] theorem buildTables_rk (v : Config.SboxVariant) (s : State) : (buildTables v s).rk = s.rk := rfl
@[simp] theorem buildTables_phase (v : Config.SboxVariant) (s : State) : (buildTables v s).phase = s.phase := rfl
@[simp] theorem buildTables_cur (v : Config.SboxVariant) (s : State) : (buildTables v s).cur = s.cur := rfl
@[simp] theorem buildTables_work (v : Config.SboxVariant) (s : State) : (buildTables v s).work = initWork s.work := rfl
@[simp] theorem buildTables_host (v : Config.SboxVariant) (s : State) : (buildTables v s).host = s.host := rfl
@[simp] theorem buildTables_reads (v : Config.SboxVariant) (s : State) : (buildTables v s).reads = s.reads := rfl
@[simp] theorem buildTables_delay (v : Config.SboxVariant) (s : State) : (buildTables v s).delay = s.delay := rfl
@[simp] theorem buildTables_draws (v : Config.SboxVariant) (s : State) : (buildTables v s).draws = s.draws := rfl

/-! ### Reset held (R400) -/

@[simp] theorem heldInReset_resetActive (s : State) : (heldInReset s).resetActive = true := rfl
@[simp] theorem heldInReset_status (s : State) : (heldInReset s).status = State.reset.status := rfl
@[simp] theorem heldInReset_errCause (s : State) : (heldInReset s).errCause = State.reset.errCause := rfl
@[simp] theorem heldInReset_result (s : State) : (heldInReset s).result = State.reset.result := rfl
@[simp] theorem heldInReset_key (s : State) : (heldInReset s).key = State.reset.key := rfl
@[simp] theorem heldInReset_block (s : State) : (heldInReset s).block = State.reset.block := rfl
@[simp] theorem heldInReset_sbox (s : State) : (heldInReset s).sbox = State.reset.sbox := rfl
@[simp] theorem heldInReset_isbox (s : State) : (heldInReset s).isbox = State.reset.isbox := rfl
@[simp] theorem heldInReset_rk (s : State) : (heldInReset s).rk = State.reset.rk := rfl
@[simp] theorem heldInReset_phase (s : State) : (heldInReset s).phase = State.reset.phase := rfl
@[simp] theorem heldInReset_cur (s : State) : (heldInReset s).cur = State.reset.cur := rfl
@[simp] theorem heldInReset_work (s : State) : (heldInReset s).work = State.reset.work := rfl
@[simp] theorem heldInReset_host (s : State) : (heldInReset s).host = s.host := rfl
@[simp] theorem heldInReset_reads (s : State) : (heldInReset s).reads = s.reads := rfl
@[simp] theorem heldInReset_delay (s : State) : (heldInReset s).delay = s.delay := rfl
@[simp] theorem heldInReset_draws (s : State) : (heldInReset s).draws = s.draws := rfl

/-! ### Taking the host's next act -/

@[simp] theorem popHost_resetActive (s : State) : (popHost s).resetActive = s.resetActive := rfl
@[simp] theorem popHost_status (s : State) : (popHost s).status = s.status := rfl
@[simp] theorem popHost_errCause (s : State) : (popHost s).errCause = s.errCause := rfl
@[simp] theorem popHost_result (s : State) : (popHost s).result = s.result := rfl
@[simp] theorem popHost_key (s : State) : (popHost s).key = s.key := rfl
@[simp] theorem popHost_block (s : State) : (popHost s).block = s.block := rfl
@[simp] theorem popHost_sbox (s : State) : (popHost s).sbox = s.sbox := rfl
@[simp] theorem popHost_isbox (s : State) : (popHost s).isbox = s.isbox := rfl
@[simp] theorem popHost_rk (s : State) : (popHost s).rk = s.rk := rfl
@[simp] theorem popHost_phase (s : State) : (popHost s).phase = s.phase := rfl
@[simp] theorem popHost_cur (s : State) : (popHost s).cur = s.cur := rfl
@[simp] theorem popHost_work (s : State) : (popHost s).work = s.work := rfl
@[simp] theorem popHost_host (s : State) : (popHost s).host = s.host.tail := rfl
@[simp] theorem popHost_reads (s : State) : (popHost s).reads = s.reads := rfl
@[simp] theorem popHost_delay (s : State) : (popHost s).delay = s.delay := rfl
@[simp] theorem popHost_draws (s : State) : (popHost s).draws = s.draws := rfl

/-! ### A command placed in CUR -/

@[simp] theorem withCommandInCur_resetActive (w : Word) (s : State) : (withCommandInCur w s).resetActive = false := rfl
@[simp] theorem withCommandInCur_status (w : Word) (s : State) : (withCommandInCur w s).status = { s.status with busy := true } := rfl
@[simp] theorem withCommandInCur_errCause (w : Word) (s : State) : (withCommandInCur w s).errCause = s.errCause := rfl
@[simp] theorem withCommandInCur_result (w : Word) (s : State) : (withCommandInCur w s).result = s.result := rfl
@[simp] theorem withCommandInCur_key (w : Word) (s : State) : (withCommandInCur w s).key = s.key := rfl
@[simp] theorem withCommandInCur_block (w : Word) (s : State) : (withCommandInCur w s).block = s.block := rfl
@[simp] theorem withCommandInCur_sbox (w : Word) (s : State) : (withCommandInCur w s).sbox = s.sbox := rfl
@[simp] theorem withCommandInCur_isbox (w : Word) (s : State) : (withCommandInCur w s).isbox = s.isbox := rfl
@[simp] theorem withCommandInCur_rk (w : Word) (s : State) : (withCommandInCur w s).rk = s.rk := rfl
@[simp] theorem withCommandInCur_phase (w : Word) (s : State) : (withCommandInCur w s).phase = .run := rfl
@[simp] theorem withCommandInCur_cur (w : Word) (s : State) : (withCommandInCur w s).cur = w := rfl
@[simp] theorem withCommandInCur_work (w : Word) (s : State) : (withCommandInCur w s).work = s.work := rfl
@[simp] theorem withCommandInCur_host (w : Word) (s : State) : (withCommandInCur w s).host = s.host := rfl
@[simp] theorem withCommandInCur_reads (w : Word) (s : State) : (withCommandInCur w s).reads = s.reads := rfl
@[simp] theorem withCommandInCur_delay (w : Word) (s : State) : (withCommandInCur w s).delay = 0 := rfl
@[simp] theorem withCommandInCur_draws (w : Word) (s : State) : (withCommandInCur w s).draws = s.draws := rfl

/-! ### A host step's place in the busy period -/

@[simp] theorem slotPassed_resetActive (s : State) : (slotPassed s).resetActive = s.resetActive := by unfold slotPassed; split <;> rfl
@[simp] theorem slotPassed_status (s : State) : (slotPassed s).status = s.status := by unfold slotPassed; split <;> rfl
@[simp] theorem slotPassed_errCause (s : State) : (slotPassed s).errCause = s.errCause := by unfold slotPassed; split <;> rfl
@[simp] theorem slotPassed_result (s : State) : (slotPassed s).result = s.result := by unfold slotPassed; split <;> rfl
@[simp] theorem slotPassed_key (s : State) : (slotPassed s).key = s.key := by unfold slotPassed; split <;> rfl
@[simp] theorem slotPassed_block (s : State) : (slotPassed s).block = s.block := by unfold slotPassed; split <;> rfl
@[simp] theorem slotPassed_sbox (s : State) : (slotPassed s).sbox = s.sbox := by unfold slotPassed; split <;> rfl
@[simp] theorem slotPassed_isbox (s : State) : (slotPassed s).isbox = s.isbox := by unfold slotPassed; split <;> rfl
@[simp] theorem slotPassed_rk (s : State) : (slotPassed s).rk = s.rk := by unfold slotPassed; split <;> rfl
@[simp] theorem slotPassed_phase (s : State) : (slotPassed s).phase = s.phase := by unfold slotPassed; split <;> rfl
@[simp] theorem slotPassed_cur (s : State) : (slotPassed s).cur = s.cur := by unfold slotPassed; split <;> rfl
@[simp] theorem slotPassed_work (s : State) : (slotPassed s).work = s.work := by unfold slotPassed; split <;> rfl
@[simp] theorem slotPassed_host (s : State) : (slotPassed s).host = s.host := by unfold slotPassed; split <;> rfl
@[simp] theorem slotPassed_reads (s : State) : (slotPassed s).reads = s.reads := by unfold slotPassed; split <;> rfl
@[simp] theorem slotPassed_draws (s : State) : (slotPassed s).draws = s.draws := by unfold slotPassed; split <;> rfl
theorem slotPassed_delay (s : State) : (slotPassed s).delay = if s.status.busy then s.delay - 1 else s.delay := by
  unfold slotPassed; split <;> rfl

theorem slotPassed_of_idle (s : State) (h : s.status.busy = false) : slotPassed s = s := by simp [slotPassed, h]

/-! ### State.reset (R57) -/

@[simp] theorem reset_resetActive : State.reset.resetActive = false := rfl
@[simp] theorem reset_status : State.reset.status = { busy := true, tablesReady := false, keyReady := false, err := false } := rfl
@[simp] theorem reset_errCause : State.reset.errCause = 0 := rfl
@[simp] theorem reset_result : State.reset.result = 0 := rfl
@[simp] theorem reset_phase : State.reset.phase = .init := rfl
@[simp] theorem reset_cur : State.reset.cur = 0 := rfl
@[simp] theorem reset_host : State.reset.host = [] := rfl
@[simp] theorem reset_reads : State.reset.reads = [] := rfl
@[simp] theorem reset_delay : State.reset.delay = Config.latency 0 := rfl
@[simp] theorem reset_draws : State.reset.draws = 1 := rfl

/-! ### Writes to the data and status registers -/

@[simp] theorem writeKey_idle (k : Fin 4) (v : Word) (s : State) (h : s.status.busy = false) :
    writeKey k v s = { s with key := s.key.set k v, status := { s.status with keyReady := false } } := by
  simp [writeKey, h]

@[simp] theorem writeKey_busy (k : Fin 4) (v : Word) (s : State) (h : s.status.busy = true) :
    writeKey k v s = raiseErr .busy s := by simp [writeKey, h]

@[simp] theorem writeBlock_idle (k : Fin 4) (v : Word) (s : State) (h : s.status.busy = false) :
    writeBlock k v s = { s with block := s.block.set k v } := by simp [writeBlock, h]

@[simp] theorem writeBlock_busy (k : Fin 4) (v : Word) (s : State) (h : s.status.busy = true) :
    writeBlock k v s = raiseErr .busy s := by simp [writeBlock, h]

theorem writeStatus_eq (v : Word) (s : State) : writeStatus v s = clearErr s ∨ writeStatus v s = s := by
  unfold writeStatus; split <;> simp

/-- Holding reset twice is holding it once. -/
@[simp] theorem heldInReset_heldInReset (s : State) : heldInReset (heldInReset s) = heldInReset s := rfl

end Sys2Proof.Machine
end

