-- ==== Sys2Proof/Laws/Ops.lean ====
section
/-! SUPPORT. What each shared operation can do, said once for every parameter: a command's offer and completion, a host write,
a host step, a core step, a step. A name without `For` says it of this hardware. -/

namespace Sys2Proof.Machine

open Sys2Proof.Safety

/-! ### A command -/

/-- With BUSY = 0 a command is offered (R359). -/
theorem runCommand_offered (v : Word) (vd : Verdict) (f : State → State) (s : State) (h : s.status.busy = false) :
    runCommand v vd f s = .next (offer v vd s) := by simp [runCommand, h]

/-- With BUSY = 1 and PHASE = RUN it completes (R96). -/
theorem runCommand_completes (v : Word) (vd : Verdict) (f : State → State) (s : State) (h : s.status.busy = true)
    (hp : s.phase = .run) : runCommand v vd f s = .next (finish (f s)) := by simp [runCommand, h, hp]

/-- With BUSY = 1 and PHASE not RUN it is dropped (R353). -/
theorem runCommand_dropped (v : Word) (vd : Verdict) (f : State → State) (s : State) (h : s.status.busy = true)
    (hp : s.phase ≠ .run) : runCommand v vd f s = .next (raiseErr .busy s) := by
  cases hq : s.phase <;> simp_all [runCommand]

/-- What the checks of R358 find for a command offered while BUSY = 0. -/
def verdictOf (i : Instr) (s : State) : Verdict :=
  match i with
  | .nop _ _ _ => .accept
  | .keyExpand _ _ _ => .accept
  | .encrypt _ _ _ => needsKey s
  | .decrypt _ _ _ => needsKey s
  | .gfMul _ _ _ => .accept
  | .gfInv _ a _ => if a = 0x00 then .acceptNoting .invZero else .accept
  | .addRoundKey r _ _ => if r.toNat ≤ 10 then needsKey s else .reject .badRound
  | .subBytes _ _ _ => .accept
  | .shiftRows _ _ _ => .accept
  | .mixColumns _ _ _ => .accept
  | .invSubBytes _ _ _ => .accept
  | .invShiftRows _ _ _ => .accept
  | .invMixColumns _ _ _ => .accept

/-- What a command does at its completion under the parameters `p`, before PHASE and BUSY are put back (R127's rules). -/
def effectFor (p : Config.Params) (i : Instr) (s : State) : State :=
  match i with
  | .nop _ _ _ => s
  | .keyExpand _ _ _ =>
    { s with rk := expand s.sbox s.key, status := { s.status with keyReady := true }, work := keyWork s.sbox s.key 40 s.work }
  | .encrypt _ _ _ =>
    { mapBlock (cipher p.stateLayout s.sbox s.rk) s with
      work := runStages p.stateLayout s.sbox s.isbox s.rk (loadWork (blk s.block) s.work) encryptStages }
  | .decrypt _ _ _ =>
    { mapBlock (invCipher p.stateLayout s.isbox s.rk) s with
      work := runStages p.stateLayout s.sbox s.isbox s.rk (loadWork (blk s.block) s.work) decryptStages }
  | .gfMul _ a b => { s with result := gmul a b }
  | .gfInv _ a _ => { s with result := ginv a }
  | .addRoundKey r _ _ => if h : r.toNat ≤ 10 then mapBlock (addRoundKey s.rk ⟨r.toNat, by omega⟩) s else s
  | .subBytes _ _ _ => mapBlock (subBytes s.sbox) s
  | .shiftRows _ _ _ => mapBlock (shiftRows p.stateLayout) s
  | .mixColumns _ _ _ => mapBlock (mixColumns p.stateLayout) s
  | .invSubBytes _ _ _ => mapBlock (invSubBytes s.isbox) s
  | .invShiftRows _ _ _ => mapBlock (invShiftRows p.stateLayout) s
  | .invMixColumns _ _ _ => mapBlock (invMixColumns p.stateLayout) s

/-- The same on this hardware. -/
abbrev effectOf (i : Instr) (s : State) : State := effectFor hardware i s

/-- The group of an ADD_ROUND_KEY is one of 0 to 10. -/
def groupExists : Instr → Prop
  | .addRoundKey r _ _ => r.toNat ≤ 10
  | _ => True

/-! ### This hardware among the parameters -/

/-- What a command does on this hardware is what it does under the hardware's parameters. -/
@[simp] theorem execFor_hardware : execFor hardware = exec := by funext i s; cases i <;> rfl

/-- A step of this hardware is a step under the hardware's parameters. -/
@[simp] theorem stepFor_hardware : stepFor hardware = step := by
  funext s
  show stepBy sboxVariant (execFor hardware) s = stepBy sboxVariant exec s
  rw [execFor_hardware]

/-! ### What a command answers -/

/-- A command is `runCommand` of its word, its checks and its effect, where its group exists. -/
theorem execFor_eq_runCommand (p : Config.Params) (i : Instr) (s : State) (hg : groupExists i) :
    execFor p i s = runCommand (encode i) (verdictOf i s) (effectFor p i) s := by
  cases i with
  | addRoundKey r a b =>
    have hr : r.toNat ≤ 10 := hg
    simp only [execFor, execAddRoundKey, verdictOf, hr, dif_pos, if_pos]
    congr 1
    funext u
    simp only [effectFor, hr, dif_pos]
  | _ => rfl

/-- An ADD_ROUND_KEY whose group does not exist stops if it is running, and is rejected if it is offered. -/
theorem execFor_eq_of_no_group (p : Config.Params) (i : Instr) (s : State) (hg : ¬ groupExists i) :
    execFor p i s = if s.status.busy ∧ s.phase = .run then .fault .noSuchRoundKeyGroup
      else runCommand (encode i) (verdictOf i s) id s := by
  cases i with
  | addRoundKey r a b =>
    have hr : ¬ r.toNat ≤ 10 := hg
    simp [execFor, execAddRoundKey, verdictOf, hr]
  | _ => exact absurd trivial hg

/-- A command offered while BUSY = 0 always answers a next state, the same under every parameter. -/
theorem execFor_offered (p : Config.Params) (i : Instr) (s : State) (h : s.status.busy = false) :
    execFor p i s = .next (offer (encode i) (verdictOf i s) s) := by
  by_cases hg : groupExists i
  · rw [execFor_eq_runCommand p i s hg, runCommand_offered _ _ _ _ h]
  · rw [execFor_eq_of_no_group p i s hg, if_neg (by simp [h]), runCommand_offered _ _ _ _ h]

/-- A running command answers its effect, with PHASE and BUSY put back. -/
theorem execFor_completes (p : Config.Params) (i : Instr) (s : State) (h : s.status.busy = true) (hp : s.phase = .run)
    (hg : groupExists i) : execFor p i s = .next (finish (effectFor p i s)) := by
  rw [execFor_eq_runCommand p i s hg, runCommand_completes _ _ _ _ h hp]

/-- A command met while BUSY = 1 and PHASE is not RUN is dropped with error BUSY. -/
theorem execFor_dropped (p : Config.Params) (i : Instr) (s : State) (h : s.status.busy = true) (hp : s.phase ≠ .run) :
    execFor p i s = .next (raiseErr .busy s) := by
  by_cases hg : groupExists i
  · rw [execFor_eq_runCommand p i s hg, runCommand_dropped _ _ _ _ h hp]
  · rw [execFor_eq_of_no_group p i s hg, if_neg (by simp [hp]), runCommand_dropped _ _ _ _ h hp]

/-- The one stop: a running ADD_ROUND_KEY whose group does not exist. -/
theorem execFor_faults (p : Config.Params) (i : Instr) (s : State) (h : s.status.busy = true) (hp : s.phase = .run)
    (hg : ¬ groupExists i) : execFor p i s = .fault .noSuchRoundKeyGroup := by
  rw [execFor_eq_of_no_group p i s hg, if_pos ⟨h, hp⟩]

/-- Everything a command can answer as a next state. -/
theorem execFor_next_cases {p : Config.Params} {i : Instr} {s t : State} (h : execFor p i s = .next t) :
    (s.status.busy = false ∧ t = offer (encode i) (verdictOf i s) s) ∨
    (s.status.busy = true ∧ s.phase = .run ∧ groupExists i ∧ t = finish (effectFor p i s)) ∨
    (s.status.busy = true ∧ s.phase ≠ .run ∧ t = raiseErr .busy s) := by
  cases hb : s.status.busy with
  | false =>
    rw [execFor_offered p i s hb] at h
    exact .inl ⟨rfl, (Host.Outcome.next.inj h).symm⟩
  | true =>
    by_cases hp : s.phase = .run
    · by_cases hg : groupExists i
      · rw [execFor_completes p i s hb hp hg] at h
        exact .inr (.inl ⟨rfl, hp, hg, (Host.Outcome.next.inj h).symm⟩)
      · rw [execFor_faults p i s hb hp hg] at h
        cases h
    · rw [execFor_dropped p i s hb hp] at h
      exact .inr (.inr ⟨rfl, hp, (Host.Outcome.next.inj h).symm⟩)

theorem exec_offered (i : Instr) (s : State) (h : s.status.busy = false) :
    exec i s = .next (offer (encode i) (verdictOf i s) s) := by
  rw [← execFor_hardware]; exact execFor_offered hardware i s h

theorem exec_completes (i : Instr) (s : State) (h : s.status.busy = true) (hp : s.phase = .run) (hg : groupExists i) :
    exec i s = .next (finish (effectOf i s)) := by
  rw [← execFor_hardware]; exact execFor_completes hardware i s h hp hg

theorem exec_dropped (i : Instr) (s : State) (h : s.status.busy = true) (hp : s.phase ≠ .run) :
    exec i s = .next (raiseErr .busy s) := by
  rw [← execFor_hardware]; exact execFor_dropped hardware i s h hp

theorem exec_next_cases {i : Instr} {s t : State} (h : exec i s = .next t) :
    (s.status.busy = false ∧ t = offer (encode i) (verdictOf i s) s) ∨
    (s.status.busy = true ∧ s.phase = .run ∧ groupExists i ∧ t = finish (effectOf i s)) ∨
    (s.status.busy = true ∧ s.phase ≠ .run ∧ t = raiseErr .busy s) := by
  rw [← execFor_hardware] at h; exact execFor_next_cases h

/-- Everything an offer can do (R359): accept, record an error and accept, or record an error and reject. -/
theorem offer_cases (v : Word) (vd : Verdict) (s : State) :
    offer v vd s = accept v s ∨ (∃ e, offer v vd s = accept v (raiseErr e s)) ∨ (∃ e, offer v vd s = raiseErr e s) := by
  cases vd with
  | accept => exact .inl rfl
  | acceptNoting e => exact .inr (.inl ⟨e, rfl⟩)
  | reject e => exact .inr (.inr ⟨e, rfl⟩)

/-- What no command's effect changes: everything but RESULT, STATE, RK, KEY_READY and WORK. -/
theorem effectFor_frame (p : Config.Params) (i : Instr) (s : State) :
    (effectFor p i s).resetActive = s.resetActive ∧ (effectFor p i s).errCause = s.errCause ∧ (effectFor p i s).key = s.key ∧
    (effectFor p i s).sbox = s.sbox ∧ (effectFor p i s).isbox = s.isbox ∧ (effectFor p i s).phase = s.phase ∧
    (effectFor p i s).cur = s.cur ∧ (effectFor p i s).host = s.host ∧ (effectFor p i s).reads = s.reads ∧
    (effectFor p i s).delay = s.delay ∧ (effectFor p i s).draws = s.draws ∧
    (effectFor p i s).status.busy = s.status.busy ∧ (effectFor p i s).status.tablesReady = s.status.tablesReady ∧
    (effectFor p i s).status.err = s.status.err := by
  cases i with
  | addRoundKey r a b => by_cases h : r.toNat ≤ 10 <;> simp [effectFor, h]
  | nop r a b => exact ⟨rfl, rfl, rfl, rfl, rfl, rfl, rfl, rfl, rfl, rfl, rfl, rfl, rfl, rfl⟩
  | _ => simp [effectFor]

/-! ### The host's side -/

/-- Everything OfferCommand can do (R359). It never stops. -/
theorem offerCommandFor_cases (p : Config.Params) (v : Word) (s : State) :
    (s.status.busy = true ∧ offerCommandBy (execFor p) v s = .next (raiseErr .busy s)) ∨
    (s.status.busy = false ∧ (∃ e, decode v = .error e) ∧ offerCommandBy (execFor p) v s = .next (raiseErr .illegalCmd s)) ∨
    (∃ i, s.status.busy = false ∧ decode v = .ok i ∧
      offerCommandBy (execFor p) v s = .next (offer (encode i) (verdictOf i s) s)) := by
  cases hb : s.status.busy with
  | true => exact .inl ⟨rfl, by simp [offerCommandBy, hb]⟩
  | false =>
    cases hd : decode v with
    | error e => exact .inr (.inl ⟨rfl, ⟨e, rfl⟩, by simp [offerCommandBy, hb, hd]⟩)
    | ok i => exact .inr (.inr ⟨i, rfl, rfl, by simp [offerCommandBy, hb, hd, execFor_offered p i s hb]⟩)

/-- Everything a host write can do (R90). It never stops. -/
theorem memWriteFor_cases (p : Config.Params) (addr : Nat) (v : Word) (s : State) :
    (memWriteBy (execFor p) addr v s = .next s) ∨
    (s.resetActive = false ∧ target addr = .cmd ∧ memWriteBy (execFor p) addr v s = offerCommandBy (execFor p) v s) ∨
    (s.resetActive = false ∧ target addr = .status ∧ memWriteBy (execFor p) addr v s = .next (writeStatus v s)) ∨
    (∃ k, s.resetActive = false ∧ target addr = .key k ∧ memWriteBy (execFor p) addr v s = .next (writeKey k v s)) ∨
    (∃ k, s.resetActive = false ∧ target addr = .block k ∧ memWriteBy (execFor p) addr v s = .next (writeBlock k v s)) := by
  cases hr : s.resetActive with
  | true => exact .inl (by simp [memWriteBy, hr])
  | false => cases ht : target addr <;> simp [memWriteBy, hr, ht]

/-! ### Steps -/

/-- A core step is taken exactly under these conditions. -/
theorem coreMoves_iff (s : State) :
    coreMoves s = true ↔ s.resetActive = false ∧ s.status.busy = true ∧ s.phase ≠ .idle ∧ s.delay = 0 := by
  simp [coreMoves, and_assoc]

/-- Where the core moves, a step is the core's. -/
theorem stepFor_core (p : Config.Params) {s : State} (h : coreMoves s = true) :
    stepFor p s = coreStepBy p.sboxVariant (execFor p) s := by simp [stepFor, stepBy, h]

/-- Where the core does not move, a step is the host's. -/
theorem stepFor_host (p : Config.Params) {s : State} (h : coreMoves s = false) :
    stepFor p s = hostStepBy (execFor p) s := by simp [stepFor, stepBy, h]

/-- Everything a core step can do (R96). -/
theorem coreStepFor_cases (p : Config.Params) (s : State) :
    (s.phase = .init ∧ coreStepBy p.sboxVariant (execFor p) s = .next (finish (buildTables p.sboxVariant s))) ∨
    (∃ i, s.phase = .run ∧ decode s.cur = .ok i ∧ coreStepBy p.sboxVariant (execFor p) s = execFor p i s) ∨
    (∃ e, s.phase = .run ∧ decode s.cur = .error e ∧ coreStepBy p.sboxVariant (execFor p) s = .fault .currentWordNotACommand) ∨
    (s.phase = .idle ∧ coreStepBy p.sboxVariant (execFor p) s = .next s) := by
  unfold coreStepBy
  cases s.phase <;> cases decode s.cur <;> simp

/-- Everything a host step can do. -/
theorem hostStepFor_cases (p : Config.Params) (s : State) :
    (s.host = [] ∧ hostStepBy (execFor p) s = .next (slotPassed s)) ∨
    (∃ a v rest, s.host = .wr a v :: rest ∧ hostStepBy (execFor p) s = memWriteBy (execFor p) a v (popHost (slotPassed s))) ∨
    (∃ a rest, s.host = .rd a :: rest ∧
      hostStepBy (execFor p) s = .next { popHost (slotPassed s) with reads := s.reads ++ [memRead a s] }) ∨
    (∃ rest, s.host = .wait :: rest ∧
      hostStepBy (execFor p) s = .next (if (memRead 0x008 s).getLsbD 0 then slotPassed s else popHost (slotPassed s))) ∨
    (∃ rest, s.host = .assertReset :: rest ∧ hostStepBy (execFor p) s = .next (heldInReset (popHost (slotPassed s)))) ∨
    (∃ rest, s.host = .releaseReset :: rest ∧ hostStepBy (execFor p) s = .next (releaseReset (popHost (slotPassed s)))) := by
  unfold hostStepBy
  rcases s.host with _ | ⟨a, rest⟩
  · exact .inl ⟨rfl, rfl⟩
  · cases a <;> simp

/-- A host step never stops. -/
theorem hostStepFor_next (p : Config.Params) (s : State) : ∃ t, hostStepBy (execFor p) s = .next t := by
  rcases hostStepFor_cases p s with ⟨-, h⟩ | ⟨a, v, rest, -, h⟩ | ⟨a, rest, -, h⟩ | ⟨rest, -, h⟩ | ⟨rest, -, h⟩ | ⟨rest, -, h⟩
  · exact ⟨_, h⟩
  · rw [h]
    rcases memWriteFor_cases p a v (popHost (slotPassed s)) with h | ⟨-, -, h⟩ | ⟨-, -, h⟩ | ⟨k, -, -, h⟩ | ⟨k, -, -, h⟩
    · exact ⟨_, h⟩
    · rw [h]
      rcases offerCommandFor_cases p v (popHost (slotPassed s)) with ⟨-, h⟩ | ⟨-, -, h⟩ | ⟨i, -, -, h⟩ <;> exact ⟨_, h⟩
    · exact ⟨_, h⟩
    · exact ⟨_, h⟩
    · exact ⟨_, h⟩
  · exact ⟨_, h⟩
  · exact ⟨_, h⟩
  · exact ⟨_, h⟩
  · exact ⟨_, h⟩

/-- Everything a host write can answer as a next state (R90, R359): ignored; dropped with BUSY; rejected; accepted; the error
record cleared or not; KEYn or STATEn stored. -/
theorem memWriteFor_next_cases {p : Config.Params} {addr : Nat} {v : Word} {s t : State}
    (h : memWriteBy (execFor p) addr v s = .next t) :
    t = s ∨
    (s.resetActive = false ∧ s.status.busy = true ∧ t = raiseErr .busy s ∧
      (target addr = .cmd ∨ (∃ k, target addr = .key k) ∨ ∃ k, target addr = .block k)) ∨
    (s.resetActive = false ∧ target addr = .cmd ∧ s.status.busy = false ∧ (∃ e, decode v = .error e) ∧
      t = raiseErr .illegalCmd s) ∨
    (∃ i, s.resetActive = false ∧ target addr = .cmd ∧ s.status.busy = false ∧ decode v = .ok i ∧
      t = offer (encode i) (verdictOf i s) s) ∨
    (s.resetActive = false ∧ target addr = .status ∧ v.getLsbD 3 = true ∧ t = clearErr s) ∨
    (∃ k, s.resetActive = false ∧ target addr = .key k ∧ s.status.busy = false ∧
      t = { s with key := s.key.set k v, status := { s.status with keyReady := false } }) ∨
    (∃ k, s.resetActive = false ∧ target addr = .block k ∧ s.status.busy = false ∧
      t = { s with block := s.block.set k v }) := by
  rcases memWriteFor_cases p addr v s with h1 | ⟨hr, ht, h1⟩ | ⟨hr, ht, h1⟩ | ⟨k, hr, ht, h1⟩ | ⟨k, hr, ht, h1⟩ <;>
    rw [h1] at h
  · exact .inl (Host.Outcome.next.inj h).symm
  · rcases offerCommandFor_cases p v s with ⟨hb, h2⟩ | ⟨hb, hd, h2⟩ | ⟨i, hb, hd, h2⟩ <;> rw [h2] at h <;>
      have e := (Host.Outcome.next.inj h).symm
    · exact .inr (.inl ⟨hr, hb, e, .inl ht⟩)
    · exact .inr (.inr (.inl ⟨hr, ht, hb, hd, e⟩))
    · exact .inr (.inr (.inr (.inl ⟨i, hr, ht, hb, hd, e⟩)))
  · have e := (Host.Outcome.next.inj h).symm
    cases hv : v.getLsbD 3 with
    | true => exact .inr (.inr (.inr (.inr (.inl ⟨hr, ht, rfl, by rwa [writeStatus, if_pos hv] at e⟩))))
    | false => exact .inl (by rwa [writeStatus, hv, if_neg Bool.false_ne_true] at e)
  · have e := (Host.Outcome.next.inj h).symm
    cases hb : s.status.busy with
    | true => exact .inr (.inl ⟨hr, rfl, by simpa [writeKey, hb] using e, .inr (.inl ⟨k, ht⟩)⟩)
    | false => exact .inr (.inr (.inr (.inr (.inr (.inl ⟨k, hr, ht, rfl, by simpa [writeKey, hb] using e⟩)))))
  · have e := (Host.Outcome.next.inj h).symm
    cases hb : s.status.busy with
    | true => exact .inr (.inl ⟨hr, rfl, by simpa [writeBlock, hb] using e, .inr (.inr ⟨k, ht⟩)⟩)
    | false => exact .inr (.inr (.inr (.inr (.inr (.inr ⟨k, hr, ht, rfl, by simpa [writeBlock, hb] using e⟩)))))

/-- Everything a core step can answer as a next state where the core moves (R96). -/
theorem coreStepFor_next_cases {p : Config.Params} {s t : State} (hm : coreMoves s = true)
    (h : coreStepBy p.sboxVariant (execFor p) s = .next t) :
    (s.phase = .init ∧ t = finish (buildTables p.sboxVariant s)) ∨
    (∃ i, s.phase = .run ∧ decode s.cur = .ok i ∧ groupExists i ∧ t = finish (effectFor p i s)) := by
  obtain ⟨-, hb, hidle, -⟩ := (coreMoves_iff s).mp hm
  rcases coreStepFor_cases p s with ⟨hp, h1⟩ | ⟨i, hp, hd, h1⟩ | ⟨e, hp, hd, h1⟩ | ⟨hp, h1⟩
  · rw [h1] at h; exact .inl ⟨hp, (Host.Outcome.next.inj h).symm⟩
  · rw [h1] at h
    rcases execFor_next_cases h with ⟨hb', -⟩ | ⟨-, -, hg, e⟩ | ⟨-, hp', -⟩
    · simp [hb] at hb'
    · exact .inr ⟨i, hp, hd, hg, e⟩
    · exact absurd hp hp'
  · rw [h1] at h; cases h
  · exact absurd hp hidle

/-- Everything a step can answer as a next state: two completions of the core, six things the host does. -/
theorem stepFor_next_cases {p : Config.Params} {s t : State} (h : stepFor p s = .next t) :
    (coreMoves s = true ∧ s.phase = .init ∧ t = finish (buildTables p.sboxVariant s)) ∨
    (∃ i, coreMoves s = true ∧ s.phase = .run ∧ decode s.cur = .ok i ∧ groupExists i ∧ t = finish (effectFor p i s)) ∨
    (coreMoves s = false ∧ s.host = [] ∧ t = slotPassed s) ∨
    (∃ a v rest, coreMoves s = false ∧ s.host = .wr a v :: rest ∧ memWriteBy (execFor p) a v (popHost (slotPassed s)) = .next t) ∨
    (∃ a rest, coreMoves s = false ∧ s.host = .rd a :: rest ∧
      t = { popHost (slotPassed s) with reads := s.reads ++ [memRead a s] }) ∨
    (∃ rest, coreMoves s = false ∧ s.host = .wait :: rest ∧
      t = if (memRead 0x008 s).getLsbD 0 then slotPassed s else popHost (slotPassed s)) ∨
    (∃ rest, coreMoves s = false ∧ s.host = .assertReset :: rest ∧ t = heldInReset (popHost (slotPassed s))) ∨
    (∃ rest, coreMoves s = false ∧ s.host = .releaseReset :: rest ∧ t = releaseReset (popHost (slotPassed s))) := by
  cases hm : coreMoves s with
  | true =>
    rw [stepFor_core p hm] at h
    rcases coreStepFor_next_cases hm h with ⟨hp, e⟩ | ⟨i, hp, hd, hg, e⟩
    · exact .inl ⟨rfl, hp, e⟩
    · exact .inr (.inl ⟨i, rfl, hp, hd, hg, e⟩)
  | false =>
    rw [stepFor_host p hm] at h
    rcases hostStepFor_cases p s with ⟨hh, h1⟩ | ⟨a, v, rest, hh, h1⟩ | ⟨a, rest, hh, h1⟩ | ⟨rest, hh, h1⟩ | ⟨rest, hh, h1⟩ |
      ⟨rest, hh, h1⟩ <;> rw [h1] at h
    · exact .inr (.inr (.inl ⟨rfl, hh, (Host.Outcome.next.inj h).symm⟩))
    · exact .inr (.inr (.inr (.inl ⟨a, v, rest, rfl, hh, h⟩)))
    · exact .inr (.inr (.inr (.inr (.inl ⟨a, rest, rfl, hh, (Host.Outcome.next.inj h).symm⟩))))
    · exact .inr (.inr (.inr (.inr (.inr (.inl ⟨rest, rfl, hh, (Host.Outcome.next.inj h).symm⟩)))))
    · exact .inr (.inr (.inr (.inr (.inr (.inr (.inl ⟨rest, rfl, hh, (Host.Outcome.next.inj h).symm⟩))))))
    · exact .inr (.inr (.inr (.inr (.inr (.inr (.inr ⟨rest, rfl, hh, (Host.Outcome.next.inj h).symm⟩))))))

/-! ### The same on this hardware -/

theorem offerCommand_eq (v : Word) (s : State) : offerCommand v s = offerCommandBy (execFor hardware) v s := by
  rw [execFor_hardware]; rfl

theorem memWrite_eq (addr : Nat) (v : Word) (s : State) : memWrite addr v s = memWriteBy (execFor hardware) addr v s := by
  rw [execFor_hardware]; rfl

theorem coreStep_eq (s : State) : coreStep s = coreStepBy hardware.sboxVariant (execFor hardware) s := by
  rw [execFor_hardware]; rfl

theorem hostStep_eq (s : State) : hostStep s = hostStepBy (execFor hardware) s := by
  rw [execFor_hardware]; rfl

theorem step_core {s : State} (h : coreMoves s = true) : step s = coreStep s := by simp [step, stepBy, coreStep, h]

theorem step_host {s : State} (h : coreMoves s = false) : step s = hostStep s := by simp [step, stepBy, hostStep, h]

theorem hostStep_next (s : State) : ∃ t, hostStep s = .next t := by
  rw [hostStep_eq]; exact hostStepFor_next hardware s

theorem memWrite_next_cases {addr : Nat} {v : Word} {s t : State} (h : memWrite addr v s = .next t) :
    t = s ∨
    (s.resetActive = false ∧ s.status.busy = true ∧ t = raiseErr .busy s ∧
      (target addr = .cmd ∨ (∃ k, target addr = .key k) ∨ ∃ k, target addr = .block k)) ∨
    (s.resetActive = false ∧ target addr = .cmd ∧ s.status.busy = false ∧ (∃ e, decode v = .error e) ∧
      t = raiseErr .illegalCmd s) ∨
    (∃ i, s.resetActive = false ∧ target addr = .cmd ∧ s.status.busy = false ∧ decode v = .ok i ∧
      t = offer (encode i) (verdictOf i s) s) ∨
    (s.resetActive = false ∧ target addr = .status ∧ v.getLsbD 3 = true ∧ t = clearErr s) ∨
    (∃ k, s.resetActive = false ∧ target addr = .key k ∧ s.status.busy = false ∧
      t = { s with key := s.key.set k v, status := { s.status with keyReady := false } }) ∨
    (∃ k, s.resetActive = false ∧ target addr = .block k ∧ s.status.busy = false ∧
      t = { s with block := s.block.set k v }) :=
  memWriteFor_next_cases (p := hardware) (by rw [← memWrite_eq]; exact h)

theorem step_next_cases {s t : State} (h : step s = .next t) :
    (coreMoves s = true ∧ s.phase = .init ∧ t = finish (buildTables sboxVariant s)) ∨
    (∃ i, coreMoves s = true ∧ s.phase = .run ∧ decode s.cur = .ok i ∧ groupExists i ∧ t = finish (effectOf i s)) ∨
    (coreMoves s = false ∧ s.host = [] ∧ t = slotPassed s) ∨
    (∃ a v rest, coreMoves s = false ∧ s.host = .wr a v :: rest ∧ memWrite a v (popHost (slotPassed s)) = .next t) ∨
    (∃ a rest, coreMoves s = false ∧ s.host = .rd a :: rest ∧
      t = { popHost (slotPassed s) with reads := s.reads ++ [memRead a s] }) ∨
    (∃ rest, coreMoves s = false ∧ s.host = .wait :: rest ∧
      t = if (memRead 0x008 s).getLsbD 0 then slotPassed s else popHost (slotPassed s)) ∨
    (∃ rest, coreMoves s = false ∧ s.host = .assertReset :: rest ∧ t = heldInReset (popHost (slotPassed s))) ∨
    (∃ rest, coreMoves s = false ∧ s.host = .releaseReset :: rest ∧ t = releaseReset (popHost (slotPassed s))) := by
  simp only [memWrite_eq]
  exact stepFor_next_cases (p := hardware) (by rw [stepFor_hardware]; exact h)

/-- RESET_ACTIVE released: either it was not active, or the state is the held one with a fresh latency (R402). -/
theorem releaseReset_cases (s : State) :
    (s.resetActive = false ∧ releaseReset s = s) ∨
    (s.resetActive = true ∧ releaseReset s =
      { heldInReset s with resetActive := false, delay := Config.latency s.draws, draws := s.draws + 1 }) := by
  cases h : s.resetActive <;> simp [releaseReset, h]

/-! ### The register map -/

theorem wordIndex_lt (addr : Nat) : wordIndex addr < 1024 := Nat.mod_lt _ (by decide)

/-- Only the word an address selects matters (R91). -/
theorem target_congr {a a' : Nat} (h : wordIndex a = wordIndex a') : target a = target a' := by
  simp [target, offsetOf, h]

/-- A target of the map is at these offsets (R81). -/
theorem targetAt_cases (w : Nat) :
    (4 * w = 0x000 ∧ targetAt (4 * w) = .id) ∨
    (4 * w = 0x004 ∧ targetAt (4 * w) = .cmd) ∨
    (4 * w = 0x008 ∧ targetAt (4 * w) = .status) ∨
    (4 * w = 0x00C ∧ targetAt (4 * w) = .errCause) ∨
    (4 * w = 0x010 ∧ targetAt (4 * w) = .result) ∨
    (∃ k : Fin 4, 4 * w = 0x020 + 4 * k.val ∧ targetAt (4 * w) = .key k) ∨
    (∃ k : Fin 4, 4 * w = 0x030 + 4 * k.val ∧ targetAt (4 * w) = .block k) ∨
    (∃ i : Fin 256, 4 * w = 0x400 + 4 * i.val ∧ targetAt (4 * w) = .sboxWindow i) ∨
    (∃ i : Fin 256, 4 * w = 0x800 + 4 * i.val ∧ targetAt (4 * w) = .isboxWindow i) ∨
    (∃ j : Fin 44, 4 * w = 0xC00 + 4 * j.val ∧ targetAt (4 * w) = .rkWindow j) ∨
    (∃ k : Fin 10, 4 * w = 0xD00 + 4 * k.val ∧ targetAt (4 * w) = .rconWindow k) ∨
    (((0x014 ≤ 4 * w ∧ 4 * w ≤ 0x01C) ∨ (0x040 ≤ 4 * w ∧ 4 * w ≤ 0x3FC) ∨ (0xCB0 ≤ 4 * w ∧ 4 * w ≤ 0xCFC) ∨
      0xD28 ≤ 4 * w) ∧ targetAt (4 * w) = .reserved) := by
  have h4 : 4 * w % 4 = 0 := by omega
  generalize 4 * w = off at h4 ⊢
  unfold targetAt
  by_cases h0 : off = 0x000
  · exact .inl ⟨h0, by rw [if_pos h0]⟩
  rw [if_neg h0]
  by_cases h1 : off = 0x004
  · exact .inr (.inl ⟨h1, by rw [if_pos h1]⟩)
  rw [if_neg h1]
  by_cases h2 : off = 0x008
  · exact .inr (.inr (.inl ⟨h2, by rw [if_pos h2]⟩))
  rw [if_neg h2]
  by_cases h3 : off = 0x00C
  · exact .inr (.inr (.inr (.inl ⟨h3, by rw [if_pos h3]⟩)))
  rw [if_neg h3]
  by_cases h4 : off = 0x010
  · exact .inr (.inr (.inr (.inr (.inl ⟨h4, by rw [if_pos h4]⟩))))
  rw [if_neg h4]
  by_cases h5 : 0x020 ≤ off ∧ off ≤ 0x02C
  · exact .inr (.inr (.inr (.inr (.inr (.inl ⟨⟨(off - 0x020) / 4, by omega⟩, by simp only; omega, by rw [dif_pos h5]⟩)))))
  rw [dif_neg h5]
  by_cases h6 : 0x030 ≤ off ∧ off ≤ 0x03C
  · exact .inr (.inr (.inr (.inr (.inr (.inr (.inl ⟨⟨(off - 0x030) / 4, by omega⟩, by simp only; omega, by rw [dif_pos h6]⟩))))))
  rw [dif_neg h6]
  by_cases h7 : 0x400 ≤ off ∧ off ≤ 0x7FC
  · exact .inr (.inr (.inr (.inr (.inr (.inr (.inr (.inl ⟨⟨(off - 0x400) / 4, by omega⟩, by simp only; omega,
      by rw [dif_pos h7]⟩)))))))
  rw [dif_neg h7]
  by_cases h8 : 0x800 ≤ off ∧ off ≤ 0xBFC
  · exact .inr (.inr (.inr (.inr (.inr (.inr (.inr (.inr (.inl ⟨⟨(off - 0x800) / 4, by omega⟩, by simp only; omega,
      by rw [dif_pos h8]⟩))))))))
  rw [dif_neg h8]
  by_cases h9 : 0xC00 ≤ off ∧ off ≤ 0xCAC
  · exact .inr (.inr (.inr (.inr (.inr (.inr (.inr (.inr (.inr (.inl ⟨⟨(off - 0xC00) / 4, by omega⟩, by simp only; omega,
      by rw [dif_pos h9]⟩)))))))))
  rw [dif_neg h9]
  by_cases h10 : 0xD00 ≤ off ∧ off ≤ 0xD24
  · exact .inr (.inr (.inr (.inr (.inr (.inr (.inr (.inr (.inr (.inr (.inl ⟨⟨(off - 0xD00) / 4, by omega⟩, by simp only; omega,
      by rw [dif_pos h10]⟩))))))))))
  rw [dif_neg h10]
  exact .inr (.inr (.inr (.inr (.inr (.inr (.inr (.inr (.inr (.inr (.inr ⟨by omega, rfl⟩))))))))))

/-- The offset a name stands for is where the map has it (R81, R134). -/
theorem target_of_regOffset (t : Target) (off : Nat) (h : regOffset t = some off) : target off = t := by
  cases t <;> simp only [regOffset, Option.some.injEq, reduceCtorEq] at h
  case key k => subst h; revert k; decide
  case block k => subst h; revert k; decide
  case sboxWindow i => subst h; revert i; decide +kernel
  case isboxWindow i => subst h; revert i; decide +kernel
  case rkWindow j => subst h; revert j; decide +kernel
  case rconWindow k => subst h; revert k; decide
  all_goals subst h; decide

end Sys2Proof.Machine
end

