-- ==== Sys2Proof/Laws/PerInstr.lean ====
section
/-! SUPPORT. The per-instruction family `EncodedFields`: the word of every command holds its opcode and its three fields in
the places of 30_encoding.md R120, and RSV = 0 (R123). -/

namespace Sys2Proof.Laws.EncodedFields

/-- The fields read back from the word of `i` are those of `i`. -/
def Statement (i : Instr) : Prop :=
  fieldOpc (encode i) = i.opcode ∧ fieldRnd (encode i) = i.rnd ∧ fieldRsv (encode i) = 0 ∧
    fieldOpa (encode i) = i.opa ∧ fieldOpb (encode i) = i.opb

theorem of_fields (i : Instr) : Statement i := by simp [Statement, encode_eq_cmdWord]

theorem nop (rnd : BitVec 4) (a b : Byte) : Statement (.nop rnd a b) := of_fields _
theorem keyExpand (rnd : BitVec 4) (a b : Byte) : Statement (.keyExpand rnd a b) := of_fields _
theorem encrypt (rnd : BitVec 4) (a b : Byte) : Statement (.encrypt rnd a b) := of_fields _
theorem decrypt (rnd : BitVec 4) (a b : Byte) : Statement (.decrypt rnd a b) := of_fields _
theorem gfMul (rnd : BitVec 4) (a b : Byte) : Statement (.gfMul rnd a b) := of_fields _
theorem gfInv (rnd : BitVec 4) (a b : Byte) : Statement (.gfInv rnd a b) := of_fields _
theorem addRoundKey (rnd : BitVec 4) (a b : Byte) : Statement (.addRoundKey rnd a b) := of_fields _
theorem subBytes (rnd : BitVec 4) (a b : Byte) : Statement (.subBytes rnd a b) := of_fields _
theorem shiftRows (rnd : BitVec 4) (a b : Byte) : Statement (.shiftRows rnd a b) := of_fields _
theorem mixColumns (rnd : BitVec 4) (a b : Byte) : Statement (.mixColumns rnd a b) := of_fields _
theorem invSubBytes (rnd : BitVec 4) (a b : Byte) : Statement (.invSubBytes rnd a b) := of_fields _
theorem invShiftRows (rnd : BitVec 4) (a b : Byte) : Statement (.invShiftRows rnd a b) := of_fields _
theorem invMixColumns (rnd : BitVec 4) (a b : Byte) : Statement (.invMixColumns rnd a b) := of_fields _

end Sys2Proof.Laws.EncodedFields
end

