-- ==== Sys2Proof/Laws/Tables.lean ====
section
/-! SUPPORT. The two passes of the init sequence, entry by entry (41_substitution_tables.md R193 to R196). -/

namespace Sys2Proof.Machine

theorem lookup_eq (t : Table) (b : Byte) : lookup t b = t[b.toNat] := rfl

/-- Two tables with the same entries are the same table. -/
theorem table_ext {s t : Table} (h : ∀ i : Byte, lookup s i = lookup t i) : s = t := by
  apply Vector.ext
  intro n hn
  have := h (BitVec.ofNat 8 n)
  simpa [lookup, Nat.mod_eq_of_lt hn] using this

@[simp] theorem lookup_fwdTable (v : Config.SboxVariant) (i : Byte) : lookup (fwdTable v) i = fwd v i := by
  simp [lookup, fwdTable]

/-- After the first `n` forward micro-steps the entries below `n` are FWD and the others are as before (R196). -/
theorem forwardPass_getElem (v : Config.SboxVariant) (n : Nat) (t : Table) (k : Nat) (hk : k < 256) :
    (forwardPass v n t)[k] = if k < n then fwd v (BitVec.ofNat 8 k) else t[k] := by
  induction n with
  | zero => simp [forwardPass]
  | succ n ih =>
    simp only [forwardPass, Vector.getElem_setIfInBounds]
    split
    · rename_i h; subst h; simp
    · rw [ih]
      have : k < n + 1 ↔ k < n := by omega
      simp [this]

/-- The forward pass writes every entry: what the table held before does not matter (R196). -/
theorem forwardPass_full (v : Config.SboxVariant) (t : Table) : forwardPass v 256 t = fwdTable v := by
  apply Vector.ext
  intro k hk
  rw [forwardPass_getElem v 256 t k hk, if_pos hk]
  simp only [fwdTable, Vector.getElem_ofFn]

/-- An inverse micro-step writes the entry at the forward value and no other (R194). -/
theorem inversePass_succ_getElem (sbox : Table) (n : Nat) (t : Table) (k : Nat) (hk : k < 256) :
    (inversePass sbox (n + 1) t)[k] =
      if (lookup sbox (BitVec.ofNat 8 n)).toNat = k then BitVec.ofNat 8 n else (inversePass sbox n t)[k] := by
  simp [inversePass, Vector.getElem_setIfInBounds]

/-- With a forward table whose entries differ, the entry at `sbox[i]` is `i` once micro-step `Ii` is done (R194). -/
theorem inversePass_at (sbox : Table) (hinj : ∀ i j : Byte, lookup sbox i = lookup sbox j → i = j) (n : Nat)
    (hn : n ≤ 256) (t : Table) (i : Byte) (hi : i.toNat < n) : lookup (inversePass sbox n t) (lookup sbox i) = i := by
  induction n with
  | zero => omega
  | succ n ih =>
    rw [lookup_eq, inversePass_succ_getElem]
    split
    · rename_i h
      exact hinj _ _ (BitVec.eq_of_toNat_eq h)
    · rename_i h
      rw [← lookup_eq]
      apply ih (by omega)
      rcases Nat.lt_succ_iff_lt_or_eq.mp hi with h' | h'
      · exact h'
      · exfalso; apply h; rw [← h']; simp

/-- With a forward table that is a permutation, the inverse pass writes every entry: what the table held before does not
matter (R195). -/
theorem inversePass_full (sbox : Table) (hinj : ∀ i j : Byte, lookup sbox i = lookup sbox j → i = j)
    (hsurj : ∀ y : Byte, ∃ i, lookup sbox i = y) (t t' : Table) : inversePass sbox 256 t = inversePass sbox 256 t' := by
  apply table_ext
  intro y
  obtain ⟨i, rfl⟩ := hsurj y
  rw [inversePass_at sbox hinj 256 (Nat.le_refl _) t i i.isLt, inversePass_at sbox hinj 256 (Nat.le_refl _) t' i i.isLt]

end Sys2Proof.Machine
end

