-- ==== Sys2Proof/WellFormed.lean ====
section
/-! DEFINITION. Well-formed commands: what the assembler of 30_encoding.md R132, R133 writes. The fields of `Instr` have the
widths of R120, so every command has a word; well-formedness adds that the ignored fields are 0 (R132) and that the
group of ADD_ROUND_KEY is one of 0 to 10 (R133: "the assembler refuses 11..15; the raw word is still writable"). No meaning
rests on it: a command that is not well-formed decodes and runs as its rule says. -/

namespace Sys2Proof

/-- The ignored fields are 0 (R132). -/
def Instr.ignoredFieldsZero (i : Instr) : Bool := i.canonical == i

/-- The round-key group, where it is used, is one of 0 to 10 (R122, R133). -/
def Instr.groupInRange : Instr → Bool
  | .addRoundKey r _ _ => decide (r.toNat ≤ 10)
  | .nop _ _ _ => true
  | .keyExpand _ _ _ => true
  | .encrypt _ _ _ => true
  | .decrypt _ _ _ => true
  | .gfMul _ _ _ => true
  | .gfInv _ _ _ => true
  | .subBytes _ _ _ => true
  | .shiftRows _ _ _ => true
  | .mixColumns _ _ _ => true
  | .invSubBytes _ _ _ => true
  | .invShiftRows _ _ _ => true
  | .invMixColumns _ _ _ => true

/-- What the assembler writes (R132, R133). -/
def Instr.wellFormed (i : Instr) : Bool := i.ignoredFieldsZero && i.groupInRange

end Sys2Proof
end

