-- ==== Sys2Proof/Tests/Slice0.lean ====
section
/-! SUPPORT. Tests, each on fixed values taken from spec/ (the source is named), and for each statement with hypotheses a
theorem that shows a state and operands meeting them. -/

namespace Sys2Proof.Tests

open Sys2Proof Sys2Proof.Machine Sys2Proof.Safety Sys2Proof.Statements

/-! ### Helpers -/

/-- The forward table as printed in R197. -/
def specSbox : List Byte :=
  [0x63, 0x9C, 0x18, 0x31, 0xDA, 0xAD, 0x4A, 0x2C, 0x3B, 0xA6, 0x84, 0x23, 0xF3, 0x3C, 0xC0, 0xDE] ++
  [0x4F, 0x0F, 0x05, 0x5A, 0x14, 0x7A, 0x43, 0x56, 0xAB, 0x76, 0xC8, 0x27, 0x36, 0xA3, 0x39, 0x0D] ++
  [0x75, 0xB9, 0x55, 0xCC, 0x50, 0x58, 0xFB, 0x24, 0xDC, 0x65, 0xEB, 0x90, 0x73, 0x5F, 0xFD, 0xDD] ++
  [0x87, 0xA0, 0xED, 0x47, 0x32, 0x74, 0x41, 0x5D, 0xCD, 0x70, 0x83, 0x46, 0x4E, 0x0A, 0x54, 0x94] ++
  [0x68, 0xC9, 0x8E, 0xBE, 0x78, 0x8C, 0x30, 0x44, 0xFE, 0xBF, 0xFA, 0x92, 0xAF, 0x80, 0xC4, 0x64] ++
  [0x38, 0x57, 0x60, 0x25, 0xA7, 0x7F, 0x1E, 0xF6, 0x6B, 0x89, 0x7D, 0x33, 0xAC, 0xC7, 0xBC, 0x6E] ++
  [0x91, 0xA9, 0x06, 0xD2, 0xA4, 0x01, 0x71, 0xA2, 0xCF, 0x5E, 0xEC, 0xD6, 0x72, 0x12, 0x7C, 0x8A] ++
  [0xB4, 0x0E, 0xEE, 0xE0, 0x93, 0xF0, 0xF5, 0x77, 0xF1, 0xB3, 0xD3, 0x61, 0xFC, 0x35, 0x1C, 0x1D] ++
  [0xE2, 0x49, 0xB6, 0xE3, 0x11, 0xB2, 0x09, 0x51, 0xEA, 0xE9, 0x10, 0xD4, 0xCE, 0x9D, 0xF4, 0xFF] ++
  [0x29, 0x45, 0x8D, 0xB8, 0x2B, 0xE5, 0x1F, 0x4D, 0x85, 0x6F, 0x16, 0x1B, 0x34, 0xD7, 0xE4, 0x15] ++
  [0xCA, 0xB7, 0x79, 0x22, 0xE6, 0x0B, 0x40, 0x5B, 0x81, 0xDB, 0x6D, 0xA5, 0xD9, 0x3E, 0x2D, 0xBD] ++
  [0x67, 0xC3, 0x96, 0xC6, 0x6C, 0xB0, 0x4B, 0x4C, 0x00, 0x19, 0xB1, 0x88, 0x08, 0xF7, 0xE1, 0xAE] ++
  [0x9A, 0x7B, 0x86, 0x02, 0xD5, 0x2F, 0x3F, 0x66, 0x04, 0x7E, 0x52, 0x9F, 0x6A, 0x37, 0x07, 0xC1] ++
  [0xB5, 0x9E, 0xF9, 0x42, 0x20, 0x2A, 0x3D, 0xC5, 0xEF, 0x1A, 0xDF, 0xD0, 0xE8, 0xCB, 0x13, 0xBA] ++
  [0x0C, 0x98, 0xD1, 0x3A, 0x21, 0x99, 0x26, 0xF8, 0x9B, 0x59, 0x2E, 0xC2, 0xA8, 0x53, 0x69, 0xF2] ++
  [0xAA, 0x82, 0x8B, 0x8F, 0xBB, 0xA1, 0x62, 0xE7, 0x28, 0x17, 0x48, 0x03, 0xD8, 0x95, 0x5C, 0x97]

/-- The inverse table as printed in R198. -/
def specIsbox : List Byte :=
  [0xB8, 0x65, 0xC3, 0xFB, 0xC8, 0x12, 0x62, 0xCE, 0xBC, 0x86, 0x3D, 0xA5, 0xE0, 0x1F, 0x71, 0x11] ++
  [0x8A, 0x84, 0x6D, 0xDE, 0x14, 0x9F, 0x9A, 0xF9, 0x02, 0xB9, 0xD9, 0x9B, 0x7E, 0x7F, 0x56, 0x96] ++
  [0xD4, 0xE4, 0xA3, 0x0B, 0x27, 0x53, 0xE6, 0x1B, 0xF8, 0x90, 0xD5, 0x94, 0x07, 0xAE, 0xEA, 0xC5] ++
  [0x46, 0x03, 0x34, 0x5B, 0x9C, 0x7D, 0x1C, 0xCD, 0x50, 0x1E, 0xE3, 0x08, 0x0D, 0xD6, 0xAD, 0xC6] ++
  [0xA6, 0x36, 0xD3, 0x16, 0x47, 0x91, 0x3B, 0x33, 0xFA, 0x81, 0x06, 0xB6, 0xB7, 0x97, 0x3C, 0x10] ++
  [0x24, 0x87, 0xCA, 0xED, 0x3E, 0x22, 0x17, 0x51, 0x25, 0xE9, 0x13, 0xA7, 0xFE, 0x37, 0x69, 0x2D] ++
  [0x52, 0x7B, 0xF6, 0x00, 0x4F, 0x29, 0xC7, 0xB0, 0x40, 0xEE, 0xCC, 0x58, 0xB4, 0xAA, 0x5F, 0x99] ++
  [0x39, 0x66, 0x6C, 0x2C, 0x35, 0x20, 0x19, 0x77, 0x44, 0xA2, 0x15, 0xC1, 0x6E, 0x5A, 0xC9, 0x55] ++
  [0x4D, 0xA8, 0xF1, 0x3A, 0x0A, 0x98, 0xC2, 0x30, 0xBB, 0x59, 0x6F, 0xF2, 0x45, 0x92, 0x42, 0xF3] ++
  [0x2B, 0x60, 0x4B, 0x74, 0x3F, 0xFD, 0xB2, 0xFF, 0xE1, 0xE5, 0xC0, 0xE8, 0x01, 0x8D, 0xD1, 0xCB] ++
  [0x31, 0xF5, 0x67, 0x1D, 0x64, 0xAB, 0x09, 0x54, 0xEC, 0x61, 0xF0, 0x18, 0x5C, 0x05, 0xBF, 0x4C] ++
  [0xB5, 0xBA, 0x85, 0x79, 0x70, 0xD0, 0x82, 0xA1, 0x93, 0x21, 0xDF, 0xF4, 0x5E, 0xAF, 0x43, 0x49] ++
  [0x0E, 0xCF, 0xEB, 0xB1, 0x4E, 0xD7, 0xB3, 0x5D, 0x1A, 0x41, 0xA0, 0xDD, 0x23, 0x38, 0x8C, 0x68] ++
  [0xDB, 0xE2, 0x63, 0x7A, 0x8B, 0xC4, 0x6B, 0x9D, 0xFC, 0xAC, 0x04, 0xA9, 0x28, 0x2F, 0x0F, 0xDA] ++
  [0x73, 0xBE, 0x80, 0x83, 0x9E, 0x95, 0xA4, 0xF7, 0xDC, 0x89, 0x88, 0x2A, 0x6A, 0x32, 0x72, 0xD8] ++
  [0x75, 0x78, 0xEF, 0x0C, 0x8E, 0x76, 0x57, 0xBD, 0xE7, 0xD2, 0x4A, 0x26, 0x7C, 0x2E, 0x48, 0x8F]

/-- The round keys of the sample key (95_test_vectors.md section 3). -/
def specRk : List Word :=
  [0x00010203, 0x04050607, 0x08090A0B, 0x0C0D0E0F] ++
  [0x3DC1DCF0, 0x39C4DAF7, 0x31CDD0FC, 0x3DC0DEF3] ++
  [0xA5D253FA, 0x9C16890D, 0xADDB59F1, 0x901B8702] ++
  [0x86834BD3, 0x1A95C2DE, 0xB74E9B2F, 0x27551C2D] ++
  [0xF1B514F7, 0xEB20D629, 0x5C6E4D06, 0x7B3B512B] ++
  [0xA7E28496, 0x4CC252BF, 0x10AC1FB9, 0x6B974E92] ++
  [0xCA260940, 0x86E45BFF, 0x96484446, 0xFDDF0AD4] ++
  [0x30A229D5, 0xB646722A, 0x200E366C, 0xDDD13CB8] ++
  [0x2EEC291E, 0x98AA5B34, 0xB8A46D58, 0x657551E0] ++
  [0xC5BB251F, 0x5D117E2B, 0xE5B51373, 0x80C04293] ++
  [0x69359DFD, 0x3424E3D6, 0xD191F0A5, 0x5151B236]

def tableOf (l : List Byte) : Table := Vector.ofFn fun i => l.getD i.val 0

/-- Idle after init, no key (95_test_vectors.md program 4, after the first WAIT). -/
def idleState : State :=
  { State.reset with
    status := { busy := false, tablesReady := true, keyReady := false, err := false }
    sbox := tableOf specSbox
    isbox := tableOf specIsbox
    phase := .idle
    delay := 0 }

/-- Idle with the sample key expanded and the sample block loaded (95_test_vectors.md program 1, before ENCRYPT). -/
def keyedState : State :=
  { idleState with
    status := { busy := false, tablesReady := true, keyReady := true, err := false }
    key := sampleKey
    rk := Vector.ofFn fun i => specRk.getD i.val 0
    block := sampleBlock }

/-- The keyed state with a command word in CUR, about to complete. -/
def runningState (w : Word) : State := withCommandInCur w keyedState

/-- A busy state whose core step is two host steps away. -/
def waitingState (acts : List HostAct) : State := { runningState 0x00000021 with delay := 2, host := acts }

/-- A next state with a property. -/
def nextWith (r : Result) (p : State → Bool) : Bool :=
  match r with
  | .next t => p t
  | .fault _ => false
  | .refused _ => false

theorem nextWith_spec {r : Result} {p : State → Bool} (h : nextWith r p = true) : ∃ t, r = .next t ∧ p t = true := by
  cases r with
  | next t => exact ⟨t, rfl, h⟩
  | fault f => cases h
  | refused f => cases h

/-- STATE after a step or a meaning. -/
def blockAfter (r : Result) : Option Quad :=
  match r with
  | .next t => some t.block
  | .fault _ => none
  | .refused _ => none

/-! ### Well-formed commands (R132, R133): the two checks refuse -/

theorem test_wellFormed_accepts_canonical : (Instr.addRoundKey 10 0 0).wellFormed = true := by decide
theorem test_wellFormed_refuses_ignored_field : (Instr.nop 1 0 0).wellFormed = false := by decide
theorem test_ignoredFieldsZero_refuses : (Instr.gfInv 0 0x53 0x01).ignoredFieldsZero = false := by decide
theorem test_groupInRange_refuses_11 : (Instr.addRoundKey 11 0 0).groupInRange = false := by decide

/-! ### Decoding: words written out from R120 and R127 (30_encoding.md R132, 95_test_vectors.md sections 2, 4, 8) -/

theorem test_decode_nop : decode 0x00000000 = .ok (.nop 0 0 0) := by decide
theorem test_decode_nop_ignored_fields : decode 0xFFFF0F00 = .ok (.nop 0xF 0xFF 0xFF) := by decide
theorem test_decode_keyExpand : decode 0x00000001 = .ok (.keyExpand 0 0 0) := by decide
theorem test_decode_encrypt : decode 0x00000002 = .ok (.encrypt 0 0 0) := by decide
theorem test_decode_decrypt : decode 0x00000003 = .ok (.decrypt 0 0 0) := by decide
theorem test_decode_gfMul : decode 0x83570010 = .ok (.gfMul 0 0x57 0x83) := by decide
theorem test_decode_gfInv : decode 0x00530011 = .ok (.gfInv 0 0x53 0) := by decide
theorem test_decode_addRoundKey : decode 0x00000A20 = .ok (.addRoundKey 10 0 0) := by decide
theorem test_decode_subBytes : decode 0x00000021 = .ok (.subBytes 0 0 0) := by decide
theorem test_decode_shiftRows : decode 0x00000022 = .ok (.shiftRows 0 0 0) := by decide
theorem test_decode_mixColumns : decode 0x00000023 = .ok (.mixColumns 0 0 0) := by decide
theorem test_decode_invSubBytes : decode 0x00000031 = .ok (.invSubBytes 0 0 0) := by decide
theorem test_decode_invShiftRows : decode 0x00000032 = .ok (.invShiftRows 0 0 0) := by decide
theorem test_decode_invMixColumns : decode 0x00000033 = .ok (.invMixColumns 0 0 0) := by decide
theorem test_decode_undefined_opcode : decode 0x000000FF = .error .undefinedOpcode := by decide
theorem test_decode_reserved_field : decode 0x00001002 = .error .reservedFieldNotZero := by decide
theorem test_encode_addRoundKey : encode (.addRoundKey 1 0 0) = 0x00000120 := by decide
theorem test_encode_gfMul : encode (.gfMul 0 0x57 0x83) = 0x83570010 := by decide
theorem test_decodeTableWord : decodeTableWord 32 0x31 = some (.invSubBytes 0 0 0) := by decide

/-- No two rows of the opcode map share an opcode (R127). -/
theorem test_opcodes_distinct : (opcodeMap.map (·.opc)).Pairwise (· ≠ ·) := by decide

/-! ### The field and the tables (95_test_vectors.md section 2, R197, R198, R200) -/

theorem test_gmul_reduction : gmul 0x80 0x02 = 0x1B ∧ gmul 0x09 0xFF = 0x46 := by decide
theorem test_gmul_three : gmul 0x03 0x6E = 0xB2 := by decide
theorem test_ginv : ginv 0x02 = 0x8D ∧ ginv 0xFF = 0x1C := by decide
theorem test_ginv_zero : ginv 0x00 = 0x00 := by decide
theorem test_aff_seq : affSeq 0xCA = 0x25 ∧ affSeq 0x80 = 0xE3 := by decide
theorem test_aff_par : affPar 0x01 = 0x74 ∧ affPar 0xFF = 0x6E := by decide
theorem test_aff_fips : affFips 0x8D = 0x77 ∧ affFips 0x01 = 0x7C := by decide

/-- The whole forward table, as printed in R197. -/
theorem test_forward_table : ∀ i : Fin 256, fwd .srcShiftSeq (BitVec.ofNat 8 i) = specSbox.getD i 0 := by decide +kernel

/-- The scan of R194 over the printed forward table gives the entries printed in R198. -/
theorem test_inverse_pass : lookup (inversePass (tableOf specSbox) 256 (Vector.replicate 256 0)) 0x9C = 0x01 ∧
    lookup (inversePass (tableOf specSbox) 256 (Vector.replicate 256 0)) 0x53 = 0xED := by decide +kernel

/-- The printed tables undo each other at every entry (R195). -/
theorem test_printed_tables_inverse :
    ∀ i : Fin 256, specIsbox.getD (specSbox.getD i 0).toNat 0 = BitVec.ofNat 8 i := by decide +kernel

/-! ### The key schedule (R221, R222, 95_test_vectors.md section 3) -/

theorem test_rotWord : rotWord 0x0C0D0E0F = 0x0D0E0F0C := by decide
theorem test_subWord : subWord (tableOf specSbox) 0x0D0E0F0C = 0x3CC0DEF3 := by decide +kernel
theorem test_expand_first_and_last : (expand (tableOf specSbox) sampleKey)[4] = 0x3DC1DCF0 ∧
    (expand (tableOf specSbox) sampleKey)[43] = 0x5151B236 := by decide +kernel

/-! ### The commands at their completion (95_test_vectors.md sections 2, 4, 5) -/

theorem test_exec_nop : nextWith (exec (.nop 0 0 0) (runningState 0)) (fun t => t.status.busy == false) = true := by decide
theorem test_exec_gfMul :
    nextWith (exec (.gfMul 0 0x57 0x83) (runningState 0x83570010)) (fun t => t.result == 0xC1#8) = true := by decide
theorem test_exec_gfInv :
    nextWith (exec (.gfInv 0 0x53 0) (runningState 0x00530011)) (fun t => t.result == 0xCA#8) = true := by decide
theorem test_exec_addRoundKey_10 : blockAfter (exec (.addRoundKey 10 0 0) (runningState 0x00000A20)) =
    some #v[0x6924BFCE, 0x707185A1, 0x59085A1E, 0x9D8C5CC9] := by decide +kernel
theorem test_exec_subBytes : blockAfter (exec (.subBytes 0 0 0) (runningState 0x00000021)) =
    some #v[0x630F5547, 0x787F7177, 0xEA6F6D88, 0x6ACB6997] := by decide +kernel
theorem test_exec_shiftRows : blockAfter (exec (.shiftRows 0 0 0) (runningState 0x00000022)) =
    some #v[0x00112233, 0x55667744, 0xAABB8899, 0xFFCCDDEE] := by decide +kernel
theorem test_exec_mixColumns : blockAfter (exec (.mixColumns 0 0 0) (runningState 0x00000023)) =
    some #v[0x8899AABB, 0xC7D6E5F4, 0x00112233, 0x4F5E6D7C] := by decide +kernel
theorem test_exec_invSubBytes : blockAfter (exec (.invSubBytes 0 0 0) (runningState 0x00000031)) =
    some #v[0xB884A35B, 0x4722C777, 0xBBE5F0F4, 0x232F728F] := by decide +kernel
theorem test_exec_invShiftRows : blockAfter (exec (.invShiftRows 0 0 0) (runningState 0x00000032)) =
    some #v[0x00112233, 0x77445566, 0xAABB8899, 0xDDEEFFCC] := by decide +kernel
theorem test_exec_invMixColumns : blockAfter (exec (.invMixColumns 0 0 0) (runningState 0x00000033)) =
    some #v[0x9E8FBCAD, 0xD1C0F3E2, 0x16073425, 0x59487B6A] := by decide +kernel

/-- The known-answer block of R293. -/
theorem test_exec_encrypt : blockAfter (exec (.encrypt 0 0 0) (runningState 0x00000002)) =
    some #v[0xF517910F, 0x2FBBEC11, 0x5F5AB08B, 0xE37F485E] := by decide +kernel

/-- The known-answer block of R294. -/
theorem test_exec_decrypt :
    blockAfter (exec (.decrypt 0 0 0)
      { runningState 0x00000003 with block := #v[0xF517910F, 0x2FBBEC11, 0x5F5AB08B, 0xE37F485E] }) =
    some sampleBlock := by decide +kernel

/-- The stages under COLUMN_MAJOR (95_test_vectors.md section 4). -/
theorem test_column_major_shiftRows : setBlk (shiftRows .columnMajor (blk sampleBlock)) =
    #v[0x0055AAFF, 0x4499EE33, 0x88DD2277, 0xCC1166BB] := by decide +kernel
theorem test_column_major_mixColumns : setBlk (mixColumns .columnMajor (blk sampleBlock)) =
    #v[0x22770055, 0x66334411, 0xAAFF88DD, 0xEEBBCC99] := by decide +kernel

/-- The machine under other parameters (R11): the stage command under COLUMN_MAJOR (95_test_vectors.md section 4), and the
init sequence under FIPS_ROTATE (R199). -/
theorem test_execFor_column_major_shiftRows :
    blockAfter (execFor { sboxVariant := .srcShiftSeq, stateLayout := .columnMajor } (.shiftRows 0 0 0)
      (runningState 0x00000022)) = some #v[0x0055AAFF, 0x4499EE33, 0x88DD2277, 0xCC1166BB] := by decide +kernel
theorem test_stepFor_fips_rotate_init :
    nextWith (stepFor { sboxVariant := .fipsRotate, stateLayout := .rowMajor } { State.reset with delay := 0 })
      (fun t => lookup t.sbox 0x01 == 0x7C#8 && lookup t.isbox 0x7C == 0x01#8) = true := by decide +kernel

/-! ### Offers, errors and the register space (95_test_vectors.md section 8) -/

theorem test_encrypt_without_key : nextWith (offerCommand 0x00000002 idleState)
    (fun t => memRead 0x008 t == 0x0000000A#32 && memRead 0x00C t == 3#32) = true := by decide
theorem test_addRoundKey_12_is_bad_round_first : nextWith (offerCommand 0x00000C20 idleState)
    (fun t => memRead 0x008 t == 0x0000000A#32 && memRead 0x00C t == 4#32) = true := by decide
theorem test_reserved_field_before_no_key : nextWith (offerCommand 0x00001002 idleState)
    (fun t => memRead 0x00C t == 1#32) = true := by decide
theorem test_gfInv_zero_accepted : nextWith (offerCommand 0x00000011 idleState)
    (fun t => t.status.busy && t.status.err && t.errCause == 5#4 && t.cur == 0x11#32) = true := by decide
theorem test_first_error_kept : nextWith (offerCommand 0x000000FF (raiseErr .noKey idleState))
    (fun t => t.errCause == 3#4) = true := by decide
theorem test_read_round_key_window : memRead 0xCAC keyedState = 0x5151B236 ∧ memRead 0xCB0 keyedState = 0 := by decide
theorem test_read_unaligned_id : memRead 0x003 keyedState = 0x4F414553 := by decide
theorem test_read_rcon_while_busy : memRead 0xD20 (runningState 0) = 0x1B ∧ memRead 0xC00 (runningState 0) = 0 := by decide
theorem test_key_write_clears_keyReady :
    nextWith (memWrite 0x02C 0x0C0D0E0F keyedState) (fun t => memRead 0x008 t == 0x00000002#32) = true := by decide
theorem test_status_write_bit0_ignored :
    nextWith (memWrite 0x008 0x00000001 (raiseErr .noKey idleState)) (fun t => t.status.err) = true := by decide

/-! ### Steps -/

/-- A command word placed where the step fetches runs as the first step after reset. -/
theorem test_fetch_word_runs : nextWith (step (State.reset.withFetchWord 32 0x00530011)) (fun t => t.result == 0xCA#8) = true := by
  decide

/-- The host's write of a command starts it (R359). -/
theorem test_host_write_starts_command :
    nextWith (step { keyedState with host := [.wr 0x004 0x00000002] }) (fun t => t.status.busy && t.phase == .run) = true := by
  decide

/-- WAIT stays while BUSY = 1 (R139). -/
theorem test_wait_stays : nextWith (step (waitingState [.wait])) (fun t => t.host == [.wait] && t.delay == 1) = true := by decide

/-- Asserting reset abandons a command (R403). -/
theorem test_reset_abandons : nextWith (step (waitingState [.assertReset]))
    (fun t => t.phase == .init && t.key == Vector.replicate 4 0 && t.resetActive) = true := by decide

/-! ### Host procedures (95_test_vectors.md sections 1 and 6) -/

theorem test_normKey : (normKey [0x61, 0x62, 0x63]).take 5 = [0x61, 0x62, 0x63, 0x00, 0x00] := by decide
theorem test_pad_hello : pad [0x48, 0x45, 0x4C, 0x4C, 0x4F] =
    [0x48, 0x45, 0x4C, 0x4C, 0x4F, 11, 11, 11, 11, 11, 11, 11, 11, 11, 11, 11] := by decide
theorem test_unpad_bad_pad : unpad [0x41, 0x01, 0x02] = [0x41, 0x01, 0x02] := by decide
theorem test_decryptMsg_17 : (decryptMsg (List.replicate 17 0)).isOk = false := by decide

/-! ### Witnesses: states and operands that meet the hypotheses of the statements -/

theorem isRunning_runningState (w : Word) : isRunning (runningState w) := ⟨rfl, rfl⟩
theorem notBusy_idleState : notBusy idleState := rfl
theorem notBusy_keyedState : notBusy keyedState := rfl

/-- A state after init with the tables built by the model's own functions. -/
def goodState : State := { idleState with sbox := fwdTable sboxVariant, isbox := invTable sboxVariant }

theorem inv_goodState : Inv goodState where
  busy := Iff.intro (fun h => absurd h Bool.false_ne_true) (fun h => absurd rfl h)
  initDone := Iff.intro (fun _ h => nomatch h) (fun _ => rfl)
  tables := fun _ i => ⟨by simp [goodState, lookup, fwdTable], rfl⟩
  roundKeys := fun h => absurd h Bool.false_ne_true
  keyTables := fun h => absurd h Bool.false_ne_true
  current := fun h => nomatch h
  error := ⟨Iff.intro (fun h => absurd h Bool.false_ne_true) (fun h => absurd rfl h), Nat.zero_le _⟩
  reset := fun h => absurd h Bool.false_ne_true

/-- A good state in which SUB_BYTES is running, with a host step before its completion and a program behind it. -/
def goodRunning (acts : List HostAct) : State := { withCommandInCur 0x00000021 goodState with delay := 1, host := acts }

theorem inv_goodRunning (acts : List HostAct) : Inv (goodRunning acts) where
  busy := Iff.intro (fun _ h => nomatch h) (fun _ => rfl)
  initDone := Iff.intro (fun _ h => nomatch h) (fun _ => rfl)
  tables := fun _ i => ⟨by simp [goodRunning, goodState, withCommandInCur, lookup, fwdTable], rfl⟩
  roundKeys := fun h => absurd h Bool.false_ne_true
  keyTables := fun h => absurd h Bool.false_ne_true
  current := fun _ => ⟨.subBytes 0 0 0, (by decide : decode 0x00000021 = .ok (.subBytes 0 0 0)), rfl⟩
  error := ⟨Iff.intro (fun h => absurd h Bool.false_ne_true) (fun h => absurd rfl h), Nat.zero_le _⟩
  reset := fun h => absurd h Bool.false_ne_true

/-- The state right after reset is good under every SBOX_VARIANT. -/
theorem invFor_reset (v : Config.SboxVariant) : InvFor v State.reset where
  busy := Iff.intro (fun _ h => nomatch h) (fun _ => rfl)
  initDone := Iff.intro (fun h => absurd h Bool.false_ne_true) (fun h => absurd rfl h)
  tables := fun h => absurd h Bool.false_ne_true
  roundKeys := fun h => absurd h Bool.false_ne_true
  keyTables := fun h => absurd h Bool.false_ne_true
  current := fun h => nomatch h
  error := ⟨Iff.intro (fun h => absurd h Bool.false_ne_true) (fun h => absurd rfl h), Nat.zero_le _⟩
  reset := fun h => absurd h Bool.false_ne_true

theorem witness_DecodedFieldsAreTheWordsFields : decode 0x83570010 = .ok (.gfMul 0 0x57 0x83) := by decide
theorem witness_IllegalWordsAreRejected :
    notBusy idleState ∧ decode 0x00001000 = .error .reservedFieldNotZero ∧ decode 0x00000034 = .error .undefinedOpcode :=
  ⟨rfl, by decide, by decide⟩
theorem witness_UnusedFieldsDoNotMatter : (runningState 0x00000021).status.busy = true ∧ notBusy idleState := ⟨rfl, rfl⟩
theorem witness_StepRunsTheDecodedCommand_core :
    (runningState 0x00000021).resetActive = false ∧ isRunning (runningState 0x00000021) ∧
    (runningState 0x00000021).delay = 0 ∧ decode (runningState 0x00000021).cur = .ok (.subBytes 0 0 0) :=
  ⟨rfl, ⟨rfl, rfl⟩, rfl, by decide⟩
theorem witness_StepRunsTheDecodedCommand_host : ∃ s : State, s.resetActive = false ∧ notBusy s ∧
    s.host = [.wr 0x1006 0x00000021] ∧ off 0x1006 = 0x004 ∧ decode 0x00000021 = .ok (.subBytes 0 0 0) :=
  ⟨{ idleState with host := [.wr 0x1006 0x00000021] }, rfl, rfl, rfl, by decide, by decide⟩
/-- A write, a read, a WAIT and an empty list at the host's turn, busy and not. -/
theorem witness_StepRunsTheDecodedCommand_acts : coreMoves (waitingState [.wr 0x030 1]) = false ∧
    coreMoves { idleState with host := [.wr 0xFFF 1] } = false ∧ coreMoves (waitingState [.rd 0x030]) = false ∧
    coreMoves { idleState with host := [.rd 0x000] } = false ∧ coreMoves (waitingState [.wait]) = false ∧
    coreMoves { idleState with host := [.wait] } = false ∧ coreMoves (waitingState []) = false := by decide
theorem witness_InitSequenceBuildsTheTables : ∃ s : State, s.resetActive = false ∧ s.status.busy = true ∧ s.phase = .init ∧
    s.delay = 0 := ⟨{ State.reset with delay := 0 }, rfl, rfl, rfl, rfl⟩

/-- Every command rule: offered idle, running, offered busy, and offered idle with RSV not 0. -/
theorem witness_command_rules : notBusy idleState ∧ isRunning (runningState 0x00000010) ∧
    (0x00000010 : Word).extractLsb' 0 8 = 0x10#8 ∧ (runningState 0x00000010).status.busy = true ∧
    (0x0000F010 : Word).extractLsb' 0 8 = 0x10#8 ∧ (0x0000F010 : Word).extractLsb' 12 4 ≠ 0#4 :=
  ⟨rfl, ⟨rfl, rfl⟩, by decide, rfl, by decide, by decide⟩
theorem witness_KeyExpand_write : (runningState 0x00000001).resetActive = false ∧ isRunning (runningState 0x00000001) :=
  ⟨rfl, rfl, rfl⟩
theorem witness_GfInvInvertsIntoResult : notBusy idleState ∧ (0x01 : Byte) ≠ 0 := ⟨rfl, by decide⟩
theorem witness_keyed_commands : notBusy keyedState ∧ keyedState.status.keyReady = true ∧ notBusy idleState ∧
    idleState.status.keyReady = false := ⟨rfl, rfl, rfl, rfl⟩
theorem witness_NopChangesNothing : notBusy idleState ∧ idleState.phase = .idle := ⟨rfl, rfl⟩
theorem witness_AddRoundKeyXorsTheGroup : notBusy keyedState ∧ 10 < (11 : BitVec 4).toNat ∧ (10 : BitVec 4).toNat ≤ 10 ∧
    keyedState.status.keyReady = true ∧ idleState.status.keyReady = false ∧ isRunning (runningState 0x00000A20) :=
  ⟨rfl, by decide, by decide, rfl, rfl, ⟨rfl, rfl⟩⟩
theorem witness_rows_of_equal_bytes : ∀ r : Fin 4, ∃ x, (#v[0x11111111, 0, 0x33333333, 0xFFFFFFFF] : Quad)[r] = wordOf x x x x := by
  intro r
  match r with
  | 0 => exact ⟨0x11, by decide⟩
  | 1 => exact ⟨0, by decide⟩
  | 2 => exact ⟨0x33, by decide⟩
  | 3 => exact ⟨0xFF, by decide⟩
theorem witness_CommandFrame : isRunning (runningState 0x00000021) ∧
    ∃ t, exec (.subBytes 0 0 0) (runningState 0x00000021) = .next t :=
  ⟨⟨rfl, rfl⟩, (nextWith_spec (p := fun t => t.phase == .idle) (by decide)).imp fun _ h => h.1⟩
theorem witness_FirstErrorKeptAndNeverBlocks : (raiseErr .noKey idleState).status.err = true ∧ idleState.status.err = false ∧
    notBusy idleState ∧ (∃ t, offerCommand 0x21 idleState = .next t) ∧
    (∃ u, offerCommand 0x21 { idleState with errCause := 3, status := { idleState.status with err := true } } = .next u) ∧
    isRunning (runningState 0x00000010) ∧ (∃ t, exec (.gfMul 0 0 0) (runningState 0x00000010) = .next t) :=
  ⟨rfl, rfl, rfl, (nextWith_spec (p := fun t => t.status.busy) (by decide)).imp fun _ h => h.1,
    (nextWith_spec (p := fun t => t.status.busy) (by decide)).imp fun _ h => h.1, ⟨rfl, rfl⟩,
    (nextWith_spec (p := fun t => t.phase == .idle) (by decide)).imp fun _ h => h.1⟩
theorem witness_ErrIsCleared_write : (raiseErr .noKey idleState).resetActive = false ∧ off 0x00B = 0x008 ∧
    (0x00000008 : Word).getLsbD 3 = true ∧ (0x00000007 : Word).getLsbD 3 = false := by decide
theorem witness_WritesWhileBusyAreDropped : (runningState 0).resetActive = false ∧ (runningState 0).status.busy = true ∧
    off 0x004 = 0x004 ∧ (0x020 ≤ off 0x020 ∧ off 0x03C ≤ 0x03C) ∧ off 0x01C ≠ 0x004 ∧
    ¬ (0x020 ≤ off 0x01C ∧ off 0x01C ≤ 0x03C) ∧ ¬ (0x020 ≤ off 0x040 ∧ off 0x040 ≤ 0x03C) := by decide
theorem witness_Busy_set : ∃ s t : State, step s = .next t ∧ s.status.busy = false ∧ t.status.busy = true :=
  (nextWith_spec (r := step { keyedState with host := [.wr 0x004 0x00000002] }) (p := fun t => t.status.busy)
    (by decide)).elim fun t h => ⟨_, t, h.1, rfl, h.2⟩
theorem witness_Busy_cleared : ∃ s t : State, step s = .next t ∧ s.status.busy = true ∧ t.status.busy = false :=
  (nextWith_spec (r := step (runningState 0x00000000)) (p := fun t => !t.status.busy) (by decide)).elim
    fun t h => ⟨_, t, h.1, rfl, by simpa using h.2⟩
theorem witness_TablesReady_set : ∃ s t : State, coreMoves s = true ∧ s.phase = .init ∧ step s = .next t ∧
    s.status.tablesReady = false ∧ t.status.tablesReady = true :=
  (nextWith_spec (r := step { State.reset with delay := 0 }) (p := fun t => t.status.tablesReady) (by decide)).elim
    fun t h => ⟨{ State.reset with delay := 0 }, t, by decide, rfl, h.1, rfl, h.2⟩
theorem witness_TablesReady_cleared : ∃ s t : State, step s = .next t ∧ s.status.tablesReady = true ∧
    t.status.tablesReady = false :=
  (nextWith_spec (r := step { keyedState with host := [.assertReset] }) (p := fun t => !t.status.tablesReady)
    (by decide)).elim fun t h => ⟨_, t, h.1, rfl, by simpa using h.2⟩
theorem witness_TablesReady_accepted : Inv goodState ∧ goodState.phase ≠ .run ∧
    ∃ t, offerCommand 0x00000021 goodState = .next t ∧ t.phase = .run :=
  ⟨inv_goodState, (fun h => nomatch h),
    (nextWith_spec (r := offerCommand 0x00000021 goodState) (p := fun t => t.phase == .run) rfl).imp
      fun _ h => ⟨h.1, by simpa using h.2⟩⟩
theorem witness_KeyReady_set : ∃ s t : State, coreMoves s = true ∧ s.phase = .run ∧
    decode s.cur = .ok (.keyExpand 0 0 0) ∧ step s = .next t ∧ s.status.keyReady = false ∧ t.status.keyReady = true :=
  (nextWith_spec (r := step (withCommandInCur 0x00000001 idleState)) (p := fun t => t.status.keyReady) (by decide)).elim
    fun t h => ⟨withCommandInCur 0x00000001 idleState, t, by decide, rfl, by decide, h.1, rfl, h.2⟩
theorem witness_KeyReady_cleared : ∃ s t : State, step s = .next t ∧ s.status.keyReady = true ∧ t.status.keyReady = false ∧
    notBusy s :=
  (nextWith_spec (r := step { keyedState with host := [.wr 0x02C 0] }) (p := fun t => !t.status.keyReady)
    (by decide)).elim fun t h => ⟨_, t, h.1, rfl, by simpa using h.2, rfl⟩
theorem witness_KeyReady_write : keyedState.resetActive = false ∧ notBusy keyedState ∧ 0x020 ≤ off 0x020 ∧
    off 0x02C ≤ 0x02C ∧ ∃ t, memWrite 0x02C 0 keyedState = .next t :=
  ⟨rfl, rfl, by decide, by decide, (nextWith_spec (p := fun t => !t.status.keyReady) (by decide)).imp fun _ h => h.1⟩
theorem witness_KeyReady_rejected : notBusy idleState ∧ idleState.status.keyReady = false ∧
    ((0x00000F20 : Word).extractLsb' 0 8).toNat ∈ [0x02, 0x03, 0x20] := ⟨rfl, rfl, by decide⟩
theorem witness_ErrIsClearedByStatusWritesOnly : ∃ s t : State, step s = .next t ∧ s.status.err = true ∧ t.status.err = false :=
  (nextWith_spec (r := step { raiseErr .noKey idleState with host := [clrErrLine] }) (p := fun t => !t.status.err)
    (by decide)).elim fun t h => ⟨_, t, h.1, rfl, by simpa using h.2⟩
theorem witness_Err_command : ∃ t, exec (.nop 0 0 0) (raiseErr .busy (runningState 0)) = .next t ∧
    (raiseErr .busy (runningState 0)).status.err = true :=
  (nextWith_spec (p := fun t => t.status.err) (by decide)).imp fun _ h => ⟨h.1, rfl⟩
theorem witness_Key_changed : ∃ s t : State, step s = .next t ∧ t.key ≠ s.key :=
  (nextWith_spec (r := step { idleState with host := [.wr 0x020 1] }) (p := fun t => t.key[0] == 1#32) (by decide)).elim
    fun t h => ⟨{ idleState with host := [.wr 0x020 1] }, t, h.1, fun e => by
      have h2 := h.2; rw [e] at h2; exact absurd h2 (by decide)⟩
theorem witness_Result_changed : ∃ s t : State, step s = .next t ∧ t.result ≠ s.result :=
  (nextWith_spec (r := step (runningState 0x83570010)) (p := fun t => t.result == 0xC1#8) (by decide)).elim
    fun t h => ⟨runningState 0x83570010, t, h.1, fun e => by
      have h2 := h.2; rw [e] at h2; exact absurd h2 (by decide)⟩
theorem witness_State_changed : ∃ s t : State, step s = .next t ∧ t.block ≠ s.block :=
  (nextWith_spec (r := step { idleState with host := [.wr 0x03C 1] }) (p := fun t => t.block[3] == 1#32) (by decide)).elim
    fun t h => ⟨{ idleState with host := [.wr 0x03C 1] }, t, h.1, fun e => by
      have h2 := h.2; rw [e] at h2; exact absurd h2 (by decide)⟩
theorem witness_Tables_changed : ∃ s t : State, step s = .next t ∧ t.sbox ≠ s.sbox :=
  (nextWith_spec (r := step { State.reset with delay := 0 }) (p := fun t => t.sbox[0] == 0x63#8) (by decide +kernel)).elim
    fun t h => ⟨{ State.reset with delay := 0 }, t, h.1, fun e => by
      have h2 := h.2; rw [e] at h2; exact absurd h2 (by decide)⟩
theorem witness_RoundKeys_changed : ∃ s t : State, step s = .next t ∧ t.rk ≠ s.rk :=
  (nextWith_spec (r := step { runningState 0x00000001 with key := #v[1, 0, 0, 0] }) (p := fun t => t.rk[0] == 1#32)
    (by decide +kernel)).elim
    fun t h => ⟨{ runningState 0x00000001 with key := #v[1, 0, 0, 0] }, t, h.1, fun e => by
      have h2 := h.2; rw [e] at h2; exact absurd h2 (by decide)⟩
theorem witness_Cur_changed : ∃ s t : State, step s = .next t ∧ t.cur ≠ s.cur :=
  (nextWith_spec (r := step { keyedState with host := [.wr 0x004 0x00000002] }) (p := fun t => t.cur == 2#32) (by decide)).elim
    fun t h => ⟨{ keyedState with host := [.wr 0x004 0x00000002] }, t, h.1, fun e => by
      have h2 := h.2; rw [e] at h2; exact absurd h2 (by decide)⟩
theorem witness_OnlyAddressBits11To2Matter : (3 : Nat) < 4 ∧ (1023 : Nat) < 1024 := by decide
theorem witness_Reserved_ranges : off 0x014 = 0x014 ∧ off 0x01F = 0x01C ∧ off 0x040 = 0x040 ∧ off 0x3FC = 0x3FC ∧
    off 0xCB0 = 0xCB0 ∧ off 0xCFC = 0xCFC ∧ off 0xD28 = 0xD28 ∧ off 0xFFC = 0xFFC ∧ off 0x1000 = 0x000 ∧ off 0x00C = 0x00C ∧
    off 0x010 = 0x010 ∧ off 0x400 = 0x400 ∧ off 0xCAC = 0xCAC ∧ off 0xD00 = 0xD00 ∧ off 0xD24 = 0xD24 ∧
    off 0x008 = 0x008 ∧ (0x00000007 : Word).getLsbD 3 = false := by decide
theorem witness_Reset_asserted : ∃ s : State, coreMoves s = false ∧ s.host = [.assertReset, .releaseReset] :=
  ⟨waitingState [.assertReset, .releaseReset], by decide, rfl⟩
theorem witness_Reset_held : ∃ s t : State, s = heldInReset s ∧ s.resetActive = true ∧ s.host.head? ≠ some .releaseReset ∧
    step s = .next t :=
  (nextWith_spec (r := step (heldInReset (waitingState [.rd 0x000]))) (p := fun t => t.resetActive) (by decide)).elim
    fun t h => ⟨_, t, rfl, rfl, by decide, h.1⟩
theorem witness_Reset_released : ∃ s : State, s.resetActive = true ∧ s.host = [.releaseReset] :=
  ⟨heldInReset (waitingState [.releaseReset]), rfl, rfl⟩
theorem witness_EveryStepKeepsTheInvariant : Inv (goodRunning [.wr 0x004 0x00000002]) ∧
    ∃ t, step (goodRunning [.wr 0x004 0x00000002]) = .next t :=
  ⟨inv_goodRunning _, (nextWith_spec (p := fun t => t.status.err) (by decide)).imp fun _ h => h.1⟩
theorem witness_EveryStepKeepsTheInvariant_parameters : InvFor .fipsRotate State.reset ∧
    ∃ t, stepFor { sboxVariant := .fipsRotate, stateLayout := .columnMajor }
      { State.reset with delay := 1, host := [.rd 0x000] } = .next t :=
  ⟨invFor_reset _, (nextWith_spec (p := fun t => t.delay == 0) (by decide)).imp fun _ h => h.1⟩
theorem witness_NoGoodStateStops : Inv (goodRunning []) := inv_goodRunning []
theorem witness_Gmul_zero_product : gmul 0x53 0x00 = 0 := by decide
theorem witness_GinvIsTheInverse : (0xFF : Byte) ≠ 0 ∧ gmul 0x53 0xCA = 1 := by decide
theorem witness_AffineIsAPrefixParity : (7 : Nat) < 8 ∧ aff .srcShiftSeq 0x53 = aff .srcShiftSeq 0x53 := ⟨by decide, rfl⟩
theorem witness_Expand_indices : 4 ≤ 43 ∧ 43 < 44 ∧ 43 % 4 ≠ 0 ∧
    ∀ j : Fin 4, (expand (Vector.replicate 256 0) sampleKey)[40 + j.val] = (expand (Vector.replicate 256 0) sampleKey)[40 + j.val] :=
  ⟨by decide, by decide, by decide, fun _ => rfl⟩
theorem witness_StageCommandsEqualThePipelines : notBusy keyedState ∧ keyedState.phase = .idle ∧
    keyedState.status.keyReady = true := ⟨rfl, rfl, rfl⟩
/-- Two busy states with different data. -/
theorem witness_NothingIsObservedBeforeCompletion : ∃ s t : State, s.status.busy = true ∧ sameWhileBusy s t ∧ s.host = t.host ∧
    s.reads = t.reads ∧ s.delay = t.delay ∧ 2 ≤ s.delay ∧ noResetEdge (s.host.take 2) ∧ s.block ≠ t.block ∧ s.cur ≠ t.cur :=
  ⟨waitingState [.rd 0x030, .wr 0x004 2], { waitingState [.rd 0x030, .wr 0x004 2] with cur := 0x22, block := sampleKey },
    rfl, ⟨rfl, rfl, rfl⟩, rfl, rfl, rfl, by decide, by unfold noResetEdge; decide, by decide, by decide⟩
theorem witness_EveryBusyPeriodEnds : Inv (goodRunning [.wait]) ∧ (goodRunning [.wait]).resetActive = false ∧
    (goodRunning [.wait]).status.busy = true ∧ noResetEdge ((goodRunning [.wait]).host.take (goodRunning [.wait]).delay) :=
  ⟨inv_goodRunning _, rfl, rfl, by unfold noResetEdge; decide⟩
theorem witness_WaitEnds : Inv (goodRunning [.wait, .rd 0x030]) ∧ (goodRunning [.wait, .rd 0x030]).resetActive = false ∧
    (goodRunning [.wait, .rd 0x030]).host = .wait :: [.rd 0x030] := ⟨inv_goodRunning _, rfl, rfl⟩
theorem witness_WriteAndCompletionInBothOrders : ∃ s t : State, s.resetActive = false ∧ isRunning s ∧
    decode s.cur = .ok (.subBytes 0 0 0) ∧ exec (.subBytes 0 0 0) s = .next t ∧ s.host = [.wr (0x030 + 4 * 0) 0] :=
  (nextWith_spec (r := exec (.subBytes 0 0 0) (waitingState [.wr 0x030 0])) (p := fun t => t.phase == .idle) (by decide)).elim
    fun t h => ⟨waitingState [.wr 0x030 0], t, rfl, ⟨rfl, rfl⟩, by decide, h.1, rfl⟩
theorem witness_HostPaddingAndKeys : ((0x00 : Byte).toNat = 0) ∧ 16 < (0x11 : Byte).toNat ∧
    1 ≤ (0x10 : Byte).toNat ∧ (0x10 : Byte).toNat ≤ 16 ∧ ([0x41] ++ [0x03] : List Byte).length < (0x03 : Byte).toNat ∧
    (0x01 : Byte) ≠ 0x02 ∧ ([0x01] : List Byte).length < (0x02 : Byte).toNat ∧ (15 : Nat) < 16 := by decide

end Sys2Proof.Tests
end

section
/-! PROOFS. Until the completion the host learns nothing of the data (00_scope.md R5, 10_state.md R52, 20_memory.md R87): the
relation "the host cannot tell the two states apart" is kept by every host act that may fall in a busy period. -/

namespace Sys2Proof.Machine

open Sys2Proof.Safety

/-! ### Runs -/

/-- A run of one step more is the step and then the run. -/
theorem run_succ (M : Host.Core) {s s' : M.State} (n : Nat) (h : M.step s = .next s') : M.run (n + 1) s = M.run n s' := by
  simp only [Host.Core.run, h]

/-- The core does not move while host steps are left to the busy period (log 1). -/
theorem coreMoves_of_delay {s : State} (h : s.delay ≠ 0) : coreMoves s = false := by simp [coreMoves, h]

/-! ### Acts without a reset edge -/

theorem noResetEdge_take_of_le {acts : List HostAct} {m n : Nat} (h : noResetEdge (acts.take n)) (hmn : m ≤ n) :
    noResetEdge (acts.take m) := fun a ha => h a (List.take_subset_take_left acts hmn ha)

theorem noResetEdge_take_tail {acts : List HostAct} {n : Nat} (h : noResetEdge (acts.take (n + 1))) :
    noResetEdge (acts.tail.take n) := by
  cases acts with
  | nil => simp [noResetEdge]
  | cons b rest => exact fun a ha => h a (List.mem_cons_of_mem b ha)

/-! ### A host step, by the next act -/

theorem hostStep_nil {s : State} (h : s.host = []) : hostStep s = .next (slotPassed s) := by
  simp only [hostStep, hostStepBy, h]

theorem hostStep_wr {s : State} {addr : Nat} {v : Word} {rest : List HostAct} (h : s.host = .wr addr v :: rest) :
    hostStep s = memWrite addr v (popHost (slotPassed s)) := by
  simp only [hostStep, hostStepBy, h, memWrite]

theorem hostStep_rd {s : State} {addr : Nat} {rest : List HostAct} (h : s.host = .rd addr :: rest) :
    hostStep s = .next { popHost (slotPassed s) with reads := s.reads ++ [memRead addr s] } := by
  simp only [hostStep, hostStepBy, h]

theorem hostStep_wait {s : State} {rest : List HostAct} (h : s.host = .wait :: rest) :
    hostStep s = .next (if (memRead 0x008 s).getLsbD 0 then slotPassed s else popHost (slotPassed s)) := by
  simp only [hostStep, hostStepBy, h]

/-! ### Host accesses while BUSY = 1 -/

@[simp] theorem unlessBusy_busy (v : Word) (s : State) (h : s.status.busy = true) : unlessBusy s v = 0 := by
  simp [unlessBusy, h]

/-- A busy state shows its STATUS and its ERR_CAUSE, and no data (R87). -/
theorem readTarget_busy_congr {s t : State} (hb : s.status.busy = true) (hs : s.status = t.status)
    (he : s.errCause = t.errCause) (x : Target) : readTarget s x = readTarget t x := by
  have hbt : t.status.busy = true := hs ▸ hb
  cases x with
  | status => exact congrArg statusWord hs
  | errCause => exact congrArg (BitVec.setWidth 32) he
  | result | key | block | sboxWindow | isboxWindow | rkWindow => simp [readTarget, hb, hbt]
  | id | cmd | rconWindow | reserved => rfl

/-- A write to a busy core is ignored, dropped with error BUSY or a clear of the error record, and which of these it is depends
on the access and the reset input only (R90, R353, R360). -/
theorem memWrite_busy_uniform (addr : Nat) (v : Word) (r : Bool) :
    ∃ f : State → State, (f = id ∨ f = raiseErr .busy ∨ f = clearErr) ∧
      ∀ s : State, s.resetActive = r → s.status.busy = true → memWrite addr v s = .next (f s) := by
  cases r with
  | true => exact ⟨id, .inl rfl, fun s hr _ => by simp [memWrite, memWriteBy, hr]⟩
  | false =>
    cases ht : target addr with
    | cmd | key | block =>
      exact ⟨_, .inr (.inl rfl), fun s hr hb => by simp [memWrite, memWriteBy, offerCommandBy, hr, ht, hb]⟩
    | status =>
      cases hv : v.getLsbD 3 with
      | true => exact ⟨_, .inr (.inr rfl), fun s hr _ => by simp [memWrite, memWriteBy, writeStatus, hr, ht, hv]⟩
      | false => exact ⟨_, .inl rfl, fun s hr _ => by simp only [memWrite, memWriteBy, writeStatus, hr, ht, hv]; rfl⟩
    | id | errCause | result | sboxWindow | isboxWindow | rkWindow | rconWindow | reserved =>
      exact ⟨_, .inl rfl, fun s hr _ => by simp [memWrite, memWriteBy, hr, ht]⟩

/-! ### What the host cannot tell apart -/

/-- Two busy states that agree on all a host can see of them and on the host's own side. -/
structure AlikeWhileBusy (s t : State) : Prop where
  busy : s.status.busy = true
  same : sameWhileBusy s t
  host : s.host = t.host
  reads : s.reads = t.reads
  delay : s.delay = t.delay

namespace AlikeWhileBusy

variable {s t : State}

theorem resetActive (h : AlikeWhileBusy s t) : s.resetActive = t.resetActive := h.same.1
theorem status (h : AlikeWhileBusy s t) : s.status = t.status := h.same.2.1
theorem errCause (h : AlikeWhileBusy s t) : s.errCause = t.errCause := h.same.2.2
theorem busy_right (h : AlikeWhileBusy s t) : t.status.busy = true := h.status ▸ h.busy

/-- Both give the same answer to every read (R52). -/
theorem memRead_eq (h : AlikeWhileBusy s t) (addr : Nat) : memRead addr s = memRead addr t := by
  simp only [memRead, h.resetActive, readTarget_busy_congr h.busy h.status h.errCause]

theorem slotPassed (h : AlikeWhileBusy s t) : AlikeWhileBusy (slotPassed s) (slotPassed t) where
  busy := by simpa using h.busy
  same := by simpa [sameWhileBusy] using h.same
  host := by simpa using h.host
  reads := by simpa using h.reads
  delay := by simp [slotPassed_delay, h.status, h.delay]

theorem popHost (h : AlikeWhileBusy s t) : AlikeWhileBusy (popHost s) (popHost t) :=
  { h with host := congrArg List.tail h.host }

theorem raiseErr (h : AlikeWhileBusy s t) (e : Err) : AlikeWhileBusy (raiseErr e s) (raiseErr e t) :=
  { h with same := by simp [sameWhileBusy, h.resetActive, h.status, h.errCause] }

theorem clearErr (h : AlikeWhileBusy s t) : AlikeWhileBusy (clearErr s) (clearErr t) :=
  { h with same := by simp [sameWhileBusy, h.resetActive, h.status] }

/-- The host takes in the same word from both. -/
theorem readBack (h : AlikeWhileBusy s t) (w : Word) :
    AlikeWhileBusy { s with reads := s.reads ++ [w] } { t with reads := t.reads ++ [w] } :=
  { h with reads := congrArg (· ++ [w]) h.reads }

/-- A write does the same to both, and takes nothing from the host's list or the busy period. -/
theorem memWrite (h : AlikeWhileBusy s t) (addr : Nat) (v : Word) :
    ∃ s' t', memWrite addr v s = .next s' ∧ memWrite addr v t = .next t' ∧ AlikeWhileBusy s' t' ∧
      s'.delay = s.delay ∧ s'.host = s.host := by
  obtain ⟨f, hf, hw⟩ := memWrite_busy_uniform addr v s.resetActive
  refine ⟨f s, f t, hw s rfl h.busy, hw t h.resetActive.symm h.busy_right, ?_⟩
  rcases hf with rfl | rfl | rfl
  · exact ⟨h, rfl, rfl⟩
  · exact ⟨h.raiseErr .busy, rfl, rfl⟩
  · exact ⟨h.clearErr, rfl, rfl⟩

/-- A host step that is no reset edge leaves the two alike; it uses up one place of the busy period, and at most one act of the
host's list. -/
theorem hostStep (h : AlikeWhileBusy s t) (hedge : noResetEdge (s.host.take 1)) :
    ∃ s' t', hostStep s = .next s' ∧ hostStep t = .next t' ∧ AlikeWhileBusy s' t' ∧
      s'.delay = s.delay - 1 ∧ (s'.host = s.host ∨ s'.host = s.host.tail) := by
  have hdelay : (Machine.slotPassed s).delay = s.delay - 1 := by simp [slotPassed_delay, h.busy]
  have hslot := h.slotPassed
  have hpop := hslot.popHost
  have hhost := h.host
  rcases hs : s.host with _ | ⟨act, rest⟩
  · exact ⟨_, _, hostStep_nil hs, hostStep_nil (hhost ▸ hs), hslot, hdelay, .inl (by simp [hs])⟩
  cases act with
  | wr addr v =>
    obtain ⟨s', t', hws, hwt, halike, hd, hh⟩ := hpop.memWrite addr v
    exact ⟨s', t', (hostStep_wr hs).trans hws, (hostStep_wr (hhost ▸ hs)).trans hwt, halike, hd.trans hdelay,
      .inr (by simpa [hs] using hh)⟩
  | rd addr =>
    refine ⟨_, _, hostStep_rd hs, hostStep_rd (hhost ▸ hs), ?_, hdelay, .inr (by simp [hs])⟩
    simpa [h.memRead_eq] using hpop.readBack (memRead addr t)
  | wait =>
    refine ⟨_, _, hostStep_wait hs, hostStep_wait (hhost ▸ hs), ?_⟩
    rw [← h.memRead_eq]
    split
    · exact ⟨hslot, hdelay, .inl (by simp [hs])⟩
    · exact ⟨hpop, hdelay, .inr (by simp [hs])⟩
  | assertReset => exact absurd rfl (hedge .assertReset (by simp [hs])).1
  | releaseReset => exact absurd rfl (hedge .releaseReset (by simp [hs])).2

/-- The two stay alike over every number of host steps before the completion. -/
theorem run (n : Nat) (h : AlikeWhileBusy s t) (hn : n ≤ s.delay) (hedge : noResetEdge (s.host.take n)) :
    ∃ s' t', Host.Core.run core n s = .next s' ∧ Host.Core.run core n t = .next t' ∧ AlikeWhileBusy s' t' := by
  induction n generalizing s t with
  | zero => exact ⟨s, t, rfl, rfl, h⟩
  | succ n ih =>
    have hds : s.delay ≠ 0 := by omega
    have hdt : t.delay ≠ 0 := h.delay ▸ hds
    obtain ⟨s₁, t₁, hs, ht, h₁, hd, hh⟩ := h.hostStep (noResetEdge_take_of_le hedge (by omega))
    have hrs := run_succ core n ((step_host (coreMoves_of_delay hds)).trans hs)
    have hrt := run_succ core n ((step_host (coreMoves_of_delay hdt)).trans ht)
    rw [hrs, hrt]
    refine ih h₁ (by omega) ?_
    rcases hh with hh | hh <;> rw [hh]
    · exact noResetEdge_take_of_le hedge (Nat.le_succ n)
    · exact noResetEdge_take_tail hedge

end AlikeWhileBusy

/-- Settles O55, by induction on the number of host steps: every one keeps the two states alike. -/
theorem nothingIsObservedBeforeCompletion : Obligations.NothingIsObservedBeforeCompletion := by
  intro n s t hbusy hsame hhost hreads hdelay hn hedge
  obtain ⟨s', t', hs, ht, h'⟩ := AlikeWhileBusy.run n ⟨hbusy, hsame, hhost, hreads, hdelay⟩ hn hedge
  exact ⟨s', t', hs, ht, h'.reads, h'.same, h'.host⟩

end Sys2Proof.Machine
end

section
/-! PROOFS. What the decoder's command says of its word (30_encoding.md R131), and which offsets a target of the register
map stands at (20_memory.md R81). -/

namespace Sys2Proof

/-- A row of the opcode map makes a command of its opcode and of the three fields (R127). -/
theorem opcodeMap_command_fields {row : OpcodeRow} (h : row ∈ opcodeMap) (r : BitVec 4) (a b : Byte) :
    (row.command r a b).opcode = row.opc ∧ (row.command r a b).rnd = r ∧ (row.command r a b).opa = a ∧
      (row.command r a b).opb = b := by
  revert row
  simp [opcodeMap, Instr.opcode, Instr.rnd, Instr.opa, Instr.opb]

/-- A word that decodes has RSV = 0, and its other four fields are the command's (R131). -/
theorem fields_of_decode {v : Word} {i : Instr} (h : decode v = .ok i) :
    fieldRsv v = 0 ∧ i.opcode = fieldOpc v ∧ i.rnd = fieldRnd v ∧ i.opa = fieldOpa v ∧ i.opb = fieldOpb v := by
  unfold decode at h
  split at h
  · cases h
  next hrsv =>
    split at h
    · cases h
    next row hrow =>
      cases h
      obtain ⟨hopc, hrest⟩ := opcodeMap_command_fields (List.mem_of_find?_eq_some hrow) (fieldRnd v) (fieldOpa v) (fieldOpb v)
      exact ⟨not_not.mp hrsv, hopc.trans (eq_of_beq (List.find?_some (p := fun r : OpcodeRow => r.opc == fieldOpc v) hrow)), hrest⟩

/-- The word of a decoded command is the word it was decoded from (R131, R132). -/
theorem encode_of_decode {v : Word} {i : Instr} (h : decode v = .ok i) : encode i = v := by
  obtain ⟨hrsv, hopc, hrnd, hopa, hopb⟩ := fields_of_decode h
  obtain ⟨eopc, ernd, ersv, eopa, eopb⟩ := Laws.EncodedFields.of_fields i
  exact word_ext_fields (eopc.trans hopc) (ernd.trans hrnd) (ersv.trans hrsv.symm) (eopa.trans hopa) (eopb.trans hopb)

end Sys2Proof

namespace Sys2Proof.Machine

open Sys2Proof.Statements (off)

theorem off_eq_offsetOf (addr : Nat) : off addr = offsetOf addr := Nat.mul_comm _ _

theorem off_mod_four (addr : Nat) : off addr % 4 = 0 := Nat.mul_mod_left _ _

/-- The map has a target exactly at the offset its name stands for (R81, R134). -/
theorem target_eq_iff_off {addr o : Nat} {x : Target} (hx : regOffset x = some o) : target addr = x ↔ off addr = o := by
  constructor
  · rintro rfl
    rw [off_eq_offsetOf]
    have hcases := targetAt_cases (wordIndex addr)
    simp only [target, offsetOf] at hx ⊢
    generalize 4 * wordIndex addr = w at hcases hx ⊢
    rcases hcases with ⟨hw, ht⟩ | ⟨hw, ht⟩ | ⟨hw, ht⟩ | ⟨hw, ht⟩ | ⟨hw, ht⟩ | ⟨_, hw, ht⟩ | ⟨_, hw, ht⟩ | ⟨_, hw, ht⟩ |
      ⟨_, hw, ht⟩ | ⟨_, hw, ht⟩ | ⟨_, hw, ht⟩ | ⟨-, ht⟩ <;> rw [ht, regOffset] at hx
    case inr.inr.inr.inr.inr.inr.inr.inr.inr.inr.inr => cases hx
    all_goals rw [hw, ← Option.some.inj hx]
  · rintro rfl
    rw [← target_of_regOffset x (off addr) hx]
    apply target_congr
    simp only [wordIndex, off]
    omega

theorem target_cmd_iff {addr : Nat} : target addr = .cmd ↔ off addr = 0x004 := target_eq_iff_off rfl

theorem target_status_iff {addr : Nat} : target addr = .status ↔ off addr = 0x008 := target_eq_iff_off rfl

theorem target_result_iff {addr : Nat} : target addr = .result ↔ off addr = 0x010 := target_eq_iff_off rfl

theorem target_key_iff {addr : Nat} {k : Fin 4} : target addr = .key k ↔ off addr = 0x020 + 4 * k.val :=
  target_eq_iff_off rfl

theorem target_block_iff {addr : Nat} {k : Fin 4} : target addr = .block k ↔ off addr = 0x030 + 4 * k.val :=
  target_eq_iff_off rfl

theorem target_rkWindow_iff {addr : Nat} {j : Fin 44} : target addr = .rkWindow j ↔ off addr = 0xC00 + 4 * j.val :=
  target_eq_iff_off rfl

/-- The KEY registers are at 0x020 to 0x02C. -/
theorem exists_target_key_iff {addr : Nat} : (∃ k, target addr = .key k) ↔ 0x020 ≤ off addr ∧ off addr ≤ 0x02C := by
  have h4 := off_mod_four addr
  simp only [target_key_iff]
  exact ⟨fun ⟨k, hk⟩ => by omega, fun h => ⟨⟨(off addr - 0x020) / 4, by omega⟩, by simp only; omega⟩⟩

/-- The STATE registers are at 0x030 to 0x03C. -/
theorem exists_target_block_iff {addr : Nat} : (∃ k, target addr = .block k) ↔ 0x030 ≤ off addr ∧ off addr ≤ 0x03C := by
  have h4 := off_mod_four addr
  simp only [target_block_iff]
  exact ⟨fun ⟨k, hk⟩ => by omega, fun h => ⟨⟨(off addr - 0x030) / 4, by omega⟩, by simp only; omega⟩⟩

/-- The RK window is at 0xC00 to 0xCAC. -/
theorem exists_target_rkWindow_iff {addr : Nat} :
    (∃ j, target addr = .rkWindow j) ↔ 0xC00 ≤ off addr ∧ off addr ≤ 0xCAC := by
  have h4 := off_mod_four addr
  simp only [target_rkWindow_iff]
  exact ⟨fun ⟨k, hk⟩ => by omega, fun h => ⟨⟨(off addr - 0xC00) / 4, by omega⟩, by simp only; omega⟩⟩

/-- The offsets whose writes a busy core drops (R353) are those of CMD, KEYn and STATEn. -/
theorem target_droppedWhileBusy {addr : Nat} (h : off addr = 0x004 ∨ (0x020 ≤ off addr ∧ off addr ≤ 0x03C)) :
    target addr = .cmd ∨ (∃ k, target addr = .key k) ∨ ∃ k, target addr = .block k := by
  have h4 := off_mod_four addr
  rw [target_cmd_iff, exists_target_key_iff, exists_target_block_iff]
  omega

/-- The offsets that read 0 while BUSY = 1 (R87) are those of the data registers and windows. -/
theorem target_zeroWhileBusy {addr : Nat}
    (h : off addr = 0x010 ∨ (0x020 ≤ off addr ∧ off addr ≤ 0x03C) ∨ (0x400 ≤ off addr ∧ off addr ≤ 0xCAC)) :
    target addr ≠ .id ∧ target addr ≠ .cmd ∧ target addr ≠ .status ∧ target addr ≠ .errCause ∧
      ∀ k, target addr ≠ .rconWindow k := by
  simp only [ne_eq, target_cmd_iff, target_status_iff, target_eq_iff_off (x := .id) rfl,
    target_eq_iff_off (x := .errCause) rfl, target_eq_iff_off (x := .rconWindow _) rfl]
  exact ⟨by omega, by omega, by omega, by omega, fun k => by omega⟩

end Sys2Proof.Machine
end

section
/-! PROOFS. What a step can do to the core, said once for every parameter (20_memory.md R96): the two completions of the core,
what a host write can do, the two reset edges, and the host's own affairs. -/

namespace Sys2Proof.Machine

open Sys2Proof.Safety
open Sys2Proof.Statements (off)

/-! ### The effect of a command -/

section
variable (p : Config.Params) (i : Instr) (s : State)

@[simp] theorem effectFor_resetActive : (effectFor p i s).resetActive = s.resetActive := (effectFor_frame p i s).1

@[simp] theorem effectFor_errCause : (effectFor p i s).errCause = s.errCause := by
  obtain ⟨-, h, -⟩ := effectFor_frame p i s; exact h

@[simp] theorem effectFor_key : (effectFor p i s).key = s.key := by
  obtain ⟨-, -, h, -⟩ := effectFor_frame p i s; exact h

@[simp] theorem effectFor_sbox : (effectFor p i s).sbox = s.sbox := by
  obtain ⟨-, -, -, h, -⟩ := effectFor_frame p i s; exact h

@[simp] theorem effectFor_isbox : (effectFor p i s).isbox = s.isbox := by
  obtain ⟨-, -, -, -, h, -⟩ := effectFor_frame p i s; exact h

@[simp] theorem effectFor_cur : (effectFor p i s).cur = s.cur := by
  obtain ⟨-, -, -, -, -, -, h, -⟩ := effectFor_frame p i s; exact h

@[simp] theorem effectFor_tablesReady : (effectFor p i s).status.tablesReady = s.status.tablesReady := by
  obtain ⟨-, -, -, -, -, -, -, -, -, -, -, -, h, -⟩ := effectFor_frame p i s; exact h

@[simp] theorem effectFor_err : (effectFor p i s).status.err = s.status.err := by
  obtain ⟨-, -, -, -, -, -, -, -, -, -, -, -, -, h⟩ := effectFor_frame p i s; exact h

/-- RK and KEY_READY are KEY_EXPAND's alone (R226). -/
theorem effectFor_keyExpand_or :
    (∃ rnd a b, i = .keyExpand rnd a b) ∨
      ((effectFor p i s).rk = s.rk ∧ (effectFor p i s).status.keyReady = s.status.keyReady) := by
  cases i with
  | keyExpand rnd a b => exact .inl ⟨rnd, a, b, rfl⟩
  | addRoundKey r a b => by_cases h : r.toNat ≤ 10 <;> simp [effectFor, h]
  | _ => exact .inr ⟨rfl, rfl⟩

/-- RESULT is GF_MUL's and GF_INV's alone (R39). -/
theorem effectFor_result_or :
    (∃ rnd a b, i = .gfMul rnd a b ∨ i = .gfInv rnd a b) ∨ (effectFor p i s).result = s.result := by
  cases i with
  | gfMul rnd a b => exact .inl ⟨rnd, a, b, .inl rfl⟩
  | gfInv rnd a b => exact .inl ⟨rnd, a, b, .inr rfl⟩
  | addRoundKey r a b => by_cases h : r.toNat ≤ 10 <;> simp [effectFor, h]
  | _ => exact .inr rfl

/-- STATE is the block and stage commands' alone (R42). -/
theorem effectFor_block_or :
    i.opcode.toNat ∈ [0x02, 0x03, 0x20, 0x21, 0x22, 0x23, 0x31, 0x32, 0x33] ∨ (effectFor p i s).block = s.block := by
  cases i with
  | nop | keyExpand | gfMul | gfInv => exact .inr rfl
  | _ => exact .inl (by simp [Instr.opcode])

end

/-! ### The checks at acceptance -/

/-- A command that R358 does not let through is rejected (R354, R355). -/
theorem verdictOf_reject {i : Instr} {s : State} (h : passesChecks i s = false) : ∃ e, verdictOf i s = .reject e := by
  cases i with
  | encrypt | decrypt => exact ⟨.noKey, by simpa [passesChecks, verdictOf, needsKey] using h⟩
  | addRoundKey r a b =>
    by_cases hr : r.toNat ≤ 10
    · exact ⟨.noKey, by simpa [passesChecks, verdictOf, needsKey, hr] using h⟩
    · exact ⟨.badRound, by simp [verdictOf, hr]⟩
  | _ => cases h

/-- A command that R358 lets through is accepted, with or without a record of INV_ZERO (R356). -/
theorem verdictOf_accept {i : Instr} {s : State} (h : passesChecks i s = true) :
    verdictOf i s = .accept ∨ verdictOf i s = .acceptNoting .invZero := by
  cases i with
  | encrypt | decrypt => exact .inl (by simpa [passesChecks, verdictOf, needsKey] using h)
  | addRoundKey r a b =>
    simp only [passesChecks, Bool.and_eq_true, decide_eq_true_eq] at h
    exact .inl (by simp [verdictOf, needsKey, h])
  | gfInv rnd a b =>
    by_cases ha : a = 0x00
    · exact .inr (if_pos ha)
    · exact .inl (if_neg ha)
  | _ => exact .inl rfl

/-! ### A step -/

/-- A reset edge is the host's next act. -/
abbrev atResetEdge (s : State) : Prop := s.host.head? = some .assertReset ∨ s.host.head? = some .releaseReset

/-- The next states a step can answer, by what becomes of the core. A host write acts on `popHost (slotPassed s)`, the state
with the act taken off the list. -/
inductive StepEffect (p : Config.Params) (s : State) : State → Prop
  /-- The init sequence completes (R196). -/
  | initDone (hm : coreMoves s = true) (hp : s.phase = .init) : StepEffect p s (finish (buildTables p.sboxVariant s))
  /-- The command in CUR completes (R96). -/
  | completed (i : Instr) (hm : coreMoves s = true) (hp : s.phase = .run) (hd : decode s.cur = .ok i) :
      StepEffect p s (finish (effectFor p i s))
  /-- Only the host's list, its reads and the busy period move: no act, a read, a WAIT, a write that is ignored, or the release
  of a reset that is not active. -/
  | hostOnly (acts : List HostAct) (reads : List Word) (delay : Nat) :
      StepEffect p s { s with host := acts, reads := reads, delay := delay }
  /-- A write records an error and is dropped (R353, R359). -/
  | rejected (e : Err) (hr : s.resetActive = false) : StepEffect p s (raiseErr e (popHost (slotPassed s)))
  /-- A write to CMD is accepted (R359). -/
  | accepted {addr : Nat} {v : Word} {rest : List HostAct} {i : Instr} (hh : s.host = .wr addr v :: rest)
      (hr : s.resetActive = false) (ho : off addr = 0x004) (hb : s.status.busy = false) (hd : decode v = .ok i)
      (hc : passesChecks i (popHost (slotPassed s)) = true) : StepEffect p s (accept v (popHost (slotPassed s)))
  /-- A write to CMD is accepted, and INV_ZERO is recorded (R356). -/
  | acceptedNoting {addr : Nat} {v : Word} {rest : List HostAct} {i : Instr} (hh : s.host = .wr addr v :: rest)
      (hr : s.resetActive = false) (ho : off addr = 0x004) (hb : s.status.busy = false) (hd : decode v = .ok i)
      (hc : passesChecks i (popHost (slotPassed s)) = true) : StepEffect p s (accept v (raiseErr .invZero (popHost (slotPassed s))))
  /-- A write to STATUS clears the error record (R360). -/
  | errCleared {addr : Nat} {v : Word} {rest : List HostAct} (hh : s.host = .wr addr v :: rest)
      (hr : s.resetActive = false) (ho : off addr = 0x008) (hv : v.getLsbD 3 = true) :
      StepEffect p s (clearErr (popHost (slotPassed s)))
  /-- A write to KEYn is stored (R40). -/
  | keyWritten {addr : Nat} {v : Word} {rest : List HostAct} (k : Fin 4) (hh : s.host = .wr addr v :: rest)
      (hr : s.resetActive = false) (ho : 0x020 ≤ off addr ∧ off addr ≤ 0x02C) (hb : s.status.busy = false) :
      StepEffect p s { popHost (slotPassed s) with key := s.key.set k v, status := { s.status with keyReady := false } }
  /-- A write to STATEn is stored (R42). -/
  | blockWritten {addr : Nat} {v : Word} {rest : List HostAct} (k : Fin 4) (hh : s.host = .wr addr v :: rest)
      (hr : s.resetActive = false) (ho : 0x030 ≤ off addr ∧ off addr ≤ 0x03C) (hb : s.status.busy = false) :
      StepEffect p s { popHost (slotPassed s) with block := s.block.set k v }
  /-- Reset is asserted (R400). -/
  | resetAsserted (he : s.host.head? = some .assertReset) : StepEffect p s (heldInReset (popHost (slotPassed s)))
  /-- An active reset is released (R402). -/
  | resetReleased (he : s.host.head? = some .releaseReset) (hr : s.resetActive = true) :
      StepEffect p s { heldInReset (popHost (slotPassed s)) with
        resetActive := false, delay := Config.latency s.draws, draws := s.draws + 1 }

variable {p : Config.Params} {s t : State}

theorem slotPassed_eq (s : State) : slotPassed s = { s with delay := (slotPassed s).delay } := by
  unfold slotPassed; split <;> rfl

theorem popHost_slotPassed_eq (s : State) :
    popHost (slotPassed s) = { s with host := s.host.tail, delay := (slotPassed s).delay } := by
  unfold slotPassed; split <;> rfl

/-- An offer is a rejection, or an acceptance of a command that passes the checks (R358, R359). -/
theorem offer_verdictOf_cases (v : Word) (i : Instr) (s : State) :
    (∃ e, offer v (verdictOf i s) s = raiseErr e s) ∨
    (passesChecks i s = true ∧
      (offer v (verdictOf i s) s = accept v s ∨ offer v (verdictOf i s) s = accept v (raiseErr .invZero s))) := by
  cases hc : passesChecks i s with
  | false =>
    obtain ⟨e, he⟩ := verdictOf_reject hc
    exact .inl ⟨e, by rw [he]; rfl⟩
  | true => exact .inr ⟨rfl, (verdictOf_accept hc).imp (fun h => by rw [h]; rfl) (fun h => by rw [h]; rfl)⟩

/-- What a host write does is among the effects of a step. -/
theorem StepEffect.of_memWrite {addr : Nat} {v : Word} {rest : List HostAct} (hh : s.host = .wr addr v :: rest)
    (h : memWriteBy (execFor p) addr v (popHost (slotPassed s)) = .next t) : StepEffect p s t := by
  rcases memWriteFor_next_cases h with rfl | ⟨hr, -, rfl, -⟩ | ⟨hr, -, -, -, rfl⟩ | ⟨i, hr, ht, hb, hd, rfl⟩ |
    ⟨hr, ht, hv, rfl⟩ | ⟨k, hr, ht, hb, rfl⟩ | ⟨k, hr, ht, hb, rfl⟩
  · rw [popHost_slotPassed_eq]
    exact .hostOnly _ _ _
  · exact .rejected .busy (by simpa using hr)
  · exact .rejected .illegalCmd (by simpa using hr)
  · have hr' : s.resetActive = false := by simpa using hr
    have hb' : s.status.busy = false := by simpa using hb
    have ho := target_cmd_iff.mp ht
    rw [encode_of_decode hd]
    rcases offer_verdictOf_cases v i (popHost (slotPassed s)) with ⟨e, he⟩ | ⟨hc, he | he⟩ <;> rw [he]
    · exact .rejected e hr'
    · exact .accepted hh hr' ho hb' hd hc
    · exact .acceptedNoting hh hr' ho hb' hd hc
  · exact .errCleared hh (by simpa using hr) (target_status_iff.mp ht) hv
  · simpa using! StepEffect.keyWritten (p := p) k hh (by simpa using hr) (exists_target_key_iff.mp ⟨k, ht⟩) (by simpa using hb)
  · simpa using! StepEffect.blockWritten (p := p) k hh (by simpa using hr) (exists_target_block_iff.mp ⟨k, ht⟩) (by simpa using hb)

/-- Every next state a step answers is one of its effects. -/
theorem StepEffect.of_stepFor (h : stepFor p s = .next t) : StepEffect p s t := by
  rcases stepFor_next_cases h with ⟨hm, hp, rfl⟩ | ⟨i, hm, hp, hd, -, rfl⟩ | ⟨-, -, rfl⟩ | ⟨addr, v, rest, -, hh, hw⟩ |
    ⟨addr, rest, -, -, rfl⟩ | ⟨rest, -, -, rfl⟩ | ⟨rest, -, hh, rfl⟩ | ⟨rest, -, hh, rfl⟩
  · exact .initDone hm hp
  · exact .completed i hm hp hd
  · rw [slotPassed_eq]
    exact .hostOnly _ _ _
  · exact .of_memWrite hh hw
  · rw [popHost_slotPassed_eq]
    exact .hostOnly _ _ _
  · split
    · rw [slotPassed_eq]
      exact .hostOnly _ _ _
    · rw [popHost_slotPassed_eq]
      exact .hostOnly _ _ _
  · exact .resetAsserted (by rw [hh]; rfl)
  · rcases releaseReset_cases (popHost (slotPassed s)) with ⟨-, he⟩ | ⟨hr, he⟩ <;> rw [he]
    · rw [popHost_slotPassed_eq]
      exact .hostOnly _ _ _
    · simpa using! StepEffect.resetReleased (p := p) (by rw [hh]; rfl) (by simpa using hr)

theorem StepEffect.of_step (h : step s = .next t) : StepEffect hardware s t := .of_stepFor (by rwa [stepFor_hardware])

end Sys2Proof.Machine
end

section
/-! PROOFS. The forward table of every SBOX_VARIANT is a permutation (41_substitution_tables.md R195), so the init sequence
builds FWD and INV whatever the tables held (R196). -/

namespace Sys2Proof.Machine

/-- Inversion is its own inverse (R163). -/
theorem ginv_involutive : Function.Involutive ginv := byte_forall (by decide +kernel)

/-- Each affine transform has an order that divides 16. -/
theorem aff_iterate_sixteen (v : Config.SboxVariant) (x : Byte) : (aff v)^[16] x = x := by
  refine byte_forall (P := fun x => (aff v)^[16] x = x) ?_ x
  cases v <;> decide +kernel

theorem aff_injective (v : Config.SboxVariant) : Function.Injective (aff v) := by
  refine Function.Injective.of_comp (f := (aff v)^[15]) ?_
  rw [← Function.iterate_succ, funext (aff_iterate_sixteen v)]
  exact Function.injective_id

/-- The entry at 0 is no exception: 0 is its own inverse, and the transform takes it to 0x63 (R193). -/
theorem fwd_eq_aff_ginv (v : Config.SboxVariant) (i : Byte) : fwd v i = aff v (ginv i) := by
  unfold fwd
  split
  case isTrue h => subst h; cases v <;> decide
  case isFalse => rfl

theorem fwd_injective (v : Config.SboxVariant) : Function.Injective (fwd v) := by
  rw [funext (fwd_eq_aff_ginv v)]
  exact (aff_injective v).comp ginv_involutive.injective

theorem fwd_surjective (v : Config.SboxVariant) : Function.Surjective (fwd v) :=
  Finite.injective_iff_surjective.mp (fwd_injective v)

/-- The inverse pass over the built forward table gives INVT, whatever ISBOX held (R194, R198). -/
theorem inversePass_fwdTable (v : Config.SboxVariant) (t : Table) : inversePass (fwdTable v) 256 t = invTable v :=
  inversePass_full (fwdTable v) (fun i j h => fwd_injective v (by simpa using h))
    (fun y => by simpa using fwd_surjective v y) t _

/-- The init sequence leaves FWD in SBOX (R193, R196). -/
theorem lookup_sbox_buildTables (v : Config.SboxVariant) (s : State) (i : Byte) :
    lookup (buildTables v s).sbox i = fwd v i := by simp [forwardPass_full]

/-- The init sequence leaves INV in ISBOX (R194, R196). -/
theorem lookup_isbox_buildTables (v : Config.SboxVariant) (s : State) (i : Byte) :
    lookup (buildTables v s).isbox i = inv v i := by simp [forwardPass_full, inversePass_fwdTable, inv]

end Sys2Proof.Machine
end

section
/-! PROOFS. Every step keeps the invariant (10_state.md R49, R56): one lemma for each effect a step can have. -/

namespace Sys2Proof.Safety

open Sys2Proof.Machine

variable {v : Config.SboxVariant} {s : State}

/-- Only KEY_READY counts in the checks of a command (R358). -/
theorem passesChecks_congr {s t : State} (h : s.status.keyReady = t.status.keyReady) (i : Instr) :
    passesChecks i s = passesChecks i t := by
  cases i <;> simp only [passesChecks, h]

theorem heldWhileReset_of_inactive (h : s.resetActive = false) : heldWhileReset s := fun hr => by simp [h] at hr

/-- The core at its reset values is good, whether reset is active or not (R57, R400). -/
theorem invFor_resetValues (v : Config.SboxVariant) (active : Bool) (acts : List HostAct) (reads : List Word)
    (delay draws : Nat) :
    InvFor v { State.reset with resetActive := active, host := acts, reads := reads, delay := delay, draws := draws } where
  busy := by simp [busyIffWorking]
  initDone := by simp [tablesReadyIffInitDone]
  tables := by simp [tablesBuilt]
  roundKeys := by simp [roundKeysExpanded]
  keyTables := by simp [keyReadyNeedsTables]
  current := by simp [currentCommandAccepted]
  error := by simp [errorRecordSound]
  reset := by rintro rfl; rfl

/-- The host's side and the busy period are no part of the invariant (logs 1, 2). -/
theorem InvFor.withHostSide (h : InvFor v s) (acts : List HostAct) (reads : List Word) (delay : Nat) :
    InvFor v { s with host := acts, reads := reads, delay := delay } :=
  { h with
    reset := fun hr => congrArg (fun u : State => { u with host := acts, reads := reads, delay := delay }) (h.reset hr) }

theorem InvFor.popHost_slotPassed (h : InvFor v s) : InvFor v (popHost (slotPassed s)) := by
  rw [popHost_slotPassed_eq]
  exact h.withHostSide _ _ _

/-- Recording an error keeps ERR and ERR_CAUSE together, whether one was recorded before or not (R351, R357). -/
theorem errorRecordSound_raiseErr (h : errorRecordSound s) (e : Err) : errorRecordSound (raiseErr e s) := by
  obtain ⟨hiff, hle⟩ := h
  cases he : s.status.err with
  | false => cases e <;> simp [errorRecordSound, he, errCode]
  | true => simpa [errorRecordSound, he, hle] using hiff.mp he

theorem InvFor.raiseErr (h : InvFor v s) (hr : s.resetActive = false) (e : Err) : InvFor v (raiseErr e s) :=
  { h with error := errorRecordSound_raiseErr h.error e, reset := heldWhileReset_of_inactive hr }

theorem InvFor.clearErr (h : InvFor v s) (hr : s.resetActive = false) : InvFor v (clearErr s) :=
  { h with error := by simp [errorRecordSound], reset := heldWhileReset_of_inactive hr }

theorem InvFor.phase_idle (h : InvFor v s) (hb : s.status.busy = false) : s.phase = .idle :=
  not_not.mp fun hp => by simp [h.busy.mpr hp] at hb

/-- Once the init sequence is done the tables are ready (R35). -/
theorem InvFor.tablesReady (h : InvFor v s) (hp : s.phase ≠ .init) : s.status.tablesReady = true := h.initDone.mpr hp

/-- Acceptance of a legal command that passes its checks (R359). -/
theorem InvFor.accept (h : InvFor v s) (hr : s.resetActive = false) (hb : s.status.busy = false) {w : Word} {i : Instr}
    (hd : decode w = .ok i) (hc : passesChecks i s = true) : InvFor v (accept w s) :=
  { h with
    busy := by simp [busyIffWorking]
    initDone := by simp [tablesReadyIffInitDone, h.tablesReady (by simp [h.phase_idle hb])]
    current := fun _ => ⟨i, hd, by rwa [passesChecks_congr rfl i]⟩
    reset := heldWhileReset_of_inactive hr }

/-- A stored KEYn: the round keys no longer claim to be the key's (R40). -/
theorem InvFor.keyWritten (h : InvFor v s) (hr : s.resetActive = false) (hb : s.status.busy = false) (key : Quad) :
    InvFor v { s with key := key, status := { s.status with keyReady := false } } :=
  { h with
    roundKeys := by simp [roundKeysExpanded]
    keyTables := by simp [keyReadyNeedsTables]
    current := fun hp => by simp [h.phase_idle hb] at hp
    reset := heldWhileReset_of_inactive hr }

/-- A stored STATEn (R42). -/
theorem InvFor.blockWritten (h : InvFor v s) (hr : s.resetActive = false) (block : Quad) :
    InvFor v { s with block := block } :=
  { h with reset := heldWhileReset_of_inactive hr }

/-- The init sequence ends with the tables built (R196, R56). -/
theorem InvFor.initDone_step (h : InvFor v s) (hr : s.resetActive = false) : InvFor v (finish (buildTables v s)) :=
  { h with
    busy := by simp [busyIffWorking]
    initDone := by simp [tablesReadyIffInitDone]
    tables := fun _ i => ⟨lookup_sbox_buildTables v s i, lookup_isbox_buildTables v s i⟩
    keyTables := fun _ => rfl
    current := fun hp => nomatch hp
    reset := heldWhileReset_of_inactive hr }

/-- A completing command keeps the round keys the key's: KEY_EXPAND by the tables it finds, the others by leaving RK, KEY and
KEY_READY alone (R56, R226). -/
theorem roundKeysExpanded_effectFor (h : InvFor v s) (hp : s.phase ≠ .init) (p : Config.Params) (i : Instr) :
    roundKeysExpanded v (effectFor p i s) := by
  rcases effectFor_keyExpand_or p i s with ⟨rnd, a, b, rfl⟩ | ⟨hrk, hkr⟩
  · have hsbox : s.sbox = fwdTable v := table_ext fun j => by simp [(h.tables (h.tablesReady hp) j).1]
    intro _
    show expand s.sbox s.key = expand (fwdTable v) s.key
    rw [hsbox]
  · simpa only [roundKeysExpanded, hrk, hkr, effectFor_key] using h.roundKeys

/-- A command completes (R96). -/
theorem InvFor.completed (h : InvFor v s) (hr : s.resetActive = false) (hp : s.phase = .run) (p : Config.Params) (i : Instr) :
    InvFor v (finish (effectFor p i s)) where
  busy := by simp [busyIffWorking]
  initDone := by simp [tablesReadyIffInitDone, h.tablesReady, hp]
  tables := by simpa [tablesBuilt] using h.tables
  roundKeys := roundKeysExpanded_effectFor h (by simp [hp]) p i
  keyTables := fun _ => by simp [h.tablesReady, hp]
  current := fun hq => nomatch hq
  error := by simpa [errorRecordSound] using h.error
  reset := heldWhileReset_of_inactive (by simpa using hr)

/-- Every effect of a step keeps the invariant. -/
theorem InvFor.stepEffect {p : Config.Params} {t : State} (h : InvFor p.sboxVariant s) (he : StepEffect p s t) :
    InvFor p.sboxVariant t := by
  have hturn := h.popHost_slotPassed
  cases he with
  | initDone hm _ => exact h.initDone_step ((coreMoves_iff s).mp hm).1
  | completed i hm hp _ => exact h.completed ((coreMoves_iff s).mp hm).1 hp p i
  | hostOnly acts reads delay => exact h.withHostSide acts reads delay
  | rejected e hr => exact hturn.raiseErr (by simpa using hr) e
  | accepted _ hr _ hb hd hc => exact hturn.accept (by simpa using hr) (by simpa using hb) hd hc
  | acceptedNoting _ hr _ hb hd hc =>
    exact (hturn.raiseErr (by simpa using hr) .invZero).accept (by simpa using hr) (by simpa using hb) hd
      (by rwa [passesChecks_congr (by rfl)])
  | errCleared _ hr _ _ => exact hturn.clearErr (by simpa using hr)
  | keyWritten k _ hr _ hb => simpa using! hturn.keyWritten (by simpa using hr) (by simpa using hb) _
  | blockWritten k _ hr _ _ => exact hturn.blockWritten (by simpa using hr) _
  | resetAsserted _ => exact invFor_resetValues _ true _ _ _ _
  | resetReleased _ _ => exact invFor_resetValues _ false _ _ _ _

/-- Settles O40: each effect of a step keeps the invariant, under every parameter. -/
theorem everyStepKeepsTheInvariant : Obligations.EveryStepKeepsTheInvariant :=
  ⟨fun _ _ h hs => InvFor.stepEffect (p := hardware) h (.of_step hs), fun _ _ _ h hs => h.stepEffect (.of_stepFor hs)⟩

/-- Settles O39: State.reset is the core at its reset values. -/
theorem invariantHoldsAtReset : Obligations.InvariantHoldsAtReset := invFor_resetValues sboxVariant false [] [] _ 1

end Sys2Proof.Safety
end

section
/-! PROOFS. The rules of one host access (20_memory.md R87, R89, R90), and which effects of a step change each register and
flag (10_state.md R34 to R50). -/

namespace Sys2Proof.Machine

open Sys2Proof.Safety
open Sys2Proof.Statements (off notBusy)

/-! ### One host access -/

section
variable {s : State} {addr : Nat} (v : Word)

/-- Outside reset a read is of its target (R89). -/
theorem memRead_of_target (hr : s.resetActive = false) {x : Target} (ht : target addr = x) :
    memRead addr s = readTarget s x := by simp [memRead, hr, ht]

/-- While BUSY = 1 the data registers and windows read 0 (R87). -/
theorem memRead_zeroWhileBusy (hr : s.resetActive = false) (hb : s.status.busy = true)
    (h : off addr = 0x010 ∨ (0x020 ≤ off addr ∧ off addr ≤ 0x03C) ∨ (0x400 ≤ off addr ∧ off addr ≤ 0xCAC)) :
    memRead addr s = 0 := by
  obtain ⟨hid, hcmd, hstatus, hcause, hrcon⟩ := target_zeroWhileBusy h
  rw [memRead_of_target hr rfl]
  cases ht : target addr with
  | id => exact absurd ht hid
  | cmd => exact absurd ht hcmd
  | status => exact absurd ht hstatus
  | errCause => exact absurd ht hcause
  | rconWindow k => exact absurd ht (hrcon k)
  | result | key | block | sboxWindow | isboxWindow | rkWindow => simp [readTarget, hb]
  | reserved => rfl

/-- While BUSY = 1 writes to CMD, KEYn and STATEn are dropped (R353). -/
theorem memWrite_droppedWhileBusy (hr : s.resetActive = false) (hb : s.status.busy = true)
    (h : off addr = 0x004 ∨ (0x020 ≤ off addr ∧ off addr ≤ 0x03C)) : memWrite addr v s = .next (raiseErr .busy s) := by
  rcases target_droppedWhileBusy h with ht | ⟨k, ht⟩ | ⟨k, ht⟩ <;> simp [memWrite, memWriteBy, offerCommandBy, hr, hb, ht]

/-- A write to STATUS (R90). -/
theorem memWrite_status (hr : s.resetActive = false) (ht : target addr = .status) :
    memWrite addr v s = .next (writeStatus v s) := by simp [memWrite, memWriteBy, hr, ht]

/-- A write to KEYn (R90). -/
theorem memWrite_key (hr : s.resetActive = false) {k : Fin 4} (ht : target addr = .key k) :
    memWrite addr v s = .next (writeKey k v s) := by simp [memWrite, memWriteBy, hr, ht]

/-- A write to STATEn (R90). -/
theorem memWrite_block (hr : s.resetActive = false) {k : Fin 4} (ht : target addr = .block k) :
    memWrite addr v s = .next (writeBlock k v s) := by simp [memWrite, memWriteBy, hr, ht]

/-- Reset ignores writes (R401). -/
theorem memWrite_resetActive (hr : s.resetActive = true) : memWrite addr v s = .next s := by
  simp [memWrite, memWriteBy, hr]

/-- With BUSY = 0 a data register or window reads what it holds (R87). -/
theorem unlessBusy_notBusy (hb : notBusy s) : unlessBusy s v = v := by
  simp only [notBusy] at hb
  simp [unlessBusy, hb]

end

/-! ### The two completions of the core -/

/-- The core step of the init sequence (R196). -/
theorem step_init {s : State} (hm : coreMoves s = true) (hp : s.phase = .init) :
    step s = .next (finish (buildTables sboxVariant s)) := by
  rw [step_core hm, coreStep, coreStepBy, hp]

/-- The core step of a running command (R96). -/
theorem step_run {s : State} {i : Instr} (hm : coreMoves s = true) (hp : s.phase = .run) (hd : decode s.cur = .ok i) :
    step s = exec i s := by
  rw [step_core hm, coreStep, coreStepBy, hp]
  simp only [hd]

/-! ### What changes each flag and register -/

namespace StepEffect

variable {p : Config.Params} {s t : State}

/-- BUSY rises by an acceptance or a reset edge (R34). -/
theorem busy_rises (h : StepEffect p s t) (hs : s.status.busy = false) (ht : t.status.busy = true) :
    (∃ addr v rest, s.host = .wr addr v :: rest ∧ off addr = 0x004 ∧ t.cur = v ∧ t.phase = .run ∧ ∃ i, decode v = .ok i) ∨
      atResetEdge s := by
  cases h with
  | accepted hh _ ho _ hd _ | acceptedNoting hh _ ho _ hd _ => exact .inl ⟨_, _, _, hh, ho, rfl, rfl, _, hd⟩
  | resetAsserted he => exact .inr (.inl he)
  | resetReleased he _ => exact .inr (.inr he)
  | _ => simp [hs] at ht

/-- BUSY falls by a completion of the core (R34, R96). -/
theorem busy_falls (h : StepEffect p s t) (hs : s.status.busy = true) (ht : t.status.busy = false) :
    coreMoves s = true ∧ t.phase = .idle := by
  cases h with
  | initDone hm _ | completed _ hm _ _ => exact ⟨hm, rfl⟩
  | _ => simp [hs] at ht

/-- TABLES_READY rises by the init sequence (R35). -/
theorem tablesReady_rises (h : StepEffect p s t) (hs : s.status.tablesReady = false) (ht : t.status.tablesReady = true) :
    coreMoves s = true ∧ s.phase = .init := by
  cases h with
  | initDone hm hp => exact ⟨hm, hp⟩
  | _ => simp [hs] at ht

/-- TABLES_READY falls by a reset edge (R35). -/
theorem tablesReady_falls (h : StepEffect p s t) (hs : s.status.tablesReady = true) (ht : t.status.tablesReady = false) :
    atResetEdge s := by
  cases h with
  | resetAsserted he => exact .inl he
  | resetReleased he _ => exact .inr he
  | _ => simp [hs] at ht

/-- KEY_READY rises by KEY_EXPAND (R36). -/
theorem keyReady_rises (h : StepEffect p s t) (hs : s.status.keyReady = false) (ht : t.status.keyReady = true) :
    coreMoves s = true ∧ s.phase = .run ∧ ∃ rnd a b, decode s.cur = .ok (.keyExpand rnd a b) := by
  cases h with
  | completed i hm hp hd =>
    rcases effectFor_keyExpand_or p i s with ⟨rnd, a, b, rfl⟩ | ⟨-, hkr⟩
    · exact ⟨hm, hp, rnd, a, b, hd⟩
    · simp [hkr, hs] at ht
  | _ => simp [hs] at ht

/-- KEY_READY falls by a stored KEYn or a reset edge (R36). -/
theorem keyReady_falls (h : StepEffect p s t) (hs : s.status.keyReady = true) (ht : t.status.keyReady = false) :
    (∃ addr v rest, s.host = .wr addr v :: rest ∧ 0x020 ≤ off addr ∧ off addr ≤ 0x02C ∧ notBusy s) ∨ atResetEdge s := by
  cases h with
  | keyWritten k hh _ ho hb => exact .inl ⟨_, _, _, hh, ho.1, ho.2, hb⟩
  | completed i =>
    rcases effectFor_keyExpand_or p i s with ⟨rnd, a, b, rfl⟩ | ⟨-, hkr⟩
    · simp [effectFor] at ht
    · simp [hkr, hs] at ht
  | resetAsserted he => exact .inr (.inl he)
  | resetReleased he _ => exact .inr (.inr he)
  | _ => simp [hs] at ht

/-- ERR falls by a clearing STATUS write or a reset edge (R37, R360). -/
theorem err_falls (h : StepEffect p s t) (hs : s.status.err = true) (ht : t.status.err = false) :
    (∃ addr v rest, s.host = .wr addr v :: rest ∧ off addr = 0x008 ∧ v.getLsbD 3 = true) ∨ atResetEdge s := by
  cases h with
  | errCleared hh _ ho hv => exact .inl ⟨_, _, _, hh, ho, hv⟩
  | resetAsserted he => exact .inr (.inl he)
  | resetReleased he _ => exact .inr (.inr he)
  | _ => simp [hs] at ht

/-- KEYn changes by a stored KEYn or a reset edge (R40). -/
theorem key_changes (h : StepEffect p s t) (hne : t.key ≠ s.key) :
    (∃ addr v rest, s.host = .wr addr v :: rest ∧ 0x020 ≤ off addr ∧ off addr ≤ 0x02C ∧ notBusy s) ∨ atResetEdge s := by
  cases h with
  | keyWritten k hh _ ho hb => exact .inl ⟨_, _, _, hh, ho.1, ho.2, hb⟩
  | resetAsserted he => exact .inr (.inl he)
  | resetReleased he _ => exact .inr (.inr he)
  | _ => simp at hne

/-- RESULT changes by GF_MUL, GF_INV or a reset edge (R39). -/
theorem result_changes (h : StepEffect p s t) (hne : t.result ≠ s.result) :
    (coreMoves s = true ∧ s.phase = .run ∧
      ∃ rnd a b, decode s.cur = .ok (.gfMul rnd a b) ∨ decode s.cur = .ok (.gfInv rnd a b)) ∨ atResetEdge s := by
  cases h with
  | completed i hm hp hd =>
    rcases effectFor_result_or p i s with ⟨rnd, a, b, rfl | rfl⟩ | hres
    · exact .inl ⟨hm, hp, rnd, a, b, .inl hd⟩
    · exact .inl ⟨hm, hp, rnd, a, b, .inr hd⟩
    · simp [hres] at hne
  | resetAsserted he => exact .inr (.inl he)
  | resetReleased he _ => exact .inr (.inr he)
  | _ => simp at hne

/-- STATEn changes by a block or stage command, a stored STATEn or a reset edge (R42). -/
theorem block_changes (h : StepEffect p s t) (hne : t.block ≠ s.block) :
    (coreMoves s = true ∧ s.phase = .run ∧ ∃ i, decode s.cur = .ok i ∧
      i.opcode.toNat ∈ [0x02, 0x03, 0x20, 0x21, 0x22, 0x23, 0x31, 0x32, 0x33]) ∨
    (∃ addr v rest, s.host = .wr addr v :: rest ∧ 0x030 ≤ off addr ∧ off addr ≤ 0x03C ∧ notBusy s) ∨ atResetEdge s := by
  cases h with
  | completed i hm hp hd =>
    rcases effectFor_block_or p i s with hopc | hblock
    · exact .inl ⟨hm, hp, i, hd, hopc⟩
    · simp [hblock] at hne
  | blockWritten k hh _ ho hb => exact .inr (.inl ⟨_, _, _, hh, ho.1, ho.2, hb⟩)
  | resetAsserted he => exact .inr (.inr (.inl he))
  | resetReleased he _ => exact .inr (.inr (.inr he))
  | _ => simp at hne

/-- SBOX and ISBOX change by the init sequence or a reset edge (R45, R46). -/
theorem tables_change (h : StepEffect p s t) (hne : t.sbox ≠ s.sbox ∨ t.isbox ≠ s.isbox) :
    (coreMoves s = true ∧ s.phase = .init) ∨ atResetEdge s := by
  cases h with
  | initDone hm hp => exact .inl ⟨hm, hp⟩
  | resetAsserted he => exact .inr (.inl he)
  | resetReleased he _ => exact .inr (.inr he)
  | _ => simp at hne

/-- RK changes by KEY_EXPAND or a reset edge (R47, R103). -/
theorem rk_changes (h : StepEffect p s t) (hne : t.rk ≠ s.rk) :
    (coreMoves s = true ∧ s.phase = .run ∧ ∃ rnd a b, decode s.cur = .ok (.keyExpand rnd a b)) ∨ atResetEdge s := by
  cases h with
  | completed i hm hp hd =>
    rcases effectFor_keyExpand_or p i s with ⟨rnd, a, b, rfl⟩ | ⟨hrk, -⟩
    · exact .inl ⟨hm, hp, rnd, a, b, hd⟩
    · simp [hrk] at hne
  | resetAsserted he => exact .inr (.inl he)
  | resetReleased he _ => exact .inr (.inr he)
  | _ => simp at hne

/-- CUR changes by an acceptance or a reset edge (R50). -/
theorem cur_changes (h : StepEffect p s t) (hne : t.cur ≠ s.cur) :
    (∃ addr v rest, s.host = .wr addr v :: rest ∧ off addr = 0x004 ∧ notBusy s ∧ t.cur = v ∧ t.phase = .run) ∨
      atResetEdge s := by
  cases h with
  | accepted hh _ ho hb _ _ | acceptedNoting hh _ ho hb _ _ => exact .inl ⟨_, _, _, hh, ho, hb, rfl, rfl⟩
  | resetAsserted he => exact .inr (.inl he)
  | resetReleased he _ => exact .inr (.inr he)
  | _ => simp at hne

/-- While reset is active nothing but its release moves the core (R400, R401). -/
theorem keeps_heldInReset (h : StepEffect p s t) (hs : s = heldInReset s) (hne : s.host.head? ≠ some .releaseReset) :
    t = heldInReset t := by
  have hr : s.resetActive = true := by rw [hs]; rfl
  cases h with
  | initDone hm _ | completed _ hm _ _ => simp [coreMoves, hr] at hm
  | hostOnly acts reads delay =>
    exact congrArg (fun u : State => { u with host := acts, reads := reads, delay := delay }) hs
  | resetAsserted _ => rfl
  | resetReleased he _ => exact absurd he hne
  | rejected _ hr' | accepted _ hr' _ _ _ _ | acceptedNoting _ hr' _ _ _ _ | errCleared _ hr' _ _ | keyWritten _ _ hr' _ _
  | blockWritten _ _ hr' _ _ => simp [hr'] at hr

end StepEffect

/-! ### The flags -/

/-- Settles O25, by the effects of a step on BUSY. -/
theorem busyIsSetByAcceptanceAndClearedByCompletion : Obligations.BusyIsSetByAcceptanceAndClearedByCompletion := by
  refine ⟨fun s t h => (StepEffect.of_step h).busy_rises, fun s t h hs ht => ?_, fun _ => rfl, fun addr v s hr hb =>
    ⟨memWrite_droppedWhileBusy v hr hb, memRead_zeroWhileBusy hr hb⟩⟩
  obtain ⟨hm, hp⟩ := (StepEffect.of_step h).busy_falls hs ht
  exact ⟨hm, step_core hm, hp⟩

/-- An offer that sets PHASE to RUN met BUSY = 0 (R353, R359). -/
theorem offerCommand_starts {s t : State} {v : Word} (h : offerCommand v s = .next t) (hs : s.phase ≠ .run)
    (ht : t.phase = .run) : s.status.busy = false := by
  rw [offerCommand_eq] at h
  rcases offerCommandFor_cases hardware v s with ⟨-, he⟩ | ⟨hb, -⟩ | ⟨-, hb, -⟩
  · rw [he] at h
    cases h
    exact absurd ht hs
  · exact hb
  · exact hb

/-- Settles O26, by the effects of a step on TABLES_READY. -/
theorem tablesReadyIsSetByInitOnly : Obligations.TablesReadyIsSetByInitOnly := by
  refine ⟨fun _ => rfl, fun s t h => (StepEffect.of_step h).tablesReady_rises, fun s t hm hp h => ?_,
    fun s t h => (StepEffect.of_step h).tablesReady_falls, fun s t v hi h hs ht => ?_⟩
  · rw [step_init hm hp] at h
    cases h
    rfl
  · have hidle := hi.phase_idle (offerCommand_starts h hs ht)
    exact hi.tablesReady (by simp [hidle])

/-- ENCRYPT, DECRYPT and ADD_ROUND_KEY do not pass the checks with KEY_READY = 0 (R354). -/
theorem passesChecks_without_key {i : Instr} {s : State} (hk : s.status.keyReady = false)
    (hi : i.opcode.toNat ∈ [0x02, 0x03, 0x20]) : passesChecks i s = false := by
  cases i with
  | encrypt | decrypt | addRoundKey => simp [passesChecks, hk]
  | _ => simp [Instr.opcode] at hi

/-- A command that needs the key is rejected with KEY_READY = 0, be it legal or not (R354, R359). -/
theorem offerCommand_without_key {v : Word} {s : State} (hk : s.status.keyReady = false)
    (hv : (v.extractLsb' 0 8).toNat ∈ [0x02, 0x03, 0x20]) : ∃ e, offerCommand v s = .next (raiseErr e s) := by
  rw [offerCommand_eq]
  rcases offerCommandFor_cases hardware v s with ⟨-, h⟩ | ⟨-, -, h⟩ | ⟨i, -, hd, h⟩
  · exact ⟨_, h⟩
  · exact ⟨_, h⟩
  · obtain ⟨-, hopc, -⟩ := fields_of_decode hd
    obtain ⟨e, he⟩ := verdictOf_reject (passesChecks_without_key hk (by rw [hopc]; exact hv))
    exact ⟨e, by rw [h, he]; rfl⟩

/-- Settles O27, by the effects of a step on KEY_READY. -/
theorem keyReadyIsSetByKeyExpandAndClearedByKeyWrites : Obligations.KeyReadyIsSetByKeyExpandAndClearedByKeyWrites := by
  refine ⟨fun _ => rfl, fun s t h => (StepEffect.of_step h).keyReady_rises, fun s t rnd a b hm hp hd h => ?_,
    fun s t h => (StepEffect.of_step h).keyReady_falls, fun addr v s t hr hb hlo hhi h => ?_, fun v s hb hk hv => ?_⟩
  · obtain ⟨-, hb, -, -⟩ := (coreMoves_iff s).mp hm
    rw [step_run hm hp hd, exec_completes (.keyExpand rnd a b) s hb hp trivial] at h
    cases h
    rfl
  · obtain ⟨k, ht⟩ := exists_target_key_iff.mpr ⟨hlo, hhi⟩
    rw [memWrite_key v hr ht, writeKey_idle k v s hb] at h
    cases h
    rfl
  · obtain ⟨e, he⟩ := offerCommand_without_key hk hv
    exact ⟨_, he, rfl, hb, rfl⟩

/-- No command clears ERR (R37). -/
theorem exec_keeps_err {i : Instr} {s t : State} (h : exec i s = .next t) (hs : s.status.err = true) :
    t.status.err = true := by
  rcases exec_next_cases h with ⟨-, rfl⟩ | ⟨-, -, -, rfl⟩ | ⟨-, -, rfl⟩
  · rcases offer_cases (encode i) (verdictOf i s) s with he | ⟨e, he⟩ | ⟨e, he⟩ <;> rw [he]
    · exact hs
    · rfl
    · rfl
  · simpa using hs
  · rfl

/-- Settles O28, by the effects of a step on ERR. -/
theorem errIsClearedByStatusWritesOnly : Obligations.ErrIsClearedByStatusWritesOnly := by
  refine ⟨fun addr v s hr ho => ?_, fun _ => ⟨rfl, rfl⟩, fun s t h => (StepEffect.of_step h).err_falls,
    fun i s t => exec_keeps_err, fun _ _ => rfl⟩
  rw [memWrite_status v hr (target_status_iff.mpr ho)]
  exact ⟨fun hv => by rw [writeStatus, if_pos hv]; rfl, fun hv => by rw [writeStatus, hv, if_neg Bool.false_ne_true]⟩

/-! ### The registers -/

/-- Settles O29, by the effects of a step on KEYn. -/
theorem keyRegistersHoldWhatTheHostWrites : Obligations.KeyRegistersHoldWhatTheHostWrites := by
  have htarget (k : Fin 4) : target (0x020 + 4 * k.val) = .key k := target_of_regOffset _ _ rfl
  have hread (k : Fin 4) (s : State) (hr : s.resetActive = false) (hb : notBusy s) :
      memRead (0x020 + 4 * k.val) s = s.key[k] :=
    (memRead_of_target hr (htarget k)).trans (unlessBusy_notBusy _ hb)
  refine ⟨fun k v s hr hb => ?_, fun k v s hr hb => ?_, hread, fun s t h => (StepEffect.of_step h).key_changes⟩
  · refine ⟨_, (memWrite_key v hr (htarget k)).trans (by rw [writeKey_idle k v s hb]), rfl, fun j => ?_, ?_⟩
    · simp [Vector.getElem_set, Fin.ext_iff, eq_comm]
    · exact (hread k _ (by exact hr) (by exact hb)).trans (by simp)
  · rw [memWrite_key v hr (htarget k), writeKey_busy k v s hb]
    rfl

/-- Settles O30, by the effects of a step on RESULT and STATEn. -/
theorem resultAndStateChangeOnlyAsTheRulesSay : Obligations.ResultAndStateChangeOnlyAsTheRulesSay := by
  refine ⟨fun s t h => (StepEffect.of_step h).result_changes, fun s t h => (StepEffect.of_step h).block_changes,
    fun k v s hr hb => ?_, fun s hr hb => ?_⟩
  · have htarget : target (0x030 + 4 * k.val) = .block k := target_of_regOffset _ _ rfl
    refine ⟨_, (memWrite_block v hr htarget).trans (by rw [writeBlock_idle k v s hb]), rfl, fun j => ?_, ?_⟩
    · simp [Vector.getElem_set, Fin.ext_iff, eq_comm]
    · exact (memRead_of_target (by exact hr) htarget).trans ((unlessBusy_notBusy _ (by exact hb)).trans (by simp))
  · exact (memRead_of_target hr (target_of_regOffset .result _ rfl)).trans (unlessBusy_notBusy _ hb)

/-- Settles O31, by the effects of a step on the tables, RK and CUR. -/
theorem tablesRoundKeysAndCurChangeOnlyAsTheRulesSay : Obligations.TablesRoundKeysAndCurChangeOnlyAsTheRulesSay :=
  ⟨fun _ _ h => (StepEffect.of_step h).tables_change, fun _ _ h => (StepEffect.of_step h).rk_changes,
    fun _ _ h => (StepEffect.of_step h).cur_changes⟩

/-! ### Reset -/

theorem hostStep_assertReset {s : State} {rest : List HostAct} (h : s.host = .assertReset :: rest) :
    hostStep s = .next (heldInReset (popHost (slotPassed s))) := by
  simp only [hostStep, hostStepBy, h]

theorem hostStep_releaseReset {s : State} {rest : List HostAct} (h : s.host = .releaseReset :: rest) :
    hostStep s = .next (releaseReset (popHost (slotPassed s))) := by
  simp only [hostStep, hostStepBy, h]

theorem coreMoves_resetActive {s : State} (h : s.resetActive = true) : coreMoves s = false := by simp [coreMoves, h]

/-- Settles O38, by the host step of each reset edge and the effects of a step on a core held in reset. -/
theorem resetHoldsAndReleases : Obligations.ResetHoldsAndReleases := by
  refine ⟨fun s rest hm hh => ?_, fun _ => rfl, fun addr v s hr => ⟨by simp [memRead, hr], memWrite_resetActive v hr⟩,
    fun s t hs hne h => (StepEffect.of_step h).keeps_heldInReset hs hne, fun s rest hr hh => ?_⟩
  · exact ⟨_, (step_host hm).trans (hostStep_assertReset hh), by simp [hh], by simp, rfl⟩
  · rw [step_host (coreMoves_resetActive hr), hostStep_releaseReset hh]
    exact ⟨Config.latency s.draws, by simp [releaseReset, hr, heldInReset, hh]⟩

/-- Settles O37: the fields by definition, the reads by their targets. -/
theorem resetValues : Obligations.ResetValues := by
  refine ⟨rfl, rfl, rfl, by decide, by decide, rfl, by decide, by decide, by decide, fun k => ?_⟩
  rw [memRead_of_target rfl (target_of_regOffset (.rconWindow k) _ rfl)]
  revert k
  decide

end Sys2Proof.Machine
end

section
/-! PROOFS. What each command leaves unchanged, through the host's read of every address (10_state.md R39 to R47,
20_memory.md R96). -/

namespace Sys2Proof.Machine

open Sys2Proof.Statements (off completed)

/-! ### Which reads see a change -/

section
variable {addr : Nat} (s : State) (work : Work)

/-- Only the STATE registers show the block. -/
theorem memRead_withBlock (block : Quad) (h : ¬ (0x030 ≤ off addr ∧ off addr ≤ 0x03C)) :
    memRead addr { s with block := block, work := work } = memRead addr s := by
  unfold memRead
  cases ht : target addr with
  | block k => exact absurd (exists_target_block_iff.mp ⟨k, ht⟩) h
  | _ => rfl

/-- Only RESULT shows the result. -/
theorem memRead_withResult (result : Byte) (h : off addr ≠ 0x010) :
    memRead addr { s with result := result } = memRead addr s := by
  unfold memRead
  cases ht : target addr with
  | result => exact absurd (target_result_iff.mp ht) h
  | _ => rfl

/-- Only the RK window and STATUS show the round keys and KEY_READY. -/
theorem memRead_withRoundKeys (rk : RoundKeys) (ready : Bool) (h : ¬ (0xC00 ≤ off addr ∧ off addr ≤ 0xCAC))
    (hs : off addr ≠ 0x008) :
    memRead addr { s with rk := rk, status := { s.status with keyReady := ready }, work := work } = memRead addr s := by
  unfold memRead
  cases ht : target addr with
  | rkWindow j => exact absurd (exists_target_rkWindow_iff.mp ⟨j, ht⟩) h
  | status => exact absurd (target_status_iff.mp ht) hs
  | _ => rfl

end

/-! ### The effect of a command -/

/-- A block or stage command changes the block, and WORK, and nothing else (R42, R298). -/
theorem effectFor_of_blockCommand (p : Config.Params) {i : Instr} (s : State)
    (h : i.opcode.toNat ∈ [0x02, 0x03, 0x20, 0x21, 0x22, 0x23, 0x31, 0x32, 0x33]) :
    ∃ block work, effectFor p i s = { s with block := block, work := work } := by
  cases i with
  | nop | keyExpand | gfMul | gfInv => simp [Instr.opcode] at h
  | addRoundKey r a b =>
    simp only [effectFor]
    split
    · exact ⟨_, s.work, rfl⟩
    · exact ⟨s.block, s.work, rfl⟩
  | _ => exact ⟨_, _, rfl⟩

/-- What a completing block or stage command shows the host (R298). -/
theorem blockCommand_frame (p : Config.Params) {i : Instr} (s : State)
    (h : i.opcode.toNat ∈ [0x02, 0x03, 0x20, 0x21, 0x22, 0x23, 0x31, 0x32, 0x33]) :
    (finish (effectFor p i s)).status = (completed s).status ∧ (finish (effectFor p i s)).rk = s.rk ∧
      (finish (effectFor p i s)).result = s.result ∧
      ∀ addr, ¬ (0x030 ≤ off addr ∧ off addr ≤ 0x03C) →
        memRead addr (finish (effectFor p i s)) = memRead addr (completed s) := by
  obtain ⟨block, work, he⟩ := effectFor_of_blockCommand p s h
  rw [he]
  exact ⟨rfl, rfl, rfl, fun addr ha => memRead_withBlock (completed s) work block ha⟩

/-- Settles O21: the shared frame of every effect, then the reads by the class of the command. -/
theorem commandFrame : Obligations.CommandFrame := by
  intro i s t ⟨hb, hp⟩ h
  rcases exec_next_cases h with ⟨hb', -⟩ | ⟨-, -, -, rfl⟩ | ⟨-, hp', -⟩
  · simp [hb] at hb'
  · obtain ⟨hr, hcause, hkey, hsbox, hisbox, -, hcur, hhost, hreads, hdelay, hdraws, -, htables, herr⟩ :=
      effectFor_frame hardware i s
    refine ⟨hkey, hsbox, hisbox, hcause, hr, hcur, hhost, hreads, hdelay, hdraws, rfl, rfl, htables, herr, ?_⟩
    cases i with
    | nop => exact ⟨rfl, fun _ => rfl⟩
    | keyExpand => exact ⟨rfl, rfl, fun addr hrk hst => memRead_withRoundKeys (completed s) _ _ true hrk hst⟩
    | gfMul | gfInv => exact ⟨rfl, rfl, rfl, fun addr ha => memRead_withResult (completed s) _ ha⟩
    | _ => exact blockCommand_frame hardware s (by simp [Instr.opcode])
  · exact absurd hp hp'

end Sys2Proof.Machine
end

section
/-! PROOFS. The register map by offsets (20_memory.md R81 to R91): MemRead and MemWrite are the case analyses that the rules
write out, and OfferCommand is the pseudocode of 60_exceptions.md R359. -/

namespace Sys2Proof

/-- The 13 opcodes (R127). -/
theorem opcodes_of_opcodeMap : opcodeMap.map (fun row => row.opc.toNat) =
    [0x00, 0x01, 0x02, 0x03, 0x10, 0x11, 0x20, 0x21, 0x22, 0x23, 0x31, 0x32, 0x33] := rfl

/-- A word is no command exactly when RSV is not 0 or its opcode is none of the 13 (R128). -/
theorem exists_decode_error_iff {v : Word} :
    (∃ e, decode v = .error e) ↔ fieldRsv v ≠ 0 ∨
      (fieldOpc v).toNat ∉ [0x00, 0x01, 0x02, 0x03, 0x10, 0x11, 0x20, 0x21, 0x22, 0x23, 0x31, 0x32, 0x33] := by
  have hmap : opcodeMap.find? (fun row => row.opc == fieldOpc v) = none ↔
      (fieldOpc v).toNat ∉ opcodeMap.map (fun row => row.opc.toNat) := by
    simp [BitVec.toNat_inj]
  rw [← opcodes_of_opcodeMap, ← hmap]
  unfold decode
  split
  case isTrue hrsv => exact ⟨fun _ => .inl hrsv, fun _ => ⟨_, rfl⟩⟩
  case isFalse hrsv => split <;> simp [*, not_not.mp hrsv]

end Sys2Proof

namespace Sys2Proof.Machine

open Sys2Proof.Statements (off completed accepted recorded offerSpec memReadSpec memWriteSpec)

/-! ### Accesses by word and by offset -/

/-- A target that has a name stands at the name's offset (R81, R134). -/
theorem off_of_target {addr o : Nat} {x : Target} (ht : target addr = x) (hx : regOffset x = some o) : off addr = o :=
  (target_eq_iff_off hx).mp ht

/-- The offsets that have no name are reserved (R82). -/
theorem target_reserved {addr : Nat} (h : (0x014 ≤ off addr ∧ off addr ≤ 0x01C) ∨ (0x040 ≤ off addr ∧ off addr ≤ 0x3FC) ∨
    (0xCB0 ≤ off addr ∧ off addr ≤ 0xCFC) ∨ (0xD28 ≤ off addr ∧ off addr ≤ 0xFFC)) : target addr = .reserved := by
  cases ht : target addr with
  | reserved => rfl
  | id | cmd | status | errCause | result | key | block | sboxWindow | isboxWindow | rkWindow | rconWindow =>
    have ho := off_of_target ht rfl
    omega

/-- A read of the same word gives the same (R91). -/
theorem memRead_congr {a a' : Nat} (h : wordIndex a = wordIndex a') (s : State) : memRead a s = memRead a' s := by
  simp only [memRead, target_congr h]

/-- A write of the same word does the same (R91). -/
theorem memWrite_congr {a a' : Nat} (h : wordIndex a = wordIndex a') (v : Word) (s : State) :
    memWrite a v s = memWrite a' v s := by
  simp only [memWrite, memWriteBy, target_congr h]

/-- A reserved offset reads 0 (R82). -/
theorem memRead_reserved {addr : Nat} (ht : target addr = .reserved) (s : State) : memRead addr s = 0 := by
  simp [memRead, ht, readTarget]

/-- Only CMD, STATUS, KEYn and STATEn take writes (R82, R88). -/
theorem memWrite_ignored {addr : Nat} (v : Word) (s : State) (hcmd : off addr ≠ 0x004) (hstatus : off addr ≠ 0x008)
    (hdata : ¬ (0x020 ≤ off addr ∧ off addr ≤ 0x03C)) : memWrite addr v s = .next s := by
  rw [memWrite_eq]
  rcases memWriteFor_cases hardware addr v s with h | ⟨-, ht, -⟩ | ⟨-, ht, -⟩ | ⟨k, -, ht, -⟩ | ⟨k, -, ht, -⟩
  · exact h
  all_goals
    have ho := off_of_target ht rfl
    omega

/-- Settles O34: both accesses select word `word`. -/
theorem onlyAddressBits11To2Matter : Obligations.OnlyAddressBits11To2Matter := by
  intro base word low v s hlow hword
  have h : wordIndex (4096 * base + 4 * word + low) = wordIndex (4 * word) := by
    simp only [wordIndex]
    omega
  exact ⟨memRead_congr h s, memWrite_congr h v s⟩

/-- A write to STATUS with bit 3 = 0 changes nothing (R33). -/
theorem memWrite_status_bit3_clear {addr : Nat} {v : Word} (s : State) (ho : off addr = 0x008)
    (hv : v.getLsbD 3 = false) : memWrite addr v s = .next s := by
  cases hr : s.resetActive with
  | true => exact memWrite_resetActive v hr
  | false => rw [memWrite_status v hr (target_status_iff.mpr ho), writeStatus, hv, if_neg Bool.false_ne_true]

/-- Settles O35: the offsets named are not those of CMD, KEYn and STATEn. -/
theorem reservedAndReadOnlyWritesAreIgnored : Obligations.ReservedAndReadOnlyWritesAreIgnored := by
  intro addr v s
  refine ⟨fun h => ⟨memRead_reserved (target_reserved h) s, ?_⟩, fun h => ?_, memWrite_status_bit3_clear s⟩
  all_goals exact memWrite_ignored v s (by omega) (by omega) (by omega)

/-! ### Reads while BUSY = 1 -/

/-- STATUS reads as at the completion, but for bit 0 (R33). -/
theorem statusWord_of_busy {f : Status} (h : f.busy = true) : statusWord f = statusWord { f with busy := false } ||| 1 := by
  obtain ⟨busy, tablesReady, keyReady, err⟩ := f
  subst h
  cases tablesReady <;> cases keyReady <;> cases err <;> rfl

/-- What is neither a data register nor a window of data, nor STATUS, reads the same at the completion (R87). -/
theorem memRead_completed {addr : Nat} (s : State)
    (h : ¬ (off addr = 0x010 ∨ (0x020 ≤ off addr ∧ off addr ≤ 0x03C) ∨ (0x400 ≤ off addr ∧ off addr ≤ 0xCAC)))
    (hstatus : off addr ≠ 0x008) : memRead addr (completed s) = memRead addr s := by
  unfold memRead
  cases ht : target addr with
  | id | cmd | errCause | rconWindow | reserved => rfl
  | status | result | key | block | sboxWindow | isboxWindow | rkWindow =>
    have ho := off_of_target ht rfl
    omega

/-- Settles O36, by the target of the address. -/
theorem dataReadsAreZeroWhileBusy : Obligations.DataReadsAreZeroWhileBusy := by
  intro addr s hr hb
  refine ⟨memRead_zeroWhileBusy hr hb, fun h hstatus => (memRead_completed s h hstatus).symm, fun ho => ?_⟩
  have ht := target_status_iff.mpr ho
  rw [memRead_of_target hr ht, memRead_of_target (by exact hr) ht]
  exact statusWord_of_busy hb

/-! ### MemRead -/

/-- The four flags of STATUS are its bits 3 to 0 (R33). -/
theorem statusWord_eq (f : Status) :
    statusWord f = BitVec.ofNat 32 (8 * f.err.toNat + 4 * f.keyReady.toNat + 2 * f.tablesReady.toNat + f.busy.toNat) := by
  obtain ⟨busy, tablesReady, keyReady, err⟩ := f
  cases busy <;> cases tablesReady <;> cases keyReady <;> cases err <;> rfl

/-- An entry that is there is the one the list of entries gives. -/
theorem getElem_eq_toList_getD {α : Type} {n i : Nat} (w : Vector α n) (h : i < n) (d : α) :
    w[(⟨i, h⟩ : Fin n)] = w.toList.getD i d := by
  simp [List.getD, h]

/-- Settles O32: a read of the map's case analysis is a case analysis of reads, on the offsets of the rule; then each case is
put in the rule's words. -/
theorem memReadFollowsTheMap : Obligations.MemReadFollowsTheMap := by
  intro addr s
  simp only [memRead, target, targetAt, ← off_eq_offsetOf, apply_ite (readTarget s), apply_dite (readTarget s)]
  simp only [readTarget, statusWord_eq, unlessBusy, getElem_eq_toList_getD _ _ (0 : Word),
    getElem_eq_toList_getD _ _ (0 : Byte), dite_eq_ite]
  rfl

/-! ### MemWrite -/

/-- What R359 makes of a legal word while BUSY = 0: the checks of R358 read the fields of its command. -/
theorem offerSpec_of_decode {v : Word} {i : Instr} {s : State} (hd : decode v = .ok i) (hb : s.status.busy = false)
    (delay draws : Nat) : offerSpec v s delay draws =
      if i.opcode.toNat = 0x20 ∧ i.rnd.toNat > 10 then recorded 4 s
      else if i.opcode.toNat ∈ [0x02, 0x03, 0x20] ∧ s.status.keyReady = false then recorded 3 s
      else accepted v (if i.opcode.toNat = 0x11 ∧ i.opa = 0#8 then recorded 5 s else s) delay draws := by
  obtain ⟨-, hopc, hrnd, hopa, -⟩ := fields_of_decode hd
  have hlegal : ¬ ∃ e, decode v = .error e := by simp [hd]
  rw [offerSpec, hb, if_neg Bool.false_ne_true, hopc, hrnd, hopa]
  exact if_neg (exists_decode_error_iff.not.mp hlegal)

/-- Acceptance draws the next latency (R359, log 1). -/
theorem accepted_latency (v : Word) (s : State) :
    accepted v s (Config.latency s.draws) (s.draws + 1) = accept v s := rfl

/-- The offer of a command that needs the key (R354). -/
theorem offer_needsKey (v : Word) (s : State) : offer v (needsKey s) s =
    if s.status.keyReady = false then recorded 3 s else accepted v s (Config.latency s.draws) (s.draws + 1) := by
  unfold needsKey
  cases s.status.keyReady <;> rfl

/-- The checks of R358, command by command, are those of R359 by opcode. -/
theorem offer_verdictOf_eq (v : Word) (i : Instr) (s : State) : offer v (verdictOf i s) s =
    if i.opcode.toNat = 0x20 ∧ i.rnd.toNat > 10 then recorded 4 s
    else if i.opcode.toNat ∈ [0x02, 0x03, 0x20] ∧ s.status.keyReady = false then recorded 3 s
    else accepted v (if i.opcode.toNat = 0x11 ∧ i.opa = 0#8 then recorded 5 s else s)
      (Config.latency s.draws) (s.draws + 1) := by
  cases i with
  | encrypt | decrypt => simp [verdictOf, Instr.opcode, offer_needsKey]
  | addRoundKey rnd a b =>
    by_cases hr : rnd.toNat ≤ 10
    · simp [verdictOf, Instr.opcode, Instr.rnd, hr, offer_needsKey]
    · rw [verdictOf, if_neg hr]
      exact (if_pos ⟨rfl, Nat.lt_of_not_le hr⟩).symm
  | gfInv rnd a b =>
    by_cases ha : a = 0#8
    · subst ha
      rfl
    · simp [verdictOf, Instr.opcode, Instr.opa, ha, offer, accepted_latency]
  | _ => rfl

/-- OfferCommand is the pseudocode of R359, for every word and state. -/
theorem offerCommand_eq_offerSpec (v : Word) (s : State) :
    offerCommand v s = .next (offerSpec v s (Config.latency s.draws) (s.draws + 1)) := by
  rw [offerCommand_eq]
  rcases offerCommandFor_cases hardware v s with ⟨hb, h⟩ | ⟨hb, hd, h⟩ | ⟨i, hb, hd, h⟩ <;> rw [h]
  · exact congrArg _ (if_pos hb).symm
  · rw [offerSpec, hb, if_neg Bool.false_ne_true]
    exact congrArg _ (if_pos (exists_decode_error_iff.mp hd)).symm
  · rw [offerSpec_of_decode hd hb, encode_of_decode hd, offer_verdictOf_eq]

/-- A write to CMD is an offer (R90). -/
theorem memWrite_cmd {s : State} {addr : Nat} (v : Word) (hr : s.resetActive = false) (ht : target addr = .cmd) :
    memWrite addr v s = offerCommand v s := by simp [memWrite, memWriteBy, offerCommand, hr, ht]

/-- A word stored at a place that is there. -/
theorem setIfInBounds_eq_set (q : Quad) (k : Fin 4) (v : Word) : q.setIfInBounds k v = q.set k v := by
  simp [Vector.setIfInBounds, Vector.set, Array.setIfInBounds]

/-- Settles O33, along the rule's case analysis: each offset by the rule of its register. -/
theorem memWriteFollowsTheMap : Obligations.MemWriteFollowsTheMap := by
  intro addr v s
  refine ⟨Config.latency s.draws, s.draws + 1, ?_⟩
  simp only [memWriteSpec]
  by_cases hr : s.resetActive = true
  · rw [if_pos hr, memWrite_resetActive v hr]
  rw [if_neg hr]
  rw [Bool.not_eq_true] at hr
  by_cases hcmd : off addr = 0x004
  · rw [if_pos hcmd, memWrite_cmd v hr (target_cmd_iff.mpr hcmd), offerCommand_eq_offerSpec]
  rw [if_neg hcmd]
  by_cases hstatus : off addr = 0x008
  · rw [if_pos hstatus]
    exact memWrite_status v hr (target_status_iff.mpr hstatus)
  rw [if_neg hstatus]
  by_cases hkey : 0x020 ≤ off addr ∧ off addr ≤ 0x02C
  · obtain ⟨k, ht⟩ := exists_target_key_iff.mpr hkey
    have hk : (off addr - 0x020) / 4 = k := by rw [target_key_iff.mp ht]; omega
    rw [if_pos hkey, memWrite_key v hr ht, hk, setIfInBounds_eq_set]
    rfl
  rw [if_neg hkey]
  by_cases hblock : 0x030 ≤ off addr ∧ off addr ≤ 0x03C
  · obtain ⟨k, ht⟩ := exists_target_block_iff.mpr hblock
    have hk : (off addr - 0x030) / 4 = k := by rw [target_block_iff.mp ht]; omega
    rw [if_pos hblock, memWrite_block v hr ht, hk, setIfInBounds_eq_set]
    rfl
  rw [if_neg hblock]
  have h4 := off_mod_four addr
  exact memWrite_ignored v s hcmd hstatus (by omega)

end Sys2Proof.Machine
end

section
/-! PROOFS. A step is the command's meaning or the host's next act (20_memory.md R96). -/

namespace Sys2Proof.Machine

open Sys2Proof.Statements (off notBusy)

/-- The core step of a running command, under every parameter (R96). -/
theorem stepFor_run (p : Config.Params) {s : State} {i : Instr} (hm : coreMoves s = true) (hp : s.phase = .run)
    (hd : decode s.cur = .ok i) : stepFor p s = execFor p i s := by
  rw [stepFor_core p hm, coreStepBy, hp]
  simp only [hd]

theorem slotPassed_delay_le (s : State) : (slotPassed s).delay ≤ s.delay := by
  rw [slotPassed_delay]
  split <;> omega

/-- Taking the next act leaves the list without it, and the busy period as `slotPassed` leaves it. -/
theorem popHost_slotPassed_cons {s : State} {act : HostAct} {rest : List HostAct} (hh : s.host = act :: rest) :
    popHost (slotPassed s) = { s with host := rest, delay := (slotPassed s).delay } := by
  rw [popHost_slotPassed_eq, hh, List.tail_cons]

/-- A write to CMD while BUSY = 0 runs the offer of the word written (R90, R359). -/
theorem step_offers {s : State} {i : Instr} {addr : Nat} {v : Word} {rest : List HostAct} (hr : s.resetActive = false)
    (hb : notBusy s) (hh : s.host = .wr addr v :: rest) (ho : off addr = 0x004) (hd : decode v = .ok i) :
    step s = exec i { s with host := rest } := by
  have hb' : s.status.busy = false := hb
  have hm : coreMoves s = false := by simp [coreMoves, hb']
  rw [step_host hm, hostStep_wr hh, popHost_slotPassed_cons hh, slotPassed_of_idle s hb',
    memWrite_cmd v (by exact hr) (target_cmd_iff.mpr ho)]
  simp [offerCommand, offerCommandBy, hb', hd]

/-- Settles O6: the core's step by what is in CUR, the host's by its next act. -/
theorem stepRunsTheDecodedCommand : Obligations.StepRunsTheDecodedCommand := by
  have hmoves (s : State) (hr : s.resetActive = false) (hb : s.status.busy = true) (hp : s.phase = .run)
      (hdelay : s.delay = 0) : coreMoves s = true := (coreMoves_iff s).mpr ⟨hr, hb, by simp [hp], hdelay⟩
  refine ⟨fun s i hr hb hp hdelay => step_run (hmoves s hr hb hp hdelay) hp, fun s i addr v rest => step_offers,
    fun s addr v rest hm hh => ⟨_, slotPassed_delay_le s, ?_⟩, fun s addr rest hm hh => ⟨_, slotPassed_delay_le s, ?_⟩,
    fun s rest hm hh => ⟨_, slotPassed_delay_le s, ?_⟩, fun s hm hh => ⟨_, slotPassed_delay_le s, ?_⟩,
    fun p s i hr hb hp hdelay => stepFor_run p (hmoves s hr hb hp hdelay) hp,
    congrFun stepFor_hardware, fun i => congrFun (congrFun execFor_hardware i)⟩ <;> rw [step_host hm]
  · rw [hostStep_wr hh, popHost_slotPassed_cons hh]
  · rw [hostStep_rd hh, popHost_slotPassed_cons hh]
  · rw [hostStep_wait hh, popHost_slotPassed_cons hh]
    split
    · rw [← slotPassed_eq]
    · rfl
  · rw [hostStep_nil hh, ← slotPassed_eq]

end Sys2Proof.Machine
end

section
/-! PROOFS. Decoder and encoder undo one another (30_encoding.md R120, R131, R132), which words are no command (R128), and
that the fields a command does not use do not matter (R129). -/

namespace Sys2Proof

/-! ### Decoder and encoder -/

/-- The map has a row at the opcode of every command, and it makes the command of its fields (R127). -/
theorem opcodeMap_find_opcode (i : Instr) :
    ∃ row, opcodeMap.find? (fun row => row.opc == i.opcode) = some row ∧ row.command i.rnd i.opa i.opb = i := by
  cases i <;> exact ⟨_, rfl, rfl⟩

/-- The word of a command decodes to it (R131, R132). -/
theorem decode_encode (i : Instr) : decode (encode i) = .ok i := by
  obtain ⟨hopc, hrnd, hrsv, hopa, hopb⟩ := Laws.EncodedFields.of_fields i
  obtain ⟨row, hrow, hcommand⟩ := opcodeMap_find_opcode i
  unfold decode
  rw [hopc, hrnd, hrsv, hopa, hopb, hrow, if_neg (not_not.mpr rfl)]
  exact congrArg Except.ok hcommand

/-- Settles O1: the fields read back from the word find the command's row in the opcode map. -/
theorem decodeOfEncode : Obligations.DecodeOfEncode := decode_encode

/-- Exactly one word decodes to a command: its own (R131, R132). -/
theorem decode_eq_ok_iff {v : Word} {i : Instr} : decode v = .ok i ↔ encode i = v :=
  ⟨encode_of_decode, fun h => h ▸ decode_encode i⟩

/-- A word is a command exactly when RSV is 0 and its opcode is one of the 13 (R128). -/
theorem exists_decode_ok_iff {v : Word} :
    (∃ i, decode v = .ok i) ↔ fieldRsv v = 0 ∧
      (fieldOpc v).toNat ∈ [0x00, 0x01, 0x02, 0x03, 0x10, 0x11, 0x20, 0x21, 0x22, 0x23, 0x31, 0x32, 0x33] := by
  have hnot : (∃ i, decode v = .ok i) ↔ ¬ ∃ e, decode v = .error e := by cases decode v <;> simp
  rw [hnot, exists_decode_error_iff, not_or, not_not, not_not]

/-- NOP is every word with RSV = 0 and OPC = 0 (R129, R295). -/
theorem exists_decode_nop_iff {v : Word} :
    (∃ rnd a b, decode v = .ok (.nop rnd a b)) ↔ fieldRsv v = 0 ∧ fieldOpc v = 0x00 := by
  constructor
  · rintro ⟨rnd, a, b, hd⟩
    obtain ⟨hrsv, hopc, -⟩ := fields_of_decode hd
    exact ⟨hrsv, hopc.symm⟩
  · rintro ⟨hrsv, hopc⟩
    refine ⟨fieldRnd v, fieldOpa v, fieldOpb v, decode_eq_ok_iff.mpr ?_⟩
    obtain ⟨eopc, ernd, ersv, eopa, eopb⟩ := Laws.EncodedFields.nop (fieldRnd v) (fieldOpa v) (fieldOpb v)
    exact word_ext_fields (eopc.trans hopc.symm) ernd (ersv.trans hrsv.symm) eopa eopb

/-- Settles O2: the legal words, then the fields of a decoded word. -/
theorem decodedFieldsAreTheWordsFields : Obligations.DecodedFieldsAreTheWordsFields := by
  refine ⟨fun v => exists_decode_ok_iff, fun v i hd => ?_⟩
  obtain ⟨hrsv, hopc, hrnd, hopa, hopb⟩ := fields_of_decode hd
  exact ⟨hrsv, hopc, hrnd, hopa, hopb, encode_of_decode hd⟩

/-- Settles O4, by running the decoder on each word. -/
theorem sampleWordsDecode : Obligations.SampleWordsDecode := by
  unfold Obligations.SampleWordsDecode
  decide

end Sys2Proof

namespace Sys2Proof.Machine

/-! ### Illegal words -/

/-- The bytes that are no opcode, in the four ranges of R128. -/
theorem not_mem_opcodes_iff (o : Byte) :
    o.toNat ∉ [0x00, 0x01, 0x02, 0x03, 0x10, 0x11, 0x20, 0x21, 0x22, 0x23, 0x31, 0x32, 0x33] ↔
      (0x04 ≤ o.toNat ∧ o.toNat ≤ 0x0F) ∨ (0x12 ≤ o.toNat ∧ o.toNat ≤ 0x1F) ∨ (0x24 ≤ o.toNat ∧ o.toNat ≤ 0x30) ∨
        (0x34 ≤ o.toNat ∧ o.toNat ≤ 0xFF) := by
  have hlt := o.isLt
  simp only [List.mem_cons, List.not_mem_nil, or_false]
  omega

/-- An illegal word offered while BUSY = 0 only records ILLEGAL_CMD (R352, R359). -/
theorem offerCommand_illegal {v : Word} {s : State} {e : Illegal} (hb : s.status.busy = false) (hd : decode v = .error e) :
    offerCommand v s = .next (raiseErr .illegalCmd s) := by
  simp [offerCommand, offerCommandBy, hb, hd]

/-- Settles O3: the illegal words, their opcodes by range and number, and the offer of one. -/
theorem illegalWordsAreRejected : Obligations.IllegalWordsAreRejected :=
  ⟨fun _ => exists_decode_error_iff, not_mem_opcodes_iff, by decide +kernel, fun _ _ _ hb hd => offerCommand_illegal hb hd⟩

/-! ### Unused fields -/

section
variable (p : Config.Params) (i : Instr) (s : State)

/-- The effect of a command uses no unused field (R129). -/
@[simp] theorem effectFor_canonical : effectFor p i.canonical = effectFor p i := by
  cases i <;> rfl

/-- The checks of a command use no unused field (R129). -/
@[simp] theorem verdictOf_canonical : verdictOf i.canonical s = verdictOf i s := by
  cases i <;> rfl

@[simp] theorem groupExists_canonical : groupExists i.canonical ↔ groupExists i := by
  cases i <;> rfl

/-- With BUSY = 1 a command's unused fields do not matter: it completes, stops or is dropped as its canonical form (R129). -/
theorem execFor_canonical_of_busy (hb : s.status.busy = true) : execFor p i s = execFor p i.canonical s := by
  by_cases hp : s.phase = .run
  · by_cases hg : groupExists i
    · rw [execFor_completes p i s hb hp hg, execFor_completes p _ s hb hp (by simpa using hg), effectFor_canonical]
    · rw [execFor_faults p i s hb hp hg, execFor_faults p _ s hb hp (by simpa using hg)]
  · rw [execFor_dropped p i s hb hp, execFor_dropped p _ s hb hp]

end

/-- Offers that find the same differ in CUR alone (R359). -/
theorem offer_eq_of_cur (v w : Word) (verdict : Verdict) (s : State) :
    { offer v verdict s with cur := 0 } = { offer w verdict s with cur := 0 } := by
  cases verdict <;> rfl

/-- Settles O5: the two moments of a command, and the words of NOP. -/
theorem unusedFieldsDoNotMatter : Obligations.UnusedFieldsDoNotMatter := by
  refine ⟨fun i s hb => ?_, fun i s hb => ?_, fun v => exists_decode_nop_iff⟩
  · simpa using execFor_canonical_of_busy hardware i s hb
  · refine ⟨_, _, exec_offered i s hb, exec_offered i.canonical s hb, ?_⟩
    rw [verdictOf_canonical]
    exact offer_eq_of_cur _ _ _ s

end Sys2Proof.Machine
end

section
/-! PROOFS. WAIT ends (30_encoding.md R139, 70_reset_and_hazards.md R412): its polls use up the busy period, the core step
ends it, and the next poll reads BUSY = 0. -/

namespace Sys2Proof.Machine

open Sys2Proof.Safety

/-! ### The completion -/

@[simp] theorem effectFor_host (p : Config.Params) (i : Instr) (s : State) : (effectFor p i s).host = s.host := by
  obtain ⟨-, -, -, -, -, -, -, h, -⟩ := effectFor_frame p i s; exact h

/-- The group of a command that passes its checks exists (R355). -/
theorem groupExists_of_passesChecks {i : Instr} {s : State} (h : passesChecks i s = true) : groupExists i := by
  cases i with
  | addRoundKey r a b =>
    simp only [passesChecks, Bool.and_eq_true, decide_eq_true_eq] at h
    exact h.1
  | _ => trivial

/-- Where the core moves, a good state's step completes what is in progress: BUSY <- 0, and reset and the host's list are as
before (R96). -/
theorem step_completes {s : State} (hi : Inv s) (hm : coreMoves s = true) :
    ∃ t, step s = .next t ∧ t.status.busy = false ∧ t.resetActive = s.resetActive ∧ t.host = s.host := by
  obtain ⟨-, hb, hidle, -⟩ := (coreMoves_iff s).mp hm
  cases hp : s.phase with
  | init => exact ⟨_, step_init hm hp, rfl, rfl, rfl⟩
  | run =>
    obtain ⟨i, hd, hc⟩ := hi.current hp
    have hnext := (step_run hm hp hd).trans (exec_completes i s hb hp (groupExists_of_passesChecks hc))
    exact ⟨_, hnext, by simp⟩
  | idle => exact absurd hp hidle

/-! ### The polls of WAIT -/

theorem statusWord_getLsbD_zero (f : Status) : (statusWord f).getLsbD 0 = f.busy := by
  obtain ⟨busy, tablesReady, keyReady, err⟩ := f
  cases busy <;> cases tablesReady <;> cases keyReady <;> cases err <;> rfl

/-- Outside reset bit 0 of what STATUS reads is BUSY (R33). -/
theorem memRead_status_bit0 {s : State} (hr : s.resetActive = false) : (memRead 0x008 s).getLsbD 0 = s.status.busy := by
  rw [memRead_of_target hr (x := .status) (by decide)]
  exact statusWord_getLsbD_zero s.status

section
variable {s : State} {rest : List HostAct} (hr : s.resetActive = false) (hh : s.host = .wait :: rest)
include hr hh

/-- A poll that reads BUSY = 1 stays at the head of the list (R139). -/
theorem step_wait_busy (hb : s.status.busy = true) (hm : coreMoves s = false) : step s = .next (slotPassed s) := by
  rw [step_host hm, hostStep_wait hh, memRead_status_bit0 hr, if_pos hb]

/-- A poll that reads BUSY = 0 ends the WAIT (R139). -/
theorem step_wait_idle (hb : s.status.busy = false) : step s = .next (popHost s) := by
  have hm : coreMoves s = false := by simp [coreMoves, hb]
  rw [step_host hm, hostStep_wait hh, memRead_status_bit0 hr, hb, if_neg Bool.false_ne_true, slotPassed_of_idle s hb]

/-- With BUSY = 0 a WAIT is one step. -/
theorem run_wait_idle (hb : s.status.busy = false) :
    ∃ t, Host.Core.run core 1 s = .next t ∧ t.host = rest ∧ t.status.busy = false :=
  ⟨popHost s, run_succ core 0 (step_wait_idle hr hh hb), by simp [hh], by simpa using hb⟩

end

/-- From a good busy state a WAIT is the busy period's host steps, the core step and one more poll. -/
theorem run_wait_busy {s : State} {rest : List HostAct} (hi : Inv s) (hr : s.resetActive = false)
    (hh : s.host = .wait :: rest) (hb : s.status.busy = true) :
    ∃ t, Host.Core.run core (s.delay + 2) s = .next t ∧ t.host = rest ∧ t.status.busy = false := by
  induction hd : s.delay generalizing s with
  | zero =>
    have hidle : s.phase ≠ .idle := hi.busy.mp hb
    obtain ⟨u, hstep, hub, hur, huh⟩ := step_completes hi ((coreMoves_iff s).mpr ⟨hr, hb, hidle, hd⟩)
    rw [run_succ core 1 hstep]
    exact run_wait_idle (hur.trans hr) (huh.trans hh) hub
  | succ d ih =>
    have hstep := step_wait_busy hr hh hb (coreMoves_of_delay (by omega))
    rw [run_succ core (d + 2) hstep]
    refine ih ?_ (by simpa using hr) (by simpa using hh) (by simpa using hb) (by simp [slotPassed_delay, hb, hd])
    rw [slotPassed_eq]
    exact hi.withHostSide _ _ _

/-- Settles O57: one poll where BUSY = 0, and the polls of the busy period before it where BUSY = 1. -/
theorem waitEnds : Obligations.WaitEnds := by
  intro s rest hi hr hh
  cases hb : s.status.busy with
  | false =>
    obtain ⟨t, hrun, ht⟩ := run_wait_idle hr hh hb
    exact ⟨1, t, by omega, hrun, ht⟩
  | true =>
    obtain ⟨t, hrun, ht⟩ := run_wait_busy hi hr hh hb
    exact ⟨s.delay + 2, t, le_rfl, hrun, ht⟩

end Sys2Proof.Machine
end

section
/-! PROOFS. GF(2^8) is a field (40_field_arithmetic.md R160 to R164). Every byte is a sum of powers of x, and multiplication
by x is xtime, so a law of gmul is shown at 1 and carried along XOR and xtime. -/

namespace Sys2Proof.Machine

open Sys2Proof.Statements (gpow)

/-! ### Multiplication by x -/

theorem shiftFold_eq_xtime (a : Byte) :
    (if a.getLsbD 7 then (a <<< 1) ^^^ 0x1B#8 else a <<< 1) = xtime a := by
  unfold xtime
  split <;> simp

theorem xtime_xor (a b : Byte) : xtime (a ^^^ b) = xtime a ^^^ xtime b := by
  simpa only [shiftFold_eq_xtime] using shiftFold_xor a b

/-- One round of the multiply loop (R161). -/
theorem gmulLoop_succ (n : Nat) (a b p : Byte) :
    gmulLoop (n + 1) a b p = gmulLoop n (xtime a) (b >>> 1) (if b.getLsbD 0 then p ^^^ a else p) := by
  rw [gmulLoop, shiftFold_eq_xtime]

theorem gmulLoop_xtime_left (n : Nat) (a b p : Byte) :
    gmulLoop n (xtime a) b (xtime p) = xtime (gmulLoop n a b p) := by
  induction n generalizing a b p with
  | zero => rfl
  | succ n ih =>
    rw [gmulLoop_succ, gmulLoop_succ, ← ih]
    split
    · rw [xtime_xor]
    · rfl

theorem gmul_xtime_left (a b : Byte) : gmul (xtime a) b = xtime (gmul a b) := gmulLoop_xtime_left 8 a b 0

/-! ### Bytes as sums of powers of x -/

/-- A byte is the XOR of its bits. -/
theorem xor_bits_eq :
    ∀ x : Byte, (List.range 8).foldr (fun k y => (if x.getLsbD k then 1#8 <<< k else 0) ^^^ y) 0 = x :=
  byte_forall (by decide +kernel)

/-- A property of 1 that XOR and multiplication by x keep is one of every byte. -/
theorem byte_induction {P : Byte → Prop} (hone : P 1) (hxor : ∀ a b, P a → P b → P (a ^^^ b))
    (hxtime : ∀ a, P a → P (xtime a)) (x : Byte) : P x := by
  have hzero : P 0 := hxor 1 1 hone hone
  have hpow (k : Nat) : P (xtime^[k] 1) := by
    induction k with
    | zero => exact hone
    | succ k ih => rw [Function.iterate_succ_apply']; exact hxtime _ ih
  have hbit : ∀ k ∈ List.range 8, 1#8 <<< k = xtime^[k] 1 := by decide
  rw [← xor_bits_eq x]
  refine List.foldrRecOn _ _ hzero fun y hy k hk => hxor _ y ?_ hy
  split
  · rw [hbit k hk]
    exact hpow k
  · exact hzero

/-! ### The laws of the product (R162) -/

theorem gmul_one_left : ∀ b : Byte, gmul 1 b = b := byte_forall (by decide +kernel)

theorem gmul_xtime_right (a b : Byte) : gmul a (xtime b) = xtime (gmul a b) := by
  induction a using byte_induction with
  | hone => rw [gmul_one_left, gmul_one_left]
  | hxor a a' ih ih' => rw [gmul_distrib_left, gmul_distrib_left, xtime_xor, ih, ih']
  | hxtime a ih => rw [gmul_xtime_left, gmul_xtime_left, ih]

theorem gmul_one_right (a : Byte) : gmul a 1 = a := by
  induction a using byte_induction with
  | hone => rfl
  | hxor a a' ih ih' => rw [gmul_distrib_left, ih, ih']
  | hxtime a ih => rw [gmul_xtime_left, ih]

theorem gmul_comm (a b : Byte) : gmul a b = gmul b a := by
  induction a using byte_induction with
  | hone => rw [gmul_one_left, gmul_one_right]
  | hxor a a' ih ih' => rw [gmul_distrib_left, gmul_distrib_right, ih, ih']
  | hxtime a ih => rw [gmul_xtime_left, gmul_xtime_right, ih]

theorem gmul_assoc (a b c : Byte) : gmul (gmul a b) c = gmul a (gmul b c) := by
  induction a using byte_induction with
  | hone => rw [gmul_one_left, gmul_one_left]
  | hxor a a' ih ih' => simp only [gmul_distrib_left, ih, ih']
  | hxtime a ih => simp only [gmul_xtime_left, ih]

theorem xtime_eq_gmul_two (a : Byte) : xtime a = gmul 0x02 a := by
  rw [show (0x02 : Byte) = xtime 1 from rfl, gmul_xtime_left, gmul_one_left]

/-- Settles O44: the product with 2 is xtime, and 3 is 2 XOR 1. -/
theorem xtimeIsMultiplicationByTwo : Obligations.XtimeIsMultiplicationByTwo := by
  intro a
  have htwo : gmul a 0x02 = xtime a := by rw [xtime_eq_gmul_two, gmul_comm]
  have hthree : gmul a 0x03 = xtime a ^^^ a := by
    rw [show (0x03 : Byte) = 0x02 ^^^ 1 from rfl, gmul_distrib_right, htwo, gmul_one_right]
  exact ⟨htwo.symm, htwo, hthree⟩

/-! ### Inverses (R163) -/

/-- The Euclid loop answers the inverse, for each of the 255 bytes other than 0. -/
theorem gmul_ginv : ∀ {x : Byte}, x ≠ 0 → gmul x (ginv x) = 1 := @(byte_forall (by decide +kernel))

theorem gmul_left_cancel {x y z : Byte} (hx : x ≠ 0) (h : gmul x y = gmul x z) : y = z := by
  have hcancel (w : Byte) : gmul (ginv x) (gmul x w) = w := by
    rw [← gmul_assoc, gmul_comm (ginv x), gmul_ginv hx, gmul_one_left]
  rw [← hcancel y, h, hcancel]

theorem eq_ginv_of_gmul_eq_one {x y : Byte} (hx : x ≠ 0) (h : gmul x y = 1) : y = ginv x :=
  gmul_left_cancel hx (h.trans (gmul_ginv hx).symm)

/-- There are no zero divisors. -/
theorem eq_zero_or_eq_zero_of_gmul_eq_zero {a b : Byte} (h : gmul a b = 0) : a = 0 ∨ b = 0 := by
  by_cases ha : a = 0
  · exact .inl ha
  · exact .inr (gmul_left_cancel ha (h.trans (gmul_zero_right a).symm))

/-! ### The power 254 (R163) -/

theorem gpow_add (x : Byte) (m n : Nat) : gpow x (m + n) = gmul (gpow x m) (gpow x n) := by
  induction m with
  | zero => rw [Nat.zero_add, gpow, gmul_one_left]
  | succ m ih => rw [Nat.succ_add, gpow, gpow, ih, gmul_assoc]

theorem gpow_gmul (x y : Byte) (n : Nat) : gpow (gmul x y) n = gmul (gpow x n) (gpow y n) := by
  have hswap (u v w z : Byte) : gmul (gmul u v) (gmul w z) = gmul (gmul u w) (gmul v z) := by
    rw [gmul_assoc, gmul_assoc, ← gmul_assoc v, gmul_comm v w, gmul_assoc]
  induction n with
  | zero => exact (gmul_one_left 1).symm
  | succ n ih => rw [gpow, gpow, gpow, ih, hswap]

/-- In characteristic 2 the square of a sum is the sum of the squares, and so for the powers 2^k. -/
theorem gpow_two_pow_xor (x y : Byte) (k : Nat) : gpow (x ^^^ y) (2 ^ k) = gpow x (2 ^ k) ^^^ gpow y (2 ^ k) := by
  have hsquare (u v : Byte) : gmul (u ^^^ v) (u ^^^ v) = gmul u u ^^^ gmul v v := by
    simp only [gmul_distrib_left, gmul_distrib_right, gmul_comm v u, BitVec.xor_assoc, xor_self_left]
  induction k with
  | zero => simp only [Nat.pow_zero, gpow, gmul_one_right]
  | succ k ih => simp only [Nat.pow_succ, Nat.mul_two, gpow_add, ih, hsquare]

/-- Every byte is its own 256th power: 1 and x are, and the power of a sum or product is that of its parts. -/
theorem gpow_256 (x : Byte) : gpow x 256 = x := by
  induction x using byte_induction with
  | hone => decide +kernel
  | hxor x y ihx ihy => exact (gpow_two_pow_xor x y 8).trans (congrArg₂ _ ihx ihy)
  | hxtime x ih =>
    have htwo : gpow 0x02 256 = 0x02 := by decide +kernel
    rw [xtime_eq_gmul_two, gpow_gmul, htwo, ih]

theorem ginv_eq_gpow (x : Byte) : ginv x = gpow x 254 := by
  by_cases hx : x = 0
  · subst hx
    exact (gmul_zero_left _).symm
  · refine (eq_ginv_of_gmul_eq_one hx (gmul_left_cancel hx ?_)).symm
    rw [gmul_one_right]
    exact gpow_256 x

/-- The Euclid loop is done after 7 rounds and its answer fits a byte, for each of the 255 bytes other than 0. -/
theorem euclidLoop_bounds : ∀ x : Byte, x ≠ 0 →
    euclidLoop 7 0x11B x.toNat 0 1 = euclidLoop 8 0x11B x.toNat 0 1 ∧ euclidLoop 8 0x11B x.toNat 0 1 < 256 :=
  byte_forall (by decide +kernel)

/-- Settles O43: the Euclid loop on each byte, uniqueness by cancellation and the power by Frobenius. -/
theorem ginvIsTheInverse : Obligations.GinvIsTheInverse :=
  ⟨fun _ hx => ⟨gmul_ginv hx, fun _ => eq_ginv_of_gmul_eq_one hx⟩, rfl, euclidLoop_bounds, ginv_eq_gpow⟩

/-! ### The product modulo 0x11B (R160, R162) -/

theorem polyMulLoop_xor_left (n a a' b : Nat) :
    polyMulLoop n (a ^^^ a') b = polyMulLoop n a b ^^^ polyMulLoop n a' b := by
  induction n generalizing a a' b with
  | zero => exact (Nat.xor_self 0).symm
  | succ n ih =>
    simp only [polyMulLoop, Nat.shiftLeft_xor_distrib, ih]
    split <;> simp [Nat.xor_assoc, Nat.xor_left_comm]

theorem polyMulLoop_shiftLeft (n a b : Nat) : polyMulLoop n (a <<< 1) b = polyMulLoop n a b <<< 1 := by
  induction n generalizing a b with
  | zero => rfl
  | succ n ih =>
    simp only [polyMulLoop, Nat.shiftLeft_xor_distrib, ih]
    split <;> simp

/-- Two polynomials differ by a multiple of 0x11B. -/
def CongrModulus (x y : Nat) : Prop := ∃ q, x = y ^^^ polyMul q modulus

namespace CongrModulus

variable {x x' y y' z : Nat}

theorem refl (x : Nat) : CongrModulus x x := ⟨0, (Nat.xor_zero x).symm⟩

theorem trans (h : CongrModulus x y) (h' : CongrModulus y z) : CongrModulus x z := by
  obtain ⟨q, rfl⟩ := h
  obtain ⟨q', rfl⟩ := h'
  exact ⟨q' ^^^ q, by rw [polyMul, polyMul, polyMul, polyMulLoop_xor_left, Nat.xor_assoc]⟩

theorem xor (h : CongrModulus x y) (h' : CongrModulus x' y') : CongrModulus (x ^^^ x') (y ^^^ y') := by
  obtain ⟨q, rfl⟩ := h
  obtain ⟨q', rfl⟩ := h'
  exact ⟨q ^^^ q', by simp only [polyMul, polyMulLoop_xor_left]; ac_rfl⟩

theorem shiftLeft (h : CongrModulus x y) : CongrModulus (x <<< 1) (y <<< 1) := by
  obtain ⟨q, rfl⟩ := h
  exact ⟨q <<< 1, by rw [polyMul, polyMul, polyMulLoop_shiftLeft, Nat.shiftLeft_xor_distrib]⟩

end CongrModulus

/-- xtime reduces the shifted byte, once if bit 7 was set (R164). -/
theorem congrModulus_xtime (a : Byte) : CongrModulus (a.toNat <<< 1) (xtime a).toNat := by
  have hreduce : ∀ a : Byte, a.toNat <<< 1 = (xtime a).toNat ^^^ polyMul (a.getLsbD 7).toNat modulus :=
    byte_forall (by decide +kernel)
  exact ⟨_, hreduce a⟩

/-- The multiply loop keeps the carry-less product, up to multiples of the modulus. -/
theorem congrModulus_gmulLoop (n : Nat) {a' p' : Nat} {a p : Byte} (b : Byte) (ha : CongrModulus a' a.toNat)
    (hp : CongrModulus p' p.toNat) :
    CongrModulus (p' ^^^ polyMulLoop n a' b.toNat) (gmulLoop n a b p).toNat := by
  induction n generalizing a' p' a b p with
  | zero => simpa [polyMulLoop, gmulLoop] using hp
  | succ n ih =>
    have hbit : b.toNat.testBit 0 = b.getLsbD 0 := rfl
    rw [gmulLoop_succ, polyMulLoop, ← Nat.xor_assoc, hbit, ← BitVec.toNat_ushiftRight]
    refine ih (b >>> 1) (ha.shiftLeft.trans (congrModulus_xtime a)) ?_
    cases b.getLsbD 0
    · simpa using hp
    · simpa using hp.xor ha

/-- A round past the top bit of the right factor does nothing. -/
theorem gmulLoop_succ_of_lt {n : Nat} (a : Byte) {b : Byte} (p : Byte) (hb : b.toNat < 2 ^ n) :
    gmulLoop (n + 1) a b p = gmulLoop n a b p := by
  induction n generalizing a b p with
  | zero =>
    have hzero : b = 0 := BitVec.eq_of_toNat_eq (by simpa using hb)
    rw [hzero, gmulLoop_zero_right, gmulLoop_zero_right]
  | succ n ih =>
    have hshift : (b >>> 1).toNat < 2 ^ n := by simp only [BitVec.toNat_ushiftRight, Nat.shiftRight_one]; omega
    rw [gmulLoop_succ, ih _ _ hshift, ← gmulLoop_succ]

theorem congrModulus_gmul (a b : Byte) : CongrModulus (polyMul a.toNat b.toNat) (gmul a b).toNat := by
  have h := congrModulus_gmulLoop 9 (p := 0) b (.refl a.toNat) (.refl 0)
  rw [gmulLoop_succ_of_lt _ _ b.isLt] at h
  simpa [polyMul, gmul] using h

/-- Settles O42: the loop's congruence, and the laws carried from 1 along XOR and xtime. -/
theorem gmulIsTheFieldProduct : Obligations.GmulIsTheFieldProduct :=
  ⟨congrModulus_gmul, gmul_comm, gmul_assoc, fun a b c => ⟨gmul_distrib_right a b c, gmul_distrib_left a b c⟩,
    fun a b => ⟨gmul_zero_right a, gmul_zero_left b, gmul_one_right a⟩, fun _ _ => eq_zero_or_eq_zero_of_gmul_eq_zero⟩

end Sys2Proof.Machine
end

section
/-! PROOFS. The commands GF_MUL and GF_INV (40_field_arithmetic.md R165, R166), by the rules of an offer and of a completion
that all commands share. -/

namespace Sys2Proof.Machine

open Sys2Proof.Statements (cmd accepts notBusy rejectsBusyAndIllegal offerSpec)

/-! ### The offer of a command (R359) -/

/-- A word that decodes is offered as its command, after the checks of R358. -/
theorem offerCommand_of_decode {v : Word} {i : Instr} {s : State} (hb : notBusy s) (hd : decode v = .ok i) :
    offerCommand v s = .next (offer v (verdictOf i s) s) := by
  rw [offerCommand_eq_offerSpec, offerSpec_of_decode hd hb, offer_verdictOf_eq]

/-- The word written from a command's fields decodes to it (R120). -/
theorem decode_cmd (i : Instr) : decode (cmd i.opb i.opa i.rnd i.opcode) = .ok i := decode_encode i

/-- A command whose checks let it through is accepted with its own word, whether they note an error or not. -/
theorem accepts_cmd {i : Instr} {s noted : State} (hb : notBusy s)
    (h : ∀ v, offer v (verdictOf i s) s = accept v noted) : accepts (cmd i.opb i.opa i.rnd i.opcode) s noted :=
  ⟨Config.latency noted.draws, noted.draws + 1, (offerCommand_of_decode hb (decode_cmd i)).trans (congrArg _ (h _))⟩

/-- BUSY and ILLEGAL_CMD reject a word of any opcode (R352, R353). -/
theorem rejectsBusyAndIllegal_all (opc : Byte) : rejectsBusyAndIllegal opc := by
  refine fun v s _ => ⟨fun hb => ?_, fun hb hrsv => ?_⟩
  · rw [offerCommand_eq_offerSpec, offerSpec, if_pos hb]
  · obtain ⟨e, hd⟩ := exists_decode_error_iff.mpr (.inl hrsv)
    exact offerCommand_illegal hb hd

/-! ### The two commands -/

/-- Settles O8: GF_MUL has no check of its own, and the corner cases are laws of the product. -/
theorem gfMulMultipliesIntoResult : Obligations.GfMulMultipliesIntoResult := by
  refine ⟨fun rnd a b => decode_cmd (.gfMul rnd a b),
    fun rnd a b s hb => accepts_cmd (i := .gfMul rnd a b) hb fun _ => rfl,
    rejectsBusyAndIllegal_all _, fun rnd a b s ⟨hb, hp⟩ => exec_completes (.gfMul rnd a b) s hb hp trivial,
    fun a b => ⟨gmul_zero_right a, gmul_zero_left b, gmul_one_left b, gmul_comm a b⟩, ?_⟩
  decide

/-- Settles O9: the check of GF_INV records INV_ZERO for 0 and accepts; the corner cases are laws of the inverse. -/
theorem gfInvInvertsIntoResult : Obligations.GfInvInvertsIntoResult := by
  refine ⟨fun rnd a b => decode_cmd (.gfInv rnd a b),
    fun rnd a b s hb ha => accepts_cmd (i := .gfInv rnd a b) hb fun v => ?_,
    fun rnd b s hb => accepts_cmd (i := .gfInv rnd 0 b) hb fun _ => rfl,
    rejectsBusyAndIllegal_all _, fun rnd a b s ⟨hb, hp⟩ => exec_completes (.gfInv rnd a b) s hb hp trivial,
    rfl, by decide, ginv_involutive, ginv_eq_gpow, by decide, by decide⟩
  rw [verdictOf, if_neg ha, offer]

end Sys2Proof.Machine
end

section
/-! PROOFS. The substitution tables (41_substitution_tables.md): the init sequence builds them (R196), bit k of the
affine transform of this hardware is the parity of bits 0 to k (R191), and FWD and INV undo each other (R195). -/

namespace Sys2Proof.Machine

/-! ### The init sequence (R196) -/

section
variable {s : State} (hr : s.resetActive = false) (hb : s.status.busy = true) (hp : s.phase = .init) (hd : s.delay = 0)
include hr hb hp hd

theorem coreMoves_init : coreMoves s = true := (coreMoves_iff s).mpr ⟨hr, hb, by simp [hp], hd⟩

/-- The core step of the init sequence, under any parameters. -/
theorem stepFor_init (p : Config.Params) : stepFor p s = .next (finish (buildTables p.sboxVariant s)) := by
  rw [stepFor_core p (coreMoves_init hr hb hp hd), coreStepBy, hp]

end

theorem lookup_tables_buildTables (v : Config.SboxVariant) (s : State) (i : Byte) :
    lookup (buildTables v s).sbox i = fwd v i ∧ lookup (buildTables v s).isbox i = inv v i :=
  ⟨lookup_sbox_buildTables v s i, lookup_isbox_buildTables v s i⟩

/-- Settles O7: the core step is `buildTables` and the completion, and `buildTables` leaves FWD and INV in the tables. -/
theorem initSequenceBuildsTheTables : Obligations.InitSequenceBuildsTheTables :=
  ⟨fun s hr hb hp hd => ⟨_, step_init (coreMoves_init hr hb hp hd) hp, lookup_tables_buildTables _ s, rfl⟩,
    fun p s hr hb hp hd => ⟨_, stepFor_init hr hb hp hd p, lookup_tables_buildTables _ s, rfl⟩⟩

/-! ### The affine transform of this hardware (R191) -/

/-- One step of the transform: the running value XORed with its copy shifted by `n`. -/
def xorShift (n : Nat) (t : Byte) : Byte := t ^^^ (t <<< n)

theorem aff_srcShiftSeq (v : Byte) : aff .srcShiftSeq v = xorShift 4 (xorShift 2 (xorShift 1 v)) ^^^ 0x63 := rfl

theorem xorShift_xor (n : Nat) (v w : Byte) : xorShift n (v ^^^ w) = xorShift n v ^^^ xorShift n w := by
  simp only [xorShift, BitVec.shiftLeft_xor_distrib]
  ac_rfl

/-- The parity of bits 0 to `n - 1`. -/
def prefixParity (v : Byte) (n : Nat) : Bool := (List.range n).foldl (fun p j => p ^^ v.getLsbD j) false

theorem prefixParity_zero (v : Byte) : prefixParity v 0 = false := rfl

theorem prefixParity_succ (v : Byte) (n : Nat) : prefixParity v (n + 1) = (prefixParity v n ^^ v.getLsbD n) := by
  simp [prefixParity, List.range_succ]

/-- Bit `k` of `t` is the parity of the `n` bits of `v` that end at bit `k`, fewer where `v` has fewer: the parity of bits
0 to `k` less that of the bits before the window. -/
def IsWindowParity (v : Byte) (n : Nat) (t : Byte) : Prop :=
  ∀ k < 8, t.getLsbD k = (prefixParity v (k + 1) ^^ prefixParity v (k + 1 - n))

theorem isWindowParity_one (v : Byte) : IsWindowParity v 1 v := by
  intro k _
  rw [Nat.add_sub_cancel, prefixParity_succ, Bool.xor_comm (prefixParity v k), Bool.xor_assoc, Bool.xor_self, Bool.xor_false]

/-- A shift by the window's length doubles it: the window that ends at bit `k` is joined by the one before it. -/
theorem IsWindowParity.xorShift {v t : Byte} {n : Nat} (h : IsWindowParity v n t) :
    IsWindowParity v (2 * n) (xorShift n t) := by
  intro k hk
  rw [Machine.xorShift, BitVec.getLsbD_xor, BitVec.getLsbD_shiftLeft, h k hk]
  by_cases hkn : k < n
  · have hstart : k + 1 - n = 0 := by omega
    have hstart' : k + 1 - 2 * n = 0 := by omega
    simp [hkn, hstart, hstart']
  · have hprev : k - n + 1 = k + 1 - n := by omega
    have hstart : k + 1 - n - n = k + 1 - 2 * n := by omega
    simp [hk, hkn, h (k - n) (by omega), hprev, hstart]

/-- Bit `k` of the transform is the parity of bits 0 to `k`: after three doublings the window is the whole byte. -/
theorem getLsbD_aff_srcShiftSeq (v : Byte) {k : Nat} (hk : k < 8) :
    (aff .srcShiftSeq v).getLsbD k = (prefixParity v (k + 1) ^^ (0x63#8).getLsbD k) := by
  have hwindow : IsWindowParity v 8 (xorShift 4 (xorShift 2 (xorShift 1 v))) :=
    (isWindowParity_one v).xorShift.xorShift.xorShift
  have hstart : k + 1 - 8 = 0 := by omega
  rw [aff_srcShiftSeq, BitVec.getLsbD_xor, hwindow k hk, hstart, prefixParity_zero, Bool.xor_false]
  rfl

/-- Without the constant the transform is linear. -/
theorem aff_srcShiftSeq_xor (v w : Byte) :
    aff .srcShiftSeq (v ^^^ w) ^^^ 0x63 = (aff .srcShiftSeq v ^^^ 0x63) ^^^ (aff .srcShiftSeq w ^^^ 0x63) := by
  have hlinear (x : Byte) : aff .srcShiftSeq x ^^^ 0x63 = xorShift 4 (xorShift 2 (xorShift 1 x)) := by
    rw [aff_srcShiftSeq, BitVec.xor_assoc, BitVec.xor_self, BitVec.xor_zero]
  simp only [hlinear, xorShift_xor]

/-- Settles O45: each shift doubles the window whose parity a bit holds, and each shift is linear. -/
theorem affineIsAPrefixParity : Obligations.AffineIsAPrefixParity :=
  ⟨fun v _ hk => getLsbD_aff_srcShiftSeq v hk, fun _ _ h => aff_injective _ h, aff_srcShiftSeq_xor, by decide⟩

/-! ### FWD and INV (R193 to R195, R199) -/

/-- The scan of R194 records at FWD(x) the index x. -/
theorem inv_fwd (v : Config.SboxVariant) (x : Byte) : inv v (fwd v x) = x := by
  have hat := inversePass_at (fwdTable v) (fun i j h => fwd_injective v (by simpa using h)) 256 le_rfl
    (Vector.replicate 256 0) x x.isLt
  rwa [lookup_fwdTable] at hat

theorem fwd_inv (v : Config.SboxVariant) (x : Byte) : fwd v (inv v x) = x := by
  obtain ⟨i, rfl⟩ := fwd_surjective v x
  rw [inv_fwd]

/-- Settles O46: FWD is a permutation, and INV is its inverse by the scan. -/
theorem tablesAreMutuallyInverse : Obligations.TablesAreMutuallyInverse :=
  fun v x => ⟨⟨inv v x, fwd_inv v x, fun j hj => by rw [← hj, inv_fwd]⟩, inv_fwd v x, fwd_inv v x⟩

/-- An entry of INV is read off the forward table. -/
theorem inv_eq_of_fwd_eq {v : Config.SboxVariant} {x y : Byte} (h : fwd v x = y) : inv v y = x := by
  rw [← h, inv_fwd]

/-- The fixed points of FWD, by its 256 entries (R199). -/
theorem fwd_eq_self_iff : ∀ x : Byte, fwd .srcShiftSeq x = x ↔ x = 0x14 ∨ x = 0x77 := byte_forall (by decide +kernel)

/-- Settles O47: entries of FWD by evaluation, entries of INV from those of FWD. -/
theorem tableFacts : Obligations.TableFacts :=
  ⟨by decide, by decide, by decide, by decide, by decide, by decide, inv_eq_of_fwd_eq (by decide),
    inv_eq_of_fwd_eq (by decide), inv_eq_of_fwd_eq (by decide), fwd_eq_self_iff, by decide, by decide⟩

end Sys2Proof.Machine
end

section
/-! PROOFS. The key schedule (42_key_schedule.md): the expansion is the recurrence of R224 and runs backwards from its last
group (R228), KEY_EXPAND puts it in RK (R226), and the micro-step schedules compute what the completions do (R227, R296,
R297). -/

namespace Sys2Proof.Machine

open Sys2Proof.Statements (sboxBuilt sampleKey)

/-! ### The recurrence (R223, R224) -/

theorem expand_getElem_key (sbox : Table) (key : Quad) {k : Nat} (hk : k < 4) : (expand sbox key)[k] = key[k] := by
  rw [expand, keySteps_getElem_initial sbox 40 _ k hk, initialWords, Vector.getElem_ofFn, getD_eq key k hk]

/-- A micro-step reads words that are final and writes the final value of its own. -/
theorem expand_getElem_add_four (sbox : Table) (key : Quad) {n : Nat} (h : n < 40) :
    (expand sbox key)[n + 4] = keyTemp sbox (n + 4) (expand sbox key)[n + 3] ^^^ (expand sbox key)[n] := by
  have hfinal (m j : Nat) (hj : j < m + 4) (hm : m ≤ 40) :
      (expand sbox key)[j] = (keySteps sbox m (initialWords key))[j] :=
    keySteps_getElem_stable sbox m 40 _ j (by omega) hj hm
  rw [hfinal (n + 1) (n + 4) (by omega) (by omega), hfinal n (n + 3) (by omega) (by omega), hfinal n n (by omega) (by omega),
    keySteps, keyStep_getElem, if_pos rfl, getD_eq _ _ (by omega), getD_eq _ _ (by omega)]
  rfl

theorem keyTemp_of_mod_ne_zero (sbox : Table) {i : Nat} (prev : Word) (h : i % 4 ≠ 0) : keyTemp sbox i prev = prev :=
  if_neg h

/-- RotWord by bytes (R221). -/
theorem rotWord_eq_wordOf (w : Word) : rotWord w = wordOf (byteOf w 1) (byteOf w 2) (byteOf w 3) (byteOf w 0) := by
  have hlow : byteOf w 1 ++ byteOf w 2 ++ byteOf w 3 = w.extractLsb' 0 24 := by
    have hhigh : byteOf w 1 ++ byteOf w 2 = w.extractLsb' 8 16 := BitVec.extractLsb'_append_extractLsb'_eq_extractLsb' rfl
    rw [hhigh]
    exact BitVec.extractLsb'_append_extractLsb'_eq_extractLsb' rfl
  rw [wordOf, hlow]
  rfl

theorem subWord_rotWord (sbox : Table) (w : Word) :
    subWord sbox (rotWord w) = wordOf (lookup sbox (byteOf w 1)) (lookup sbox (byteOf w 2)) (lookup sbox (byteOf w 3))
      (lookup sbox (byteOf w 0)) := by
  simp only [subWord, rotWord_eq_wordOf, byteOf_wordOf_0, byteOf_wordOf_1, byteOf_wordOf_2, byteOf_wordOf_3]

theorem rcon_getD (k : Nat) :
    rcon.getD k 0 = ([0x01, 0x02, 0x04, 0x08, 0x10, 0x20, 0x40, 0x80, 0x1B, 0x36] : List Byte).getD k 0 := by
  simp [rcon, Vector.getD]

/-- Settles O48: the words of the key, and each micro-step with its `temp` written by bytes. -/
theorem expandFollowsTheRecurrence : Obligations.ExpandFollowsTheRecurrence := by
  refine fun sbox key => ⟨fun k => expand_getElem_key sbox key k.isLt, fun i h4 h => ?_⟩
  obtain ⟨n, rfl⟩ := Nat.exists_eq_add_of_le' h4
  rw [expand_getElem_add_four sbox key (by omega), keyTemp, subWord_rotWord, rcon_getD]
  rfl

/-- The recurrence determines the expansion: words that follow it are the words of EXPAND. -/
theorem expand_getElem_eq_of_recurrence {sbox : Table} {key : Quad} {w : RoundKeys}
    (hkey : ∀ k : Fin 4, w[k.val] = key[k.val])
    (hstep : ∀ n : Fin 40, w[n.val + 4] = keyTemp sbox (n.val + 4) w[n.val + 3] ^^^ w[n.val]) :
    ∀ (i : Nat) (h : i < 44), (expand sbox key)[i] = w[i]
  | 0, _ | 1, _ | 2, _ | 3, _ => (expand_getElem_key sbox key (by decide)).trans (hkey ⟨_, by decide⟩).symm
  | n + 4, h => by
    rw [expand_getElem_add_four sbox key (by omega), expand_getElem_eq_of_recurrence hkey hstep (n + 3) (by omega),
      expand_getElem_eq_of_recurrence hkey hstep n (by omega)]
    exact (hstep ⟨n, by omega⟩).symm

/-! ### The recurrence backwards (R228) -/

/-- Two expansions that agree on group 10 agree on every word: word `i` is recovered from words `i + 3` and `i + 4`. -/
theorem expand_getElem_eq_of_last_group {sbox : Table} {key key' : Quad}
    (hlast : ∀ j : Fin 4, (expand sbox key)[40 + j.val] = (expand sbox key')[40 + j.val]) (i : Nat) (h : i < 44) :
    (expand sbox key)[i] = (expand sbox key')[i] := by
  by_cases h40 : 40 ≤ i
  · obtain ⟨j, rfl⟩ := Nat.exists_eq_add_of_le h40
    exact hlast ⟨j, by omega⟩
  · have hprev := expand_getElem_eq_of_last_group hlast (i + 3) (by omega)
    have hnext := expand_getElem_eq_of_last_group hlast (i + 4) (by omega)
    rw [expand_getElem_add_four sbox key (by omega), expand_getElem_add_four sbox key' (by omega), hprev] at hnext
    exact (BitVec.xor_right_inj _).mp hnext
termination_by 44 - i

/-- Settles O49: the recurrence away from the multiples of 4, and its run backwards down to the words of the key. -/
theorem keyIsRecoverableFromTheLastGroup : Obligations.KeyIsRecoverableFromTheLastGroup := by
  refine ⟨fun sbox key i h4 h hi => ?_, fun sbox key key' hlast => Vector.ext fun k hk => ?_⟩
  · obtain ⟨n, rfl⟩ := Nat.exists_eq_add_of_le' h4
    rw [expand_getElem_add_four sbox key (by omega), keyTemp_of_mod_ne_zero sbox _ hi]
    rfl
  · rw [← expand_getElem_key sbox key hk, ← expand_getElem_key sbox key' hk]
    exact expand_getElem_eq_of_last_group hlast k (by omega)

/-! ### The micro-step schedules (R227, R296, R297) -/

section
variable (l : Config.StateLayout) (sbox isbox : Table) (rk : RoundKeys)

theorem runStages_stage (w : Work) (sts : List (Nat × Stage)) :
    (runStages l sbox isbox rk w sts).stage = w.stage + sts.length := by
  induction sts generalizing w with
  | nil => rfl
  | cons st sts ih => exact (ih _).trans (Nat.succ_add_eq_add_succ _ _)

/-- The stages of a list work on the block X one after the other. -/
theorem runStages_x (w : Work) (sts : List (Nat × Stage)) :
    (runStages l sbox isbox rk w sts).x = sts.foldl (fun x st => stageFn l sbox isbox rk x st.2) w.x := by
  induction sts generalizing w with
  | nil => rfl
  | cons st sts ih => exact ih _

/-- Each four stages of the schedule are a main round of the pipeline. -/
theorem encryptStages_foldl (x : Block) :
    encryptStages.foldl (fun x st => stageFn l sbox isbox rk x st.2) x = cipher l sbox rk x := by
  rw [encryptStages, List.foldl_append, List.foldl_append, List.foldl_flatMap]
  rfl

theorem decryptStages_foldl (x : Block) :
    decryptStages.foldl (fun x st => stageFn l sbox isbox rk x st.2) x = invCipher l isbox rk x := by
  rw [decryptStages, List.foldl_append, List.foldl_append, List.foldl_flatMap]
  rfl

end

theorem encryptStages_length : encryptStages.length = 40 := rfl

theorem decryptStages_length : decryptStages.length = 40 := rfl

/-- The running word is the last one that a micro-step wrote. -/
theorem keyWork_running (sbox : Table) (key : Quad) (w : Work) {n : Nat} (h : n ≤ 40) :
    (keyWork sbox key n w).running = (keySteps sbox n (initialWords key))[n + 3] :=
  getD_eq _ _ (by omega) 0

/-- Settles O53: the schedules fold the rounds of the pipelines, and WORK holds the words of the key schedule. -/
theorem schedulesComputeThePipelines : Obligations.SchedulesComputeThePipelines := by
  refine ⟨encryptStages_length, decryptStages_length, fun l sbox isbox rk w B => ⟨?_, ?_, ?_, ?_⟩,
    fun sbox key w => ⟨rfl, keyWork_running sbox key w le_rfl⟩⟩
  · rw [runStages_x, encryptStages_foldl, loadWork]
  · rw [runStages_stage, encryptStages_length, loadWork]
  · rw [runStages_x, decryptStages_foldl, loadWork]
  · rw [runStages_stage, decryptStages_length, loadWork]

/-! ### KEY_EXPAND (R226) -/

/-- The expansion of the zero key by the built table. -/
def zeroRoundKeys : RoundKeys := #v[
  0x00000000, 0x00000000, 0x00000000, 0x00000000, 0x62636363, 0x62636363, 0x62636363, 0x62636363,
  0xB2B1B165, 0xD0D2D206, 0xB2B1B165, 0xD0D2D206, 0x4F48FBD0, 0x9F9A29D6, 0x2D2B98B3, 0xFDF94AB5,
  0x50B24B45, 0xCF286293, 0xE203FA20, 0x1FFAB095, 0x08D5AE48, 0xC7FDCCDB, 0x25FE36FB, 0x3A04866E,
  0xF2DCD2CB, 0x35211E10, 0x10DF28EB, 0x2ADBAE85, 0x62F16020, 0x57D07E30, 0x470F56DB, 0x6DD4F85E,
  0xC2D9DC32, 0x9509A202, 0xD206F4D9, 0xBFD20C87, 0x202A8D9C, 0xB5232F9E, 0x6725DB47, 0xD8F7D7C0,
  0xF1EF1773, 0x44CC38ED, 0x23E9E3AA, 0xFB1E346A]

/-- The expansion of the spec's key by the built table. -/
def sampleRoundKeys : RoundKeys := #v[
  0x00010203, 0x04050607, 0x08090A0B, 0x0C0D0E0F, 0x3DC1DCF0, 0x39C4DAF7, 0x31CDD0FC, 0x3DC0DEF3,
  0xA5D253FA, 0x9C16890D, 0xADDB59F1, 0x901B8702, 0x86834BD3, 0x1A95C2DE, 0xB74E9B2F, 0x27551C2D,
  0xF1B514F7, 0xEB20D629, 0x5C6E4D06, 0x7B3B512B, 0xA7E28496, 0x4CC252BF, 0x10AC1FB9, 0x6B974E92,
  0xCA260940, 0x86E45BFF, 0x96484446, 0xFDDF0AD4, 0x30A229D5, 0xB646722A, 0x200E366C, 0xDDD13CB8,
  0x2EEC291E, 0x98AA5B34, 0xB8A46D58, 0x657551E0, 0xC5BB251F, 0x5D117E2B, 0xE5B51373, 0x80C04293,
  0x69359DFD, 0x3424E3D6, 0xD191F0A5, 0x5151B236]

theorem subWord_sboxBuilt (w : Word) :
    subWord sboxBuilt w = wordOf (fwd .srcShiftSeq (byteOf w 0)) (fwd .srcShiftSeq (byteOf w 1))
      (fwd .srcShiftSeq (byteOf w 2)) (fwd .srcShiftSeq (byteOf w 3)) := by
  simp only [subWord, sboxBuilt, lookup_fwdTable]

theorem expand_zeroKey : expand sboxBuilt #v[0, 0, 0, 0] = zeroRoundKeys := by
  refine Vector.ext (expand_getElem_eq_of_recurrence (by decide) ?_)
  simp only [keyTemp, subWord_sboxBuilt]
  decide +kernel

theorem expand_sampleKey : expand sboxBuilt sampleKey = sampleRoundKeys := by
  refine Vector.ext (expand_getElem_eq_of_recurrence (by decide) ?_)
  simp only [keyTemp, subWord_sboxBuilt]
  decide +kernel

/-- Settles O10: KEY_EXPAND has no check of its own, and a write to KEYn while it runs is dropped. -/
theorem keyExpandFillsTheRoundKeys : Obligations.KeyExpandFillsTheRoundKeys := by
  have hkey (k : Fin 4) : target (0x020 + 4 * k.val) = .key k := target_of_regOffset _ _ rfl
  refine ⟨fun rnd a b => decode_cmd (.keyExpand rnd a b),
    fun rnd a b s hb => accepts_cmd (i := .keyExpand rnd a b) hb fun _ => rfl, rejectsBusyAndIllegal_all _,
    fun rnd a b s ⟨hb, hp⟩ => ⟨_, exec_completes (.keyExpand rnd a b) s hb hp trivial⟩,
    fun k v s hr ⟨hb, _⟩ => (memWrite_key v hr (hkey k)).trans (by rw [writeKey_busy k v s hb]; rfl), by decide, ?_⟩
  rw [expand_zeroKey, expand_sampleKey]
  decide

end Sys2Proof.Machine
end

section
/-! PROOFS. The round stages as functions on a block (43_round_stages.md R250 to R258, R267). MixColumns and InvMixColumns are
the same combination of a column's bytes with two coefficient matrices, so their laws are laws of that combination. -/

namespace Sys2Proof.Machine

open Sys2Proof.Statements (xorBlock allBytes)

/-! ### Combining the bytes of a column -/

/-! The laws of 1 and 0, in the spelling of numerals that `simp` uses. -/

@[simp] theorem gmul_one_bits_left (b : Byte) : gmul 1#8 b = b := gmul_one_left b

@[simp] theorem gmul_zero_bits_left (b : Byte) : gmul 0#8 b = 0#8 := gmul_zero_left b

/-- Row `r` of the product of a coefficient matrix with the column `s`. -/
def combine (m : Fin 4 → Fin 4 → Byte) (s : Fin 4 → Byte) (r : Fin 4) : Byte :=
  gmul (m r 0) (s 0) ^^^ gmul (m r 1) (s 1) ^^^ gmul (m r 2) (s 2) ^^^ gmul (m r 3) (s 3)

/-- The matrix whose rows are rotations of one row. -/
def circulant (row : Fin 4 → Byte) (r k : Fin 4) : Byte := row (k - r)

/-- The coefficients of MixColumns (R254). -/
def mixMatrix : Fin 4 → Fin 4 → Byte := circulant ![0x02, 0x03, 0x01, 0x01]

/-- The coefficients of InvMixColumns (R257). -/
def invMixMatrix : Fin 4 → Fin 4 → Byte := circulant ![0x0E, 0x0B, 0x0D, 0x09]

theorem mixColumn_eq_combine (s : Fin 4 → Byte) (r : Fin 4) :
    mixColumn (s 0) (s 1) (s 2) (s 3) r = combine mixMatrix s r := by
  fin_cases r <;> simp [mixColumn, combine, mixMatrix, circulant]

theorem invMixColumn_eq_combine (s : Fin 4 → Byte) (r : Fin 4) :
    invMixColumn (s 0) (s 1) (s 2) (s 3) r = combine invMixMatrix s r := by
  fin_cases r <;> rfl

section
variable (m m' : Fin 4 → Fin 4 → Byte) (s t : Fin 4 → Byte) (r : Fin 4)

theorem combine_xor : combine m (fun k => s k ^^^ t k) r = combine m s r ^^^ combine m t r := by
  simp only [combine, gmul_distrib_right]
  ac_rfl

theorem combine_gmul (x : Byte) : combine m (fun k => gmul (s k) x) r = gmul (combine m s r) x := by
  simp only [combine, gmul_distrib_left, gmul_assoc]

/-- The product of two matrices is taken column by column. -/
theorem combine_combine : combine m (combine m' s) r = combine (fun i j => combine m (fun k => m' k j) i) s r := by
  simp only [combine, gmul_distrib_right, gmul_distrib_left, gmul_assoc]
  ac_rfl

theorem combine_one : combine (fun i j => if i = j then 1 else 0) s r = s r := by
  fin_cases r <;> simp [combine]

variable {m m' s r}

/-- A matrix whose rows sum to 1 keeps a column of equal bytes. -/
theorem combine_const (h : ∀ i, combine m (fun _ => 1) i = 1) (x : Byte) : combine m (fun _ => x) r = x := by
  simpa only [gmul_one_left, h] using combine_gmul m (fun _ => 1) r x

/-- A matrix undoes another if it takes each of its columns to the column of the unit matrix. -/
theorem combine_cancel (h : ∀ i j, combine m (fun k => m' k j) i = if i = j then 1 else 0) :
    combine m (combine m' s) r = s r := by
  simp only [combine_combine, h, combine_one]

end

theorem combine_mixMatrix_const (x : Byte) (r : Fin 4) : combine mixMatrix (fun _ => x) r = x :=
  combine_const (by decide) x

theorem combine_invMixMatrix_const (x : Byte) (r : Fin 4) : combine invMixMatrix (fun _ => x) r = x :=
  combine_const (by decide) x

theorem combine_invMixMatrix_mixMatrix (s : Fin 4 → Byte) (r : Fin 4) :
    combine invMixMatrix (combine mixMatrix s) r = s r :=
  combine_cancel (by decide)

theorem combine_mixMatrix_invMixMatrix (s : Fin 4 → Byte) (r : Fin 4) :
    combine mixMatrix (combine invMixMatrix s) r = s r :=
  combine_cancel (by decide)

/-! ### The laws of the stages (R267) -/

section
variable (l : Config.StateLayout) (A B : Block) (r c : Fin 4)

theorem elem_mixColumns_eq_combine : elem l (mixColumns l B) r c = combine mixMatrix (fun k => elem l B k c) r := by
  rw [elem_mixColumns, ← mixColumn_eq_combine]

theorem elem_invMixColumns_eq_combine :
    elem l (invMixColumns l B) r c = combine invMixMatrix (fun k => elem l B k c) r := by
  rw [elem_invMixColumns, ← invMixColumn_eq_combine]

theorem elem_xorBlock : elem l (xorBlock A B) r c = elem l A r c ^^^ elem l B r c := by simp [elem, xorBlock]

theorem elem_allBytes (x : Byte) : elem l (allBytes x) r c = x := by simp [elem, allBytes]

theorem invMixColumns_mixColumns : invMixColumns l (mixColumns l B) = B := by
  refine block_ext_elem l fun r c => ?_
  simp only [elem_invMixColumns_eq_combine, elem_mixColumns_eq_combine]
  exact combine_invMixMatrix_mixMatrix _ r

theorem mixColumns_invMixColumns : mixColumns l (invMixColumns l B) = B := by
  refine block_ext_elem l fun r c => ?_
  simp only [elem_invMixColumns_eq_combine, elem_mixColumns_eq_combine]
  exact combine_mixMatrix_invMixMatrix _ r

theorem mixColumns_xorBlock : mixColumns l (xorBlock A B) = xorBlock (mixColumns l A) (mixColumns l B) := by
  refine block_ext_elem l fun r c => ?_
  simp only [elem_mixColumns_eq_combine, elem_xorBlock, combine_xor]

theorem invMixColumns_xorBlock : invMixColumns l (xorBlock A B) = xorBlock (invMixColumns l A) (invMixColumns l B) := by
  refine block_ext_elem l fun r c => ?_
  simp only [elem_invMixColumns_eq_combine, elem_xorBlock, combine_xor]

theorem mixColumns_allBytes (x : Byte) : mixColumns l (allBytes x) = allBytes x := by
  refine block_ext_elem l fun r c => ?_
  simp only [elem_mixColumns_eq_combine, elem_allBytes, combine_mixMatrix_const]

theorem invMixColumns_allBytes (x : Byte) : invMixColumns l (allBytes x) = allBytes x := by
  refine block_ext_elem l fun r c => ?_
  simp only [elem_invMixColumns_eq_combine, elem_allBytes, combine_invMixMatrix_const]

theorem invShiftRows_shiftRows : invShiftRows l (shiftRows l B) = B :=
  block_ext_elem l fun r c => by rw [elem_invShiftRows, elem_shiftRows, sub_add_cancel]

theorem shiftRows_invShiftRows : shiftRows l (invShiftRows l B) = B :=
  block_ext_elem l fun r c => by rw [elem_shiftRows, elem_invShiftRows, add_sub_cancel_right]

theorem shiftRows_xorBlock : shiftRows l (xorBlock A B) = xorBlock (shiftRows l A) (shiftRows l B) :=
  block_ext_elem l fun r c => by simp only [elem_shiftRows, elem_xorBlock]

theorem invShiftRows_xorBlock : invShiftRows l (xorBlock A B) = xorBlock (invShiftRows l A) (invShiftRows l B) :=
  block_ext_elem l fun r c => by simp only [elem_invShiftRows, elem_xorBlock]

theorem subBytes_shiftRows (t : Table) : subBytes t (shiftRows l B) = shiftRows l (subBytes t B) :=
  block_ext_elem l fun r c => by simp only [elem_subBytes, elem_shiftRows]

theorem invSubBytes_invShiftRows (t : Table) : invSubBytes t (invShiftRows l B) = invShiftRows l (invSubBytes t B) :=
  block_ext_elem l fun r c => by simp only [elem_invSubBytes, elem_invShiftRows]

end

section
variable (v : Config.SboxVariant) (A B C : Block)

theorem lookup_invTable (y : Byte) : lookup (invTable v) y = inv v y := rfl

theorem invSubBytes_subBytes : invSubBytes (invTable v) (subBytes (fwdTable v) B) = B :=
  Vector.ext fun n hn => by
    rw [invSubBytes_getElem, subBytes_getElem, lookup_fwdTable, lookup_invTable, inv_fwd]

theorem subBytes_invSubBytes : subBytes (fwdTable v) (invSubBytes (invTable v) B) = B :=
  Vector.ext fun n hn => by
    rw [subBytes_getElem, invSubBytes_getElem, lookup_fwdTable, lookup_invTable, fwd_inv]

theorem subBytes_allBytes (t : Table) (x : Byte) : subBytes t (allBytes x) = allBytes (lookup t x) :=
  Vector.ext fun n hn => by simp [allBytes]

theorem xorBlock_allBytes (x y : Byte) : xorBlock (allBytes x) (allBytes y) = allBytes (x ^^^ y) :=
  Vector.ext fun n hn => by simp [xorBlock, allBytes]

theorem allBytes_injective : Function.Injective allBytes := fun x y h => by
  simpa [allBytes] using congrArg (fun B : Block => B[0]) h

/-- FWD of 1 XOR 2 XOR 3, which is 0, is not the XOR of their entries: no variant's table is affine. -/
theorem fwd_not_affine : fwd v (1 ^^^ (2 ^^^ 3)) ≠ fwd v 1 ^^^ (fwd v 2 ^^^ fwd v 3) := by
  cases v <;> decide

theorem subBytes_not_affine : ∃ A B C, subBytes (fwdTable v) (xorBlock A (xorBlock B C)) ≠
    xorBlock (subBytes (fwdTable v) A) (xorBlock (subBytes (fwdTable v) B) (subBytes (fwdTable v) C)) := by
  refine ⟨allBytes 1, allBytes 2, allBytes 3, fun h => fwd_not_affine v (allBytes_injective ?_)⟩
  simpa only [subBytes_allBytes, xorBlock_allBytes, lookup_fwdTable] using h

/-- The inverse of a map that is not affine is not affine: the images of the three blocks show it. -/
theorem invSubBytes_not_affine : ∃ A B C, invSubBytes (invTable v) (xorBlock A (xorBlock B C)) ≠
    xorBlock (invSubBytes (invTable v) A) (xorBlock (invSubBytes (invTable v) B) (invSubBytes (invTable v) C)) := by
  obtain ⟨A, B, C, hne⟩ := subBytes_not_affine v
  refine ⟨subBytes (fwdTable v) A, subBytes (fwdTable v) B, subBytes (fwdTable v) C, fun h => hne ?_⟩
  simp only [invSubBytes_subBytes] at h
  rw [← h, subBytes_invSubBytes]

end

theorem addRoundKey_addRoundKey (rk : RoundKeys) (g : Fin 11) (B : Block) : addRoundKey rk g (addRoundKey rk g B) = B :=
  Vector.ext fun n hn => by
    rw [addRoundKey_getElem, addRoundKey_getElem, BitVec.xor_assoc, BitVec.xor_self, BitVec.xor_zero]

theorem addRoundKey_eq_xorBlock (rk : RoundKeys) (g : Fin 11) (B : Block) :
    addRoundKey rk g B = xorBlock B (Vector.ofFn (rkByte rk g)) := by
  simp [addRoundKey, xorBlock]

/-- Settles O51: element by element, with the laws of the coefficient matrices and of FWD and INV. -/
theorem stageLaws : Obligations.StageLaws :=
  fun l v rk g => ⟨addRoundKey_addRoundKey rk g, fun B => ⟨invSubBytes_subBytes v B, subBytes_invSubBytes v B⟩,
    fun B => ⟨invShiftRows_shiftRows l B, shiftRows_invShiftRows l B⟩,
    fun B => ⟨invMixColumns_mixColumns l B, mixColumns_invMixColumns l B⟩,
    fun B => ⟨subBytes_shiftRows l B _, invSubBytes_invShiftRows l B _⟩,
    fun A B => ⟨mixColumns_xorBlock l A B, invMixColumns_xorBlock l A B, shiftRows_xorBlock l A B,
      invShiftRows_xorBlock l A B⟩,
    ⟨_, addRoundKey_eq_xorBlock rk g⟩, subBytes_not_affine v, invSubBytes_not_affine v⟩

/-! ### The stages on the four words (R258) -/

section
variable (q : Quad) (B : Block) (r c : Fin 4)

/-- Under ROW_MAJOR word `r` is row `r`. -/
theorem elem_rowMajor_blk : elem .rowMajor (blk q) r c = byteOf q[r] c := by
  have hword : (4 * r.val + c.val) / 4 = r.val := by omega
  have hbyte : (4 * r.val + c.val) % 4 = c.val := by omega
  simp [elem, pos, blk_getElem, hword, hbyte]

/-- Under COLUMN_MAJOR word `c` is column `c`. -/
theorem elem_columnMajor_blk : elem .columnMajor (blk q) r c = byteOf q[c] r := by
  have hword : (r.val + 4 * c.val) / 4 = c.val := by omega
  have hbyte : (r.val + 4 * c.val) % 4 = r.val := by omega
  simp [elem, pos, blk_getElem, hword, hbyte]

theorem byteOf_setBlk_rowMajor : byteOf (setBlk B)[r] c = elem .rowMajor B r c := by
  rw [← elem_rowMajor_blk, blk_setBlk]

theorem byteOf_setBlk_columnMajor : byteOf (setBlk B)[c] r = elem .columnMajor B r c := by
  rw [← elem_columnMajor_blk, blk_setBlk]

/-- Rotating a word left by 8r bits moves each byte r places up. -/
theorem byteOf_rotateLeft (w : Word) : byteOf (w.rotateLeft (8 * r.val)) c = byteOf w (c + r : Fin 4) := by
  refine BitVec.eq_of_getLsbD_eq fun k hk => ?_
  have hamount : 8 * r.val % 32 = 8 * r.val := by omega
  simp only [byteOf, BitVec.getLsbD_extractLsb', BitVec.getLsbD_rotateLeft, hamount, hk, Fin.val_add,
    Bool.cond_decide]
  split
  · congr 2; omega
  · have hbit : 24 - 8 * c.val + k < 32 := by omega
    simp only [hbit, decide_true, Bool.true_and]
    congr 1; omega

/-- Rotating right by `r` bytes is rotating left by the others. -/
theorem rotateRight_bytes_eq_rotateLeft (w : Word) : w.rotateRight (8 * r.val) = w.rotateLeft (8 * (-r).val) :=
  match r with
  | 0 => by
    have hshift : w >>> 32 = 0 := BitVec.ushiftRight_eq_zero le_rfl
    simp [BitVec.rotateRight, BitVec.rotateLeft, BitVec.rotateRightAux, BitVec.rotateLeftAux, hshift]
  | 1 | 2 | 3 => BitVec.or_comm _ _

theorem byteOf_rotateRight (w : Word) : byteOf (w.rotateRight (8 * r.val)) c = byteOf w (c - r : Fin 4) := by
  rw [rotateRight_bytes_eq_rotateLeft, byteOf_rotateLeft, ← sub_eq_add_neg]

theorem setBlk_shiftRows_getElem : (setBlk (shiftRows .rowMajor (blk q)))[r] = q[r].rotateLeft (8 * r.val) :=
  word_ext_bytes fun j hj => by
    lift j to Fin 4 using hj
    rw [byteOf_setBlk_rowMajor, elem_shiftRows, elem_rowMajor_blk, byteOf_rotateLeft]

theorem setBlk_invShiftRows_getElem : (setBlk (invShiftRows .rowMajor (blk q)))[r] = q[r].rotateRight (8 * r.val) :=
  word_ext_bytes fun j hj => by
    lift j to Fin 4 using hj
    rw [byteOf_setBlk_rowMajor, elem_invShiftRows, elem_rowMajor_blk, byteOf_rotateRight]

theorem byteOf_setBlk_mixColumns_rowMajor : byteOf (setBlk (mixColumns .rowMajor (blk q)))[r] c =
    mixColumn (byteOf q[0] c) (byteOf q[1] c) (byteOf q[2] c) (byteOf q[3] c) r := by
  simp only [byteOf_setBlk_rowMajor, elem_mixColumns, elem_rowMajor_blk]
  rfl

theorem byteOf_setBlk_invMixColumns_rowMajor : byteOf (setBlk (invMixColumns .rowMajor (blk q)))[r] c =
    invMixColumn (byteOf q[0] c) (byteOf q[1] c) (byteOf q[2] c) (byteOf q[3] c) r := by
  simp only [byteOf_setBlk_rowMajor, elem_invMixColumns, elem_rowMajor_blk]
  rfl

theorem byteOf_setBlk_mixColumns_columnMajor : byteOf (setBlk (mixColumns .columnMajor (blk q)))[c] r =
    mixColumn (byteOf q[c] 0) (byteOf q[c] 1) (byteOf q[c] 2) (byteOf q[c] 3) r := by
  simp only [byteOf_setBlk_columnMajor, elem_mixColumns, elem_columnMajor_blk]
  rfl

theorem byteOf_setBlk_invMixColumns_columnMajor : byteOf (setBlk (invMixColumns .columnMajor (blk q)))[c] r =
    invMixColumn (byteOf q[c] 0) (byteOf q[c] 1) (byteOf q[c] 2) (byteOf q[c] 3) r := by
  simp only [byteOf_setBlk_columnMajor, elem_invMixColumns, elem_columnMajor_blk]
  rfl

end

/-- Settles O50: a word is a row or a column of the matrix, and a row shift is a rotation of its word. -/
theorem wordLevelForms : Obligations.WordLevelForms :=
  ⟨fun q r => ⟨setBlk_shiftRows_getElem q r, setBlk_invShiftRows_getElem q r⟩,
    fun q r c => ⟨byteOf_setBlk_mixColumns_rowMajor q r c, byteOf_setBlk_invMixColumns_rowMajor q r c⟩,
    fun q r c => ⟨byteOf_setBlk_mixColumns_columnMajor q r c, byteOf_setBlk_invMixColumns_columnMajor q r c⟩⟩

end Sys2Proof.Machine
end

section
/-! PROOFS. The stage commands (43_round_stages.md R260 to R266): each completes by its stage function on STATE. -/

namespace Sys2Proof.Machine

open Sys2Proof.Statements (isRunning completed xorBlock allBytes sboxBuilt isboxBuilt sampleBlock)

/-! ### The completion of a stage command (R96) -/

/-- A running command whose effect is a block function puts the function's value in STATE and changes nothing else. -/
theorem execFor_completes_mapBlock {p : Config.Params} {i : Instr} {s : State} {f : Block → Block} (hrun : isRunning s)
    (hg : groupExists i) (he : effectFor p i s = mapBlock f s) :
    execFor p i s = .next (completed { s with block := setBlk (f (blk s.block)) }) := by
  obtain ⟨hb, hp⟩ := hrun
  rw [execFor_completes p i s hb hp hg, he]
  rfl

/-- The same on this hardware, as the frame of the state answered and what its STATE holds. -/
theorem exec_completes_mapBlock {i : Instr} {s : State} {f : Block → Block} (hrun : isRunning s) (hg : groupExists i)
    (he : effectOf i s = mapBlock f s) :
    ∃ t, exec i s = .next t ∧ t = completed { s with block := t.block } ∧ t.block = setBlk (f (blk s.block)) := by
  rw [← execFor_hardware]
  exact ⟨_, execFor_completes_mapBlock hrun hg he, rfl, rfl⟩

/-! ### ADD_ROUND_KEY (R260) -/

/-- Group 0 of an expansion is the key (R223, R225). -/
theorem addRoundKey_expand_zero (sbox : Table) (key : Quad) (B : Block) :
    addRoundKey (expand sbox key) 0 B = xorBlock B (blk key) := by
  refine Vector.ext fun n hn => ?_
  have hgroup : 4 * (0 : Fin 11).val + n / 4 = n / 4 := Nat.zero_add _
  simp only [addRoundKey_getElem, rkByte, hgroup, expand_getElem_key sbox key (show n / 4 < 4 by omega)]
  simp [xorBlock, blk_getElem]

/-- Settles O14: the checks in their order, and the completion byte by byte. -/
theorem addRoundKeyXorsTheGroup : Obligations.AddRoundKeyXorsTheGroup := by
  refine ⟨fun rnd a b => decode_cmd (.addRoundKey rnd a b), rejectsBusyAndIllegal_all _,
    fun rnd a b s hb => ⟨fun hr => ?_, fun hr hk => ?_, fun hr hk => ?_⟩, fun rnd a b s hr hrun => ?_,
    addRoundKey_expand_zero, addRoundKey_addRoundKey, by decide, ?_⟩
  · have hverdict : verdictOf (.addRoundKey rnd a b) s = .reject .badRound := if_neg (by omega)
    exact (offerCommand_of_decode hb (decode_cmd (.addRoundKey rnd a b))).trans (by rw [hverdict]; rfl)
  · have hverdict : verdictOf (.addRoundKey rnd a b) s = .reject .noKey := by simp [verdictOf, hr, needsKey, hk]
    exact (offerCommand_of_decode hb (decode_cmd (.addRoundKey rnd a b))).trans (by rw [hverdict]; rfl)
  · have hverdict : verdictOf (.addRoundKey rnd a b) s = .accept := by simp [verdictOf, hr, needsKey, hk]
    exact accepts_cmd (i := .addRoundKey rnd a b) hb fun v => by rw [hverdict, offer]
  · obtain ⟨t, ht, hframe, hblock⟩ := exec_completes_mapBlock (i := .addRoundKey rnd a b) hrun hr (dif_pos hr)
    refine ⟨t, ht, hframe, fun n => ?_⟩
    rw [hblock, blk_setBlk]
    exact addRoundKey_getElem _ _ _ n n.isLt
  · rw [addRoundKey_expand_zero]
    decide +kernel

/-! ### SUB_BYTES and INV_SUB_BYTES (R261, R264) -/

theorem subBytes_sboxBuilt_allBytes {x y : Byte} (h : fwd .srcShiftSeq x = y) :
    subBytes sboxBuilt (allBytes x) = allBytes y := by
  rw [subBytes_allBytes, sboxBuilt, lookup_fwdTable, h]

/-- Settles O15: byte by byte, and the entries of FWD at 0 and at its fixed points. -/
theorem subBytesSubstitutesEveryByte : Obligations.SubBytesSubstitutesEveryByte := by
  refine ⟨fun rnd a b => decode_cmd (.subBytes rnd a b),
    fun rnd a b s hb => accepts_cmd (i := .subBytes rnd a b) hb fun _ => rfl, rejectsBusyAndIllegal_all _,
    fun rnd a b s hrun => ?_, by decide, subBytes_sboxBuilt_allBytes rfl,
    subBytes_sboxBuilt_allBytes ((fwd_eq_self_iff _).mpr (.inl rfl)),
    subBytes_sboxBuilt_allBytes ((fwd_eq_self_iff _).mpr (.inr rfl)), by decide +kernel⟩
  obtain ⟨t, ht, hframe, hblock⟩ := exec_completes_mapBlock (i := .subBytes rnd a b) hrun trivial rfl
  refine ⟨t, ht, hframe, fun n => ?_⟩
  rw [hblock, blk_setBlk]
  exact subBytes_getElem _ _ n n.isLt

/-- A value of InvSubBytes is read off the forward table. -/
theorem invSubBytes_isboxBuilt {A B : Block} (h : subBytes sboxBuilt A = B) : invSubBytes isboxBuilt B = A := by
  rw [← h]
  exact invSubBytes_subBytes .srcShiftSeq A

/-- Settles O18: byte by byte, and the values by those of SubBytes. -/
theorem invSubBytesSubstitutesEveryByte : Obligations.InvSubBytesSubstitutesEveryByte := by
  refine ⟨fun rnd a b => decode_cmd (.invSubBytes rnd a b),
    fun rnd a b s hb => accepts_cmd (i := .invSubBytes rnd a b) hb fun _ => rfl, rejectsBusyAndIllegal_all _,
    fun rnd a b s hrun => ?_, by decide, invSubBytes_isboxBuilt (subBytes_sboxBuilt_allBytes (by decide)),
    invSubBytes_subBytes .srcShiftSeq, ?_⟩
  · obtain ⟨t, ht, hframe, hblock⟩ := exec_completes_mapBlock (i := .invSubBytes rnd a b) hrun trivial rfl
    refine ⟨t, ht, hframe, fun n => ?_⟩
    rw [hblock, blk_setBlk]
    exact invSubBytes_getElem _ _ n n.isLt
  · have hforward : subBytes sboxBuilt (blk #v[0xB884A35B, 0x4722C777, 0xBBE5F0F4, 0x232F728F]) = blk sampleBlock := by
      decide +kernel
    rw [invSubBytes_isboxBuilt hforward, setBlk_blk]

/-! ### SHIFT_ROWS and INV_SHIFT_ROWS (R262, R265) -/

theorem byteOf_wordOf_self (x : Byte) : ∀ j : Fin 4, byteOf (wordOf x x x x) j = x
  | 0 => byteOf_wordOf_0 x x x x
  | 1 => byteOf_wordOf_1 x x x x
  | 2 => byteOf_wordOf_2 x x x x
  | 3 => byteOf_wordOf_3 x x x x

/-- A row of equal bytes is the same wherever it starts. -/
theorem shiftRows_of_equal_bytes {q : Quad} (h : ∀ r : Fin 4, ∃ x, q[r] = wordOf x x x x) :
    shiftRows .rowMajor (blk q) = blk q := by
  refine block_ext_elem .rowMajor fun r c => ?_
  obtain ⟨x, hx⟩ := h r
  rw [elem_shiftRows, elem_rowMajor_blk, elem_rowMajor_blk, hx, byteOf_wordOf_self, byteOf_wordOf_self]

theorem invShiftRows_of_equal_bytes {q : Quad} (h : ∀ r : Fin 4, ∃ x, q[r] = wordOf x x x x) :
    invShiftRows .rowMajor (blk q) = blk q := by
  simpa only [shiftRows_of_equal_bytes h] using invShiftRows_shiftRows .rowMajor (blk q)

/-- Four moves of a row by `r` places are none. -/
theorem add_four_times (c r : Fin 4) : c + r + r + r + r = c := by omega

theorem sub_four_times (c r : Fin 4) : c - r - r - r - r = c := by omega

/-- Settles O16: row by row, and as the rotation of the row's word. -/
theorem shiftRowsRotatesTheRowsLeft : Obligations.ShiftRowsRotatesTheRowsLeft := by
  refine ⟨fun rnd a b => decode_cmd (.shiftRows rnd a b),
    fun rnd a b s hb => accepts_cmd (i := .shiftRows rnd a b) hb fun _ => rfl, rejectsBusyAndIllegal_all _,
    fun rnd a b s hrun => ?_,
    fun p rnd a b s hrun => execFor_completes_mapBlock (i := .shiftRows rnd a b) hrun trivial rfl,
    by decide, fun q h => ?_, fun l B => block_ext_elem l fun r c => ?_, by decide +kernel⟩
  · obtain ⟨t, ht, hframe, hblock⟩ := exec_completes_mapBlock (i := .shiftRows rnd a b) hrun trivial rfl
    refine ⟨t, ht, hframe, ?_⟩
    rw [hblock, blk_setBlk]
    exact ⟨elem_shiftRows _ _, setBlk_shiftRows_getElem _⟩
  · rw [shiftRows_of_equal_bytes h, setBlk_blk]
  · simp only [elem_shiftRows, add_four_times]

/-- Settles O19: row by row, and as the rotation of the row's word; two places to the right are two to the left. -/
theorem invShiftRowsRotatesTheRowsRight : Obligations.InvShiftRowsRotatesTheRowsRight := by
  refine ⟨fun rnd a b => decode_cmd (.invShiftRows rnd a b),
    fun rnd a b s hb => accepts_cmd (i := .invShiftRows rnd a b) hb fun _ => rfl, rejectsBusyAndIllegal_all _,
    fun rnd a b s hrun => ?_,
    fun p rnd a b s hrun => execFor_completes_mapBlock (i := .invShiftRows rnd a b) hrun trivial rfl,
    by decide, fun q h => ?_, fun l B => block_ext_elem l fun r c => ?_, fun l B c => ?_, by decide +kernel⟩
  · obtain ⟨t, ht, hframe, hblock⟩ := exec_completes_mapBlock (i := .invShiftRows rnd a b) hrun trivial rfl
    refine ⟨t, ht, hframe, ?_⟩
    rw [hblock, blk_setBlk]
    exact ⟨elem_invShiftRows _ _, setBlk_invShiftRows_getElem _⟩
  · rw [invShiftRows_of_equal_bytes h, setBlk_blk]
  · simp only [elem_invShiftRows, sub_four_times]
  · have hplaces : c - 2 = c + 2 := by omega
    rw [elem_invShiftRows, elem_shiftRows, hplaces]

/-! ### MIX_COLUMNS and INV_MIX_COLUMNS (R263, R266) -/

/-- Settles O17: the four rows of the new column, and the columns of equal bytes by the sum of the coefficients. -/
theorem mixColumnsCombinesTheColumns : Obligations.MixColumnsCombinesTheColumns := by
  refine ⟨fun rnd a b => decode_cmd (.mixColumns rnd a b),
    fun rnd a b s hb => accepts_cmd (i := .mixColumns rnd a b) hb fun _ => rfl, rejectsBusyAndIllegal_all _,
    fun rnd a b s hrun => ?_,
    fun p rnd a b s hrun => execFor_completes_mapBlock (i := .mixColumns rnd a b) hrun trivial rfl,
    by decide, fun l => mixColumns_allBytes l 0,
    fun x r => (mixColumn_eq_combine (fun _ => x) r).trans (combine_mixMatrix_const x r), by decide +kernel, by decide⟩
  obtain ⟨t, ht, hframe, hblock⟩ := exec_completes_mapBlock (i := .mixColumns rnd a b) hrun trivial rfl
  refine ⟨t, ht, hframe, fun c hc => ?_⟩
  rw [hblock]
  have hrow (r : Fin 4) := byteOf_setBlk_mixColumns_rowMajor s.block r ⟨c, hc⟩
  exact ⟨hrow 0, hrow 1, hrow 2, hrow 3⟩

/-- Settles O20: as for MIX_COLUMNS, and the product of the two matrices is the unit matrix. -/
theorem invMixColumnsUndoesTheMix : Obligations.InvMixColumnsUndoesTheMix := by
  refine ⟨fun rnd a b => decode_cmd (.invMixColumns rnd a b),
    fun rnd a b s hb => accepts_cmd (i := .invMixColumns rnd a b) hb fun _ => rfl, rejectsBusyAndIllegal_all _,
    fun rnd a b s hrun => ?_,
    fun p rnd a b s hrun => execFor_completes_mapBlock (i := .invMixColumns rnd a b) hrun trivial rfl,
    by decide, fun l => invMixColumns_allBytes l 0,
    fun x r => (invMixColumn_eq_combine (fun _ => x) r).trans (combine_invMixMatrix_const x r), invMixColumns_mixColumns,
    by decide +kernel⟩
  obtain ⟨t, ht, hframe, hblock⟩ := exec_completes_mapBlock (i := .invMixColumns rnd a b) hrun trivial rfl
  refine ⟨t, ht, hframe, fun c hc => ?_⟩
  rw [hblock]
  have hrow (r : Fin 4) := byteOf_setBlk_invMixColumns_rowMajor s.block r ⟨c, hc⟩
  exact ⟨hrow 0, hrow 1, hrow 2, hrow 3⟩

end Sys2Proof.Machine
end

section
/-! PROOFS. The 40 stage commands do what the pipeline command does (44_block_pipelines.md R299): each stage command, followed
by WAIT, is its micro-step of the schedule on STATE, and the schedule computes the pipeline. -/

namespace Sys2Proof.Machine

open Sys2Proof.Statements (notBusy)

/-! ### A command followed by WAIT (R299) -/

/-- A command whose group does not exist is not accepted (R355). -/
theorem groupExists_of_verdictOf_accept {i : Instr} {s : State} (h : verdictOf i s = .accept) : groupExists i := by
  cases i with
  | addRoundKey r a b => exact by_contra fun hr => by simp [verdictOf, show ¬ r.toNat ≤ 10 from hr] at h
  | _ => trivial

/-- While PHASE = RUN a core step runs the command in CUR (R96). -/
theorem coreStep_of_decode {s : State} {i : Instr} (hp : s.phase = .run) (hd : decode s.cur = .ok i) :
    coreStep s = exec i s := by
  simp only [coreStep, coreStepBy, hp, hd]

/-- A command that is accepted is completed by the core step that WAIT waits for. -/
theorem issueAndWait_of_accept {i : Instr} {s : State} (hb : notBusy s) (hv : verdictOf i s = .accept) :
    issueAndWait i s = .next (finish (effectOf i (accept (encode i) s))) := by
  have hoffer : offerCommand (encode i) s = .next (accept (encode i) s) := by
    rw [offerCommand_of_decode hb (decode_encode i), hv, offer]
  have hcore : coreStep (accept (encode i) s) = exec i (accept (encode i) s) := coreStep_of_decode rfl (decode_encode i)
  simp only [issueAndWait, hoffer, accept_status, if_true, hcore]
  exact exec_completes i _ rfl rfl (groupExists_of_verdictOf_accept hv)

theorem status_of_notBusy {s : State} (hb : notBusy s) : { s.status with busy := false } = s.status :=
  congrArg (fun b => { s.status with busy := b }) hb.symm

/-- From an idle state, an acceptance and the end of the completion leave CUR and the model's own draw of a latency (log 1). -/
theorem finish_accept {s : State} (hb : notBusy s) (hp : s.phase = .idle) (v : Word) :
    finish (accept v s) = { s with cur := v, delay := Config.latency s.draws, draws := s.draws + 1 } := by
  simp only [finish, accept, status_of_notBusy hb, ← hp]

theorem finish_mapBlock (f : Block → Block) (s : State) : finish (mapBlock f s) = mapBlock f (finish s) := rfl

theorem issueAll_cons {i : Instr} {s t : State} (is : List Instr) (h : issueAndWait i s = .next t) :
    issueAll (i :: is) s = issueAll is t := by
  rw [issueAll, h]

/-! ### The stages as commands -/

/-- The command that does a stage of a schedule (R299). -/
def stageCommand : Stage → Instr
  | .ark g => .addRoundKey (BitVec.ofNat 4 g.val) 0 0
  | .sb => .subBytes 0 0 0
  | .sr => .shiftRows 0 0 0
  | .mc => .mixColumns 0 0 0
  | .isb => .invSubBytes 0 0 0
  | .isr => .invShiftRows 0 0 0
  | .imc => .invMixColumns 0 0 0

theorem encryptStageCommands_eq_map : encryptStageCommands = encryptStages.map fun st => stageCommand st.2 := by decide

theorem decryptStageCommands_eq_map : decryptStageCommands = decryptStages.map fun st => stageCommand st.2 := by decide

/-- The group of a stage fits the field RND (R122). -/
theorem toNat_group (g : Fin 11) : (BitVec.ofNat 4 g.val).toNat = g.val := by
  rw [BitVec.toNat_ofNat]
  exact Nat.mod_eq_of_lt (by omega)

/-- With KEY_READY = 1 every stage command passes its checks (R358). -/
theorem verdictOf_stageCommand {s : State} (hk : s.status.keyReady = true) (st : Stage) :
    verdictOf (stageCommand st) s = .accept := by
  cases st with
  | ark g =>
    have hg : (BitVec.ofNat 4 g.val).toNat ≤ 10 := by rw [toNat_group]; omega
    exact (if_pos hg).trans (if_pos hk)
  | _ => rfl

/-- A stage command's effect is its stage on STATE (R260 to R266). -/
theorem effectOf_stageCommand (st : Stage) (s : State) :
    effectOf (stageCommand st) s = mapBlock (stageFn stateLayout s.sbox s.isbox s.rk · st) s := by
  cases st with
  | ark g =>
    simp only [stageCommand, effectOf, effectFor, toNat_group]
    exact dif_pos (by omega)
  | _ => rfl

/-- A stage command followed by WAIT replaces STATE by its stage, and CUR and the model's own fields besides. -/
theorem issueAndWait_stageCommand {s : State} (hb : notBusy s) (hp : s.phase = .idle) (hk : s.status.keyReady = true)
    (st : Stage) : ∃ cur delay draws, issueAndWait (stageCommand st) s =
      .next { s with block := setBlk (stageFn stateLayout s.sbox s.isbox s.rk (blk s.block) st),
                     cur := cur, delay := delay, draws := draws } := by
  rw [issueAndWait_of_accept hb (verdictOf_stageCommand hk st), effectOf_stageCommand,
    finish_mapBlock, finish_accept hb hp]
  exact ⟨_, _, _, rfl⟩

/-- The commands of a list of stages do its stages one after the other. -/
theorem issueAll_stageCommands (sts : List (Nat × Stage)) {s : State} (hb : notBusy s) (hp : s.phase = .idle)
    (hk : s.status.keyReady = true) : ∃ cur delay draws, issueAll (sts.map fun st => stageCommand st.2) s =
      .next { s with
        block := setBlk (sts.foldl (fun x st => stageFn stateLayout s.sbox s.isbox s.rk x st.2) (blk s.block)),
        cur := cur, delay := delay, draws := draws } := by
  induction sts generalizing s with
  | nil => exact ⟨s.cur, s.delay, s.draws, by rw [List.foldl_nil, setBlk_blk]; rfl⟩
  | cons st sts ih =>
    obtain ⟨cur, delay, draws, hst⟩ := issueAndWait_stageCommand hb hp hk st.2
    rw [List.map_cons, issueAll_cons _ hst]
    simpa only [blk_setBlk, List.foldl_cons] using ih (s := { s with
      block := setBlk (stageFn stateLayout s.sbox s.isbox s.rk (blk s.block) st.2), cur := cur, delay := delay,
      draws := draws }) hb hp hk

/-- Where a command's effect on STATE is that of a list of stages, and it keeps STATUS and RK, the stages' commands leave what
the command leaves. -/
theorem issueAll_stageCommands_eq_issueAndWait (sts : List (Nat × Stage)) {i : Instr} {s : State} (hb : notBusy s)
    (hp : s.phase = .idle) (hk : s.status.keyReady = true) (hv : verdictOf i s = .accept)
    (hblock : ∀ u : State, (effectOf i u).block =
      setBlk (sts.foldl (fun x st => stageFn stateLayout u.sbox u.isbox u.rk x st.2) (blk u.block)))
    (hstatus : ∀ u : State, (effectOf i u).status = u.status) (hrk : ∀ u : State, (effectOf i u).rk = u.rk) :
    ∃ t u, issueAll (sts.map fun st => stageCommand st.2) s = .next t ∧ issueAndWait i s = .next u ∧ t.block = u.block ∧
      t.status = u.status ∧ t.rk = u.rk := by
  obtain ⟨cur, delay, draws, hstages⟩ := issueAll_stageCommands sts hb hp hk
  refine ⟨_, _, hstages, issueAndWait_of_accept hb hv, ?_, ?_, ?_⟩
  · rw [finish_block, hblock]
    rfl
  · rw [finish_status, hstatus]
    exact (status_of_notBusy hb).symm
  · rw [finish_rk, hrk, accept_rk]

/-- Settles O54: the stage commands are the schedule's stages, and the schedule computes the pipeline. -/
theorem stageCommandsEqualThePipelines : Obligations.StageCommandsEqualThePipelines := by
  intro s hb hp hk
  rw [encryptStageCommands_eq_map, decryptStageCommands_eq_map]
  exact ⟨issueAll_stageCommands_eq_issueAndWait _ hb hp hk (if_pos hk)
      (fun u => congrArg setBlk (encryptStages_foldl stateLayout u.sbox u.isbox u.rk _).symm) (fun _ => rfl) fun _ => rfl,
    issueAll_stageCommands_eq_issueAndWait _ hb hp hk (if_pos hk)
      (fun u => congrArg setBlk (decryptStages_foldl stateLayout u.sbox u.isbox u.rk _).symm) (fun _ => rfl) fun _ => rfl⟩

end Sys2Proof.Machine
end

section
/-! PROOFS. The block commands NOP, ENCRYPT and DECRYPT, and CIPHER and INVCIPHER as functions (44_block_pipelines.md R292 to
R295). -/

namespace Sys2Proof.Machine

open Sys2Proof.Statements (cmd acceptedWithKey sboxBuilt isboxBuilt sampleBlock sampleKey)

/-! ### The pipelines undo each other (R292) -/

/-- Rounds undone in the reverse order, each behind the same half round `e`. -/
theorem foldl_reverse_undoes {α β : Type*} {round undo : α → β → α} {e : α → α}
    (h : ∀ b r, undo (e (round b r)) r = e b) (rs : List β) (b : α) :
    rs.reverse.foldl undo (e (rs.foldl round b)) = e b := by
  induction rs generalizing b with
  | nil => rfl
  | cons r rs ih => rw [List.foldl_cons, List.reverse_cons, List.foldl_concat, ih, h]

section
variable (l : Config.StateLayout) (v : Config.SboxVariant) (rk : RoundKeys) (B : Block)

/-- The half round `subBytes`, `shiftRows` is undone by `invShiftRows`, `invSubBytes`. -/
theorem invHalfRound_halfRound :
    invSubBytes (invTable v) (invShiftRows l (shiftRows l (subBytes (fwdTable v) B))) = B := by
  rw [invShiftRows_shiftRows, invSubBytes_subBytes]

theorem halfRound_invHalfRound :
    shiftRows l (subBytes (fwdTable v) (invSubBytes (invTable v) (invShiftRows l B))) = B := by
  rw [subBytes_invSubBytes, shiftRows_invShiftRows]

/-- A main round of decryption undoes the main round of encryption before it, both behind a half round (R290, R291). -/
theorem invCipherRound_cipherRound (r : Fin 11) :
    invCipherRound l (invTable v) rk (shiftRows l (subBytes (fwdTable v) (cipherRound l (fwdTable v) rk B r))) r =
      shiftRows l (subBytes (fwdTable v) B) := by
  rw [invCipherRound, invHalfRound_halfRound, cipherRound, addRoundKey_addRoundKey, invMixColumns_mixColumns]

theorem cipherRound_invCipherRound (r : Fin 11) :
    cipherRound l (fwdTable v) rk (invSubBytes (invTable v) (invShiftRows l (invCipherRound l (invTable v) rk B r))) r =
      invSubBytes (invTable v) (invShiftRows l B) := by
  rw [cipherRound, halfRound_invHalfRound, invCipherRound, mixColumns_invMixColumns, addRoundKey_addRoundKey]

theorem invCipher_cipher : invCipher l (invTable v) rk (cipher l (fwdTable v) rk B) = B := by
  rw [invCipher, cipher, addRoundKey_addRoundKey,
    foldl_reverse_undoes (e := fun x => shiftRows l (subBytes (fwdTable v) x)) (invCipherRound_cipherRound l v rk),
    invHalfRound_halfRound, addRoundKey_addRoundKey]

theorem cipher_invCipher : cipher l (fwdTable v) rk (invCipher l (invTable v) rk B) = B := by
  have hrounds := foldl_reverse_undoes (e := fun x => invSubBytes (invTable v) (invShiftRows l x))
    (cipherRound_invCipherRound l v rk) mainRounds.reverse
  rw [List.reverse_reverse] at hrounds
  rw [cipher, invCipher, addRoundKey_addRoundKey, hrounds, halfRound_invHalfRound, addRoundKey_addRoundKey]

end

/-- Settles O52: the rounds of one pipeline are undone by those of the other, in the reverse order. -/
theorem pipelinesUndoEachOther : Obligations.PipelinesUndoEachOther :=
  fun l v rk B => ⟨invCipher_cipher l v rk B, cipher_invCipher l v rk B⟩

/-! ### NOP (R295) -/

/-- Settles O13: NOP has no check and no effect of its own. -/
theorem nopChangesNothing : Obligations.NopChangesNothing := by
  refine ⟨fun rnd a b => decode_cmd (.nop rnd a b), fun rnd a b s hb => accepts_cmd (i := .nop rnd a b) hb fun _ => rfl,
    rejectsBusyAndIllegal_all _, fun rnd a b s ⟨hb, hp⟩ => exec_completes (.nop rnd a b) s hb hp trivial,
    fun rnd a b s hb hp => ⟨_, issueAndWait_of_accept hb rfl, finish_accept hb hp _⟩⟩

/-! ### ENCRYPT and DECRYPT (R293, R294) -/

/-- A command whose one check is KEY_READY is accepted with it and rejected with NO_KEY without (R354). -/
theorem acceptedWithKey_of_needsKey {opc : Byte} {command : BitVec 4 → Byte → Byte → Instr}
    (hd : ∀ rnd a b, decode (cmd b a rnd opc) = .ok (command rnd a b))
    (hv : ∀ rnd a b s, verdictOf (command rnd a b) s = needsKey s) : acceptedWithKey opc := by
  refine fun rnd a b s hb => ⟨fun hk => ⟨Config.latency s.draws, s.draws + 1, ?_⟩, fun hk => ?_⟩
  · rw [offerCommand_of_decode hb (hd rnd a b), hv, needsKey, if_pos hk]
    rfl
  · rw [offerCommand_of_decode hb (hd rnd a b), hv, needsKey, if_neg (by simp [hk])]
    rfl

/-- The spec's block under its key (R293). -/
theorem cipher_sampleBlock : cipher .rowMajor sboxBuilt (expand sboxBuilt sampleKey) (blk sampleBlock) =
    blk #v[0xF517910F, 0x2FBBEC11, 0x5F5AB08B, 0xE37F485E] := by
  rw [expand_sampleKey]
  decide +kernel

/-- The zero block under the zero key (R293). -/
theorem cipher_zeroBlock : cipher .rowMajor sboxBuilt (expand sboxBuilt #v[0, 0, 0, 0]) (blk #v[0, 0, 0, 0]) =
    blk #v[0x4A4FF947, 0x4D22FE7C, 0xB8A45006, 0xC8FC80EE] := by
  rw [expand_zeroKey]
  decide +kernel

/-- Settles O11: the check of ENCRYPT is KEY_READY, and its effect is CIPHER on STATE. -/
theorem encryptReplacesTheBlock : Obligations.EncryptReplacesTheBlock := by
  have hd (rnd a b) : decode (cmd b a rnd 0x02) = .ok (.encrypt rnd a b) := decode_cmd (.encrypt rnd a b)
  refine ⟨hd, acceptedWithKey_of_needsKey hd fun _ _ _ _ => rfl, rejectsBusyAndIllegal_all _,
    fun rnd a b s ⟨hb, hp⟩ => ⟨_, exec_completes (.encrypt rnd a b) s hb hp trivial⟩,
    fun p rnd a b s ⟨hb, hp⟩ => ⟨_, execFor_completes p (.encrypt rnd a b) s hb hp trivial⟩, by decide, ?_, ?_⟩
  · rw [cipher_zeroBlock, setBlk_blk]
  · rw [cipher_sampleBlock, setBlk_blk]

/-- Settles O12: as for ENCRYPT, and the value by that of CIPHER, which INVCIPHER undoes. -/
theorem decryptReplacesTheBlock : Obligations.DecryptReplacesTheBlock := by
  have hd (rnd a b) : decode (cmd b a rnd 0x03) = .ok (.decrypt rnd a b) := decode_cmd (.decrypt rnd a b)
  have hundo : ∀ rk B, invCipher .rowMajor isboxBuilt rk (cipher .rowMajor sboxBuilt rk B) = B :=
    invCipher_cipher .rowMajor .srcShiftSeq
  refine ⟨hd, acceptedWithKey_of_needsKey hd fun _ _ _ _ => rfl, rejectsBusyAndIllegal_all _,
    fun rnd a b s ⟨hb, hp⟩ => ⟨_, exec_completes (.decrypt rnd a b) s hb hp trivial⟩,
    fun p rnd a b s ⟨hb, hp⟩ => ⟨_, execFor_completes p (.decrypt rnd a b) s hb hp trivial⟩, by decide, hundo, ?_⟩
  rw [← cipher_sampleBlock, hundo, setBlk_blk]

end Sys2Proof.Machine
end

section
/-! PROOFS. The host procedures as functions of bytes (48_host_procedures.md R321 to R327): NORMKEY, the padding codec, the
blocks of a message, and the message through the two pipelines. -/

namespace Sys2Proof.Machine

open Sys2Proof.Statements (blockOf cipherBytes invCipherBytes)

/-! ### UNPAD (R323) -/

/-- The data ends in p bytes of value p, p in 1..16: what UNPAD takes off (R323). -/
def endsInPadding (m : List Byte) (p : Byte) : Prop :=
  1 ≤ p.toNat ∧ p.toNat ≤ 16 ∧ p.toNat ≤ m.length ∧ ∀ b ∈ m.drop (m.length - p.toNat), b = p

/-- With a last byte p, UNPAD takes off p bytes if the data ends in the padding of p. -/
theorem unpad_of_endsInPadding {m : List Byte} {p : Byte} (hlast : m.getLast? = some p) (h : endsInPadding m p) :
    unpad m = m.take (m.length - p.toNat) := by
  obtain ⟨hpos, hle, hlen, hall⟩ := h
  simp only [unpad, hlast]
  exact if_pos ⟨hpos, hle, hlen, by simpa using hall⟩

/-- With a last byte p, UNPAD returns the data unmodified if the data does not end in the padding of p. -/
theorem unpad_of_not_endsInPadding {m : List Byte} {p : Byte} (hlast : m.getLast? = some p) (h : ¬ endsInPadding m p) :
    unpad m = m := by
  simp only [unpad, hlast]
  exact if_neg fun ⟨hpos, hle, hlen, hall⟩ => h ⟨hpos, hle, hlen, by simpa using hall⟩

theorem endsInPadding_append_replicate (m : List Byte) {p : Byte} (hpos : 1 ≤ p.toNat) (hle : p.toNat ≤ 16) :
    endsInPadding (m ++ List.replicate p.toNat p) p := by
  refine ⟨hpos, hle, by simp, fun b hb => ?_⟩
  rw [List.length_append, List.length_replicate, Nat.add_sub_cancel, List.drop_left] at hb
  exact List.eq_of_mem_replicate hb

theorem getLast?_append_replicate (m : List Byte) (p : Byte) {n : Nat} (hn : 1 ≤ n) :
    (m ++ List.replicate n p).getLast? = some p := by
  rw [List.getLast?_append, List.getLast?_replicate, if_neg (by omega), Option.some_or]

theorem unpad_append_replicate (m : List Byte) {p : Byte} (hpos : 1 ≤ p.toNat) (hle : p.toNat ≤ 16) :
    unpad (m ++ List.replicate p.toNat p) = m := by
  rw [unpad_of_endsInPadding (getLast?_append_replicate m p hpos) (endsInPadding_append_replicate m hpos hle),
    List.length_append, List.length_replicate, Nat.add_sub_cancel, List.take_left]

/-- UNPAD's fallback, by the four conditions that it checks of the last byte p (R323). -/
theorem unpad_append_singleton {m : List Byte} {p : Byte} (h : ¬ endsInPadding (m ++ [p]) p) :
    unpad (m ++ [p]) = m ++ [p] :=
  unpad_of_not_endsInPadding List.getLast?_concat h

/-- A byte b other than p among the last p bytes is no padding. -/
theorem not_endsInPadding_of_ne (m : List Byte) {p b : Byte} {rest : List Byte} (hb : b ≠ p)
    (hlen : (b :: rest).length < p.toNat) : ¬ endsInPadding (m ++ b :: rest ++ [p]) p := by
  rintro ⟨-, -, -, hall⟩
  refine hb (hall b ?_)
  rw [List.append_assoc, List.drop_append_of_le_length (by simp at hlen ⊢; omega)]
  exact List.mem_append_right _ List.mem_cons_self

/-! ### PAD (R323) -/

theorem padValue_pos (len : Nat) : 1 ≤ padValue len := by unfold padValue; omega

theorem padValue_le (len : Nat) : padValue len ≤ 16 := Nat.sub_le _ _

/-- The pad value fits a byte. -/
theorem toNat_padByte (len : Nat) : (BitVec.ofNat 8 (padValue len)).toNat = padValue len := by
  have hle := padValue_le len
  exact Nat.mod_eq_of_lt (by omega)

theorem length_pad (m : List Byte) : (pad m).length = m.length + padValue m.length := by
  rw [pad, List.length_append, List.length_replicate]

/-- PAD fills up the last block (R323). -/
theorem length_pad_mod (m : List Byte) : (pad m).length % 16 = 0 := by
  rw [length_pad, padValue]
  omega

/-- UNPAD undoes PAD, since the pad bytes are p bytes of value p (R323). -/
theorem unpad_pad (m : List Byte) : unpad (pad m) = m := by
  have h := unpad_append_replicate m (p := BitVec.ofNat 8 (padValue m.length))
  rw [toNat_padByte] at h
  exact h (padValue_pos _) (padValue_le _)

/-! ### NORMKEY (R321) and the length check of DECRYPT_MSG (R325) -/

theorem length_normKey (k : List Byte) : (normKey k).length = 16 := by
  simp [normKey]

theorem getElem?_normKey (k : List Byte) {n : Nat} (hn : n < 16) :
    (normKey k)[n]? = some (if h : n < k.length then k[n] else 0) := by
  rw [normKey, List.getElem?_take_of_lt hn]
  split
  next h => rw [List.getElem?_append_left h, List.getElem?_eq_getElem h]
  next h =>
    rw [List.getElem?_append_right (by omega), List.getElem?_replicate_of_lt (by omega)]

theorem decryptMsg_eq_error_iff (c : List Byte) :
    decryptMsg c = .error .invalidCiphertextLength ↔ (c.length = 0 ∨ c.length % 16 ≠ 0) := by
  unfold decryptMsg
  split
  next h => exact iff_of_true rfl h
  next h => exact iff_of_false (fun he => nomatch he) h

/-- Settles O59: the codec by the conditions that UNPAD checks of the last byte, and NORMKEY byte by byte. -/
theorem hostPaddingAndKeys : Obligations.HostPaddingAndKeys := by
  refine ⟨fun m => ⟨rfl, length_pad_mod m, ?_, ?_, getLast?_append_replicate m _ (padValue_pos _), unpad_pad m⟩,
    fun m p => unpad_append_replicate m, rfl, fun m p hp => unpad_append_singleton ?_,
    fun m p hp => unpad_append_singleton ?_, fun m p b rest hb hlen =>
      unpad_append_singleton (not_endsInPadding_of_ne m hb hlen),
    fun k => ⟨length_normKey k, fun n => getElem?_normKey k⟩, decryptMsg_eq_error_iff⟩
  · have hpos := padValue_pos m.length
    rw [length_pad]
    omega
  · have hle := padValue_le m.length
    rw [length_pad]
    omega
  · rintro ⟨hpos, hle, -, -⟩
    omega
  · rintro ⟨-, -, hlen, -⟩
    omega

/-! ### The blocks of a message (R324) -/

theorem blocksOf_append {b : List Byte} (hb : b.length = 16) (m : List Byte) : blocksOf (b ++ m) = b :: blocksOf m := by
  have hcount : (b ++ m).length / 16 = m.length / 16 + 1 := by rw [List.length_append]; omega
  have hlater (k : Nat) : (b ++ m).drop (16 * (k + 1)) = m.drop (16 * k) := by
    rw [show 16 * (k + 1) = b.length + 16 * k by omega, List.drop_length_add_append]
  rw [blocksOf, hcount, List.range_succ_eq_map, List.map_cons, List.map_map]
  exact congrArg₂ List.cons (List.take_left' hb) (List.map_congr_left fun k _ => congrArg (List.take 16) (hlater k))

/-- Blocks put together are cut into the same blocks. -/
theorem blocksOf_flatten {bs : List (List Byte)} (h : ∀ b ∈ bs, b.length = 16) : blocksOf bs.flatten = bs := by
  induction bs with
  | nil => rfl
  | cons b bs ih =>
    rw [List.forall_mem_cons] at h
    rw [List.flatten_cons, blocksOf_append h.1, ih h.2]

/-- A block has 16 bytes: it lies within the message. -/
theorem length_of_mem_blocksOf {m b : List Byte} (h : b ∈ blocksOf m) : b.length = 16 := by
  obtain ⟨k, hk, rfl⟩ := List.mem_map.mp h
  rw [List.mem_range] at hk
  rw [List.length_take, List.length_drop]
  omega

/-- The blocks of a message of whole blocks are all of it, in order. -/
theorem flatten_blocksOf {m : List Byte} (h : m.length % 16 = 0) : (blocksOf m).flatten = m := by
  obtain ⟨n, hn⟩ := Nat.dvd_of_mod_eq_zero h
  induction n generalizing m with
  | zero => rw [List.eq_nil_of_length_eq_zero hn]; rfl
  | succ n ih =>
    have hfirst : (m.take 16).length = 16 := by rw [List.length_take]; omega
    have hrest : (m.drop 16).length = 16 * n := by rw [List.length_drop]; omega
    calc (blocksOf m).flatten
        = (blocksOf (m.take 16 ++ m.drop 16)).flatten := by rw [List.take_append_drop]
      _ = m.take 16 ++ (blocksOf (m.drop 16)).flatten := by rw [blocksOf_append hfirst, List.flatten_cons]
      _ = m.take 16 ++ m.drop 16 := by rw [ih (by omega) hrest]
      _ = m := List.take_append_drop 16 m

theorem blockOf_toList (B : Block) : blockOf B.toList = B := by
  ext i hi
  simp [blockOf]

theorem toList_blockOf {b : List Byte} (hb : b.length = 16) : (blockOf b).toList = b := by
  refine List.ext_getElem (by rw [Vector.length_toList, hb]) fun i h1 h2 => ?_
  simp [blockOf, h2]

/-! ### A message through the pipelines (R324, R325, R327) -/

/-- The blocks of what a pipeline gives are what it gives for each block. -/
theorem blocksOf_flatMap_toList (f : List Byte → Block) (bs : List (List Byte)) :
    blocksOf (bs.flatMap fun b => (f b).toList) = bs.map fun b => (f b).toList := by
  rw [List.flatMap_def, blocksOf_flatten]
  intro b hb
  obtain ⟨x, -, rfl⟩ := List.mem_map.mp hb
  exact Vector.length_toList

/-- Decryption undoes encryption on whole blocks, since INVCIPHER undoes CIPHER on each (R292). -/
theorem invCipherBytes_cipherBytes (key : Quad) {m : List Byte} (h : m.length % 16 = 0) :
    invCipherBytes key (cipherBytes key m) = m := by
  rw [invCipherBytes, cipherBytes, blocksOf_flatMap_toList, List.flatMap_map]
  calc (blocksOf m).flatMap _
      = (blocksOf m).flatMap id := List.flatMap_congr fun b hb => by
        rw [blockOf_toList]
        exact (congrArg Vector.toList (invCipher_cipher _ _ _ _)).trans (toList_blockOf (length_of_mem_blocksOf hb))
    _ = m := by rw [List.flatMap_id, flatten_blocksOf h]

/-- Settles O60: on the whole blocks of the padded message decryption undoes encryption, and UNPAD undoes PAD. -/
theorem messageRoundTrip : Obligations.MessageRoundTrip := by
  intro key m
  rw [invCipherBytes_cipherBytes key (length_pad_mod m), unpad_pad]

end Sys2Proof.Machine
end

section
/-! PROOFS. Errors and acceptance (60_exceptions.md): a good state steps, an offer is the pseudocode of R359, the error record
blocks no command (R357, R361), and a write that meets a running command (R353, R370). -/

namespace Sys2Proof.Machine

open Sys2Proof.Safety
open Sys2Proof.Statements (off notBusy isRunning)

/-! ### No good state stops -/

/-- A core step of a good state never stops: CUR holds a command whose group exists (R355, R359). -/
theorem coreStepFor_next {p : Config.Params} {s : State} (hi : InvFor p.sboxVariant s) (hb : s.status.busy = true) :
    ∃ t, coreStepBy p.sboxVariant (execFor p) s = .next t := by
  rcases coreStepFor_cases p s with ⟨-, h⟩ | ⟨i, hp, hd, h⟩ | ⟨e, hp, hd, -⟩ | ⟨-, h⟩
  · exact ⟨_, h⟩
  · obtain ⟨j, hj, hc⟩ := hi.current hp
    obtain rfl : j = i := Except.ok.inj (hj.symm.trans hd)
    exact ⟨_, h.trans (execFor_completes p j s hb hp (groupExists_of_passesChecks hc))⟩
  · obtain ⟨j, hj, -⟩ := hi.current hp
    cases hj.symm.trans hd
  · exact ⟨_, h⟩

/-- A step of a good state never stops, whichever agent moves. -/
theorem stepFor_next {p : Config.Params} {s : State} (hi : InvFor p.sboxVariant s) : ∃ t, stepFor p s = .next t := by
  cases hm : coreMoves s with
  | true =>
    obtain ⟨-, hb, -⟩ := (coreMoves_iff s).mp hm
    rw [stepFor_core p hm]
    exact coreStepFor_next hi hb
  | false =>
    rw [stepFor_host p hm]
    exact hostStepFor_next p s

/-- Settles O41: the invariant rules out both faults of the core, and the host's acts have none. -/
theorem noGoodStateStops : Obligations.NoGoodStateStops :=
  ⟨fun _ hi => stepFor_hardware ▸ stepFor_next (p := hardware) hi, fun _ _ hi => stepFor_next hi⟩

/-- Settles O22: every outcome of an offer is the one that the pseudocode gives. -/
theorem offerCommandFollowsTheChecks : Obligations.OfferCommandFollowsTheChecks :=
  fun v s => ⟨_, _, offerCommand_eq_offerSpec v s⟩

/-! ### What no command reads -/

/-- What a running command answers is its completion. -/
theorem exec_running_eq {i : Instr} {s t : State} (hrun : isRunning s) (h : exec i s = .next t) :
    groupExists i ∧ t = finish (effectOf i s) := by
  obtain ⟨hb, hp⟩ := hrun
  rcases exec_next_cases h with ⟨hb', -⟩ | ⟨-, -, hg, ht⟩ | ⟨-, hp', -⟩
  · simp [hb] at hb'
  · exact ⟨hg, ht⟩
  · exact absurd hp hp'

/-- A running command leaves the reset input and the error record alone, and BUSY is 0 after it. -/
theorem exec_running_frame {i : Instr} {s t : State} (hrun : isRunning s) (h : exec i s = .next t) :
    t.resetActive = s.resetActive ∧ t.status.busy = false ∧ t.errCause = s.errCause ∧ t.status.err = s.status.err := by
  obtain ⟨-, rfl⟩ := exec_running_eq hrun h
  simp

/-- The fields that no command's checks and effect read, at other values: the error record, the host's acts and the busy
period. -/
def withUnread (cause : BitVec 4) (flag : Bool) (acts : List HostAct) (delay : Nat) (s : State) : State :=
  { s with errCause := cause, status := { s.status with err := flag }, host := acts, delay := delay }

section
variable (cause : BitVec 4) (flag : Bool) (acts : List HostAct) (delay : Nat) (s : State)

/-- The busy period alone at another value. -/
theorem withUnread_delay : withUnread s.errCause s.status.err s.host delay s = { s with delay := delay } := rfl

/-- The checks read KEY_READY alone (R358). -/
theorem verdictOf_withUnread (i : Instr) : verdictOf i (withUnread cause flag acts delay s) = verdictOf i s := by
  cases i <;> rfl

/-- A command's effect leaves the fields it does not read where they are. -/
theorem effectFor_withUnread (p : Config.Params) (i : Instr) :
    effectFor p i (withUnread cause flag acts delay s) = withUnread cause flag acts delay (effectFor p i s) := by
  cases i with
  | addRoundKey r a b =>
    simp only [effectFor]
    split <;> rfl
  | _ => rfl

/-- A running command completes with the same data whatever the unread fields hold (R361). -/
theorem exec_withUnread {i : Instr} {t : State} (hrun : isRunning s) (h : exec i s = .next t) :
    exec i (withUnread cause flag acts delay s) = .next (withUnread cause flag acts delay t) := by
  obtain ⟨hg, rfl⟩ := exec_running_eq hrun h
  obtain ⟨hb, hp⟩ := hrun
  rw [exec_completes i (withUnread cause flag acts delay s) hb hp hg, effectOf, effectFor_withUnread]
  rfl

/-- An offer does the same whatever the unread fields hold, and what it leaves differs in those fields alone (R361). -/
theorem offer_withUnread (v : Word) (verdict : Verdict) : ∃ cause' flag' delay',
    offer v verdict (withUnread cause flag acts delay s) = withUnread cause' flag' acts delay' (offer v verdict s) := by
  cases verdict <;> exact ⟨_, _, _, rfl⟩

/-- ERR never blocks an offer: with other unread fields the word meets the same checks (R361). -/
theorem offerCommand_withUnread (v : Word) (hb : notBusy s) : ∃ t cause' flag' delay', offerCommand v s = .next t ∧
    offerCommand v (withUnread cause flag acts delay s) = .next (withUnread cause' flag' acts delay' t) := by
  have hb' : notBusy (withUnread cause flag acts delay s) := hb
  cases hd : decode v with
  | error e => exact ⟨_, _, _, _, offerCommand_illegal hb hd, offerCommand_illegal hb' hd⟩
  | ok i =>
    obtain ⟨cause', flag', delay', h⟩ := offer_withUnread cause flag acts delay s v (verdictOf i s)
    refine ⟨_, cause', flag', delay', offerCommand_of_decode hb hd, ?_⟩
    rw [offerCommand_of_decode hb' hd, verdictOf_withUnread, h]

end

/-- Settles O23: the record by the rule of `raise`, and neither an offer nor a completion reads it. -/
theorem firstErrorKeptAndNeverBlocks : Obligations.FirstErrorKeptAndNeverBlocks := by
  refine ⟨fun e s he => ⟨by simp [he], ?_⟩, fun e s he => ⟨by simp [he], rfl⟩, fun v s t u cause flag hb ht hu => ?_,
    fun i s t cause flag hrun h => ?_⟩
  · rw [raiseErr_status, ← he]
  · obtain ⟨t', cause', flag', delay', ht', hu'⟩ := offerCommand_withUnread cause flag s.host s.delay s v hb
    obtain rfl := Host.Outcome.next.inj (ht.symm.trans ht')
    obtain rfl := Host.Outcome.next.inj (hu.symm.trans hu')
    exact ⟨rfl, rfl, rfl⟩
  · obtain ⟨-, -, -, -, -, -, hhost, -, hdelay, -⟩ := commandFrame i s t hrun h
    refine (exec_withUnread cause flag s.host s.delay s hrun h).trans ?_
    rw [← hhost, ← hdelay]
    rfl

/-! ### Writes that meet a command in progress -/

/-- Settles O24: the dropped writes, then a write to STATUS, which at most clears the record, and the ignored writes. -/
theorem writesWhileBusyAreDropped : Obligations.WritesWhileBusyAreDropped := by
  refine fun addr v s hr hb => ⟨memWrite_droppedWhileBusy v hr hb, fun hcmd hdata => ?_⟩
  by_cases hstatus : off addr = 0x008
  · refine ⟨_, memWrite_status v hr (target_status_iff.mpr hstatus), ?_⟩
    rcases writeStatus_eq v s with h | h <;> simp [h]
  · exact ⟨s, memWrite_ignored v s hcmd hstatus hdata, id, .inl rfl⟩

section
variable {s t : State} {i : Instr} {k : Fin 4} {v : Word} {rest : List HostAct}

/-- A host step whose act is a write to STATEk (R90). -/
theorem step_writeBlock (hm : coreMoves s = false) (hr : s.resetActive = false)
    (hh : s.host = .wr (0x030 + 4 * k.val) v :: rest) : step s = .next (writeBlock k v (popHost (slotPassed s))) := by
  rw [step_host hm, hostStep_wr hh, memWrite_block v (by simpa using hr) (target_of_regOffset (.block k) _ rfl)]

/-- With BUSY = 0 the write is stored (R42). -/
theorem step_writeBlock_idle (hr : s.resetActive = false) (hb : notBusy s)
    (hh : s.host = .wr (0x030 + 4 * k.val) v :: rest) :
    step s = .next { s with host := rest, block := s.block.set k v } := by
  have hb' : s.status.busy = false := hb
  rw [step_writeBlock (by simp [coreMoves, hb']) hr hh, popHost_slotPassed_cons hh, slotPassed_of_idle s hb']
  exact congrArg _ (writeBlock_idle k v _ hb')

/-- In a busy period the write is dropped with error BUSY and uses up one of the period's host steps (R353). -/
theorem step_writeBlock_busy (hm : coreMoves s = false) (hr : s.resetActive = false) (hb : s.status.busy = true)
    (hh : s.host = .wr (0x030 + 4 * k.val) v :: rest) :
    step s = .next (withUnread (if s.status.err then s.errCause else 2) true rest (s.delay - 1) s) := by
  rw [step_writeBlock hm hr hh, writeBlock_busy k v _ (by simpa using hb), popHost_slotPassed_cons hh, slotPassed_delay,
    if_pos hb]
  rfl

/-- With its busy period used up, the running command completes in one step, as it does with other unread fields. -/
theorem step_run_withUnread (hr : s.resetActive = false) (hrun : isRunning s) (hd : decode s.cur = .ok i)
    (h : exec i s = .next t) (cause : BitVec 4) (flag : Bool) (acts : List HostAct) :
    step (withUnread cause flag acts 0 s) = .next (withUnread cause flag acts 0 t) := by
  have hnext := exec_withUnread cause flag acts 0 s hrun h
  obtain ⟨hb, hp⟩ := hrun
  have hm := (coreMoves_iff (withUnread cause flag acts 0 s)).mpr ⟨hr, hb, hp.trans_ne nofun, rfl⟩
  exact (step_run hm hp hd).trans hnext

/-- The completion comes first: the write is stored over the command's result (R370). -/
theorem run_completion_then_write (hr : s.resetActive = false) (hrun : isRunning s) (hd : decode s.cur = .ok i)
    (h : exec i s = .next t) (hh : s.host = .wr (0x030 + 4 * k.val) v :: rest) :
    Host.Core.run core 2 { s with delay := 0 } = .next { t with host := rest, delay := 0, block := t.block.set k v } := by
  obtain ⟨htr, htb, hcause, herr⟩ := exec_running_frame hrun h
  have hcompletion := step_run_withUnread hr hrun hd h t.errCause t.status.err s.host
  have hwrite := step_writeBlock_idle (s := withUnread t.errCause t.status.err s.host 0 t) (htr.trans hr) htb hh
  rw [← withUnread_delay, ← hcause, ← herr, run_succ core 1 hcompletion]
  exact run_succ core 0 hwrite

/-- The write comes first: it is dropped with BUSY, and the command's result stands (R353, R370). -/
theorem run_write_then_completion (hr : s.resetActive = false) (hrun : isRunning s) (hd : decode s.cur = .ok i)
    (h : exec i s = .next t) (hh : s.host = .wr (0x030 + 4 * k.val) v :: rest) :
    Host.Core.run core 2 { s with delay := 1 } =
      .next (withUnread (if s.status.err then s.errCause else 2) true rest 0 t) := by
  have hwrite := step_writeBlock_busy (s := { s with delay := 1 }) (coreMoves_of_delay nofun) hr hrun.1 hh
  rw [run_succ core 1 hwrite]
  exact run_succ core 0 (step_run_withUnread hr hrun hd h _ true rest)

end

/-- Settles O58: each order is a run of two steps, and the command's result does not depend on which comes first. -/
theorem writeAndCompletionInBothOrders : Obligations.WriteAndCompletionInBothOrders :=
  fun _ _ _ _ _ _ hr hrun hd h hh =>
    ⟨⟨_, run_completion_then_write hr hrun hd h hh, rfl, rfl, rfl⟩,
      ⟨_, run_write_then_completion hr hrun hd h hh, rfl, rfl, rfl⟩⟩

end Sys2Proof.Machine
end

section
/-! PROOFS. Every busy period ends (00_scope.md R14, 70_reset_and_hazards.md R412): each host step but a reset edge uses up one
place of the period, and the core step that follows the last one completes what is in progress. -/

namespace Sys2Proof.Machine

open Sys2Proof.Safety

/-- RESET_ACTIVE changes by a reset edge only (R400, R402). -/
theorem StepEffect.resetActive_changes {p : Config.Params} {s t : State} (h : StepEffect p s t)
    (hne : t.resetActive ≠ s.resetActive) : atResetEdge s := by
  cases h with
  | resetAsserted he => exact .inl he
  | resetReleased he _ => exact .inr he
  | _ => simp at hne

/-- With no reset edge among the acts of the period, the next step is none. -/
theorem not_atResetEdge_of_noResetEdge {s : State} {n : Nat} (h : noResetEdge (s.host.take (n + 1))) : ¬ atResetEdge s := by
  cases hh : s.host with
  | nil => simp [atResetEdge, hh]
  | cons a rest =>
    obtain ⟨hassert, hrelease⟩ := h a (by simp [hh])
    simp [atResetEdge, hh, hassert, hrelease]

/-- A good state outside reset in a busy period with `n` host steps left, no reset edge among them. -/
structure BusyPeriodLeft (n : Nat) (s : State) : Prop where
  good : Inv s
  active : s.resetActive = false
  busy : s.status.busy = true
  delay : s.delay = n
  noEdge : noResetEdge (s.host.take n)

namespace BusyPeriodLeft

variable {n : Nat} {s : State}

/-- With host steps left the host moves, and one fewer is left. -/
theorem step_host (h : BusyPeriodLeft (n + 1) s) : ∃ t, step s = .next t ∧ BusyPeriodLeft n t := by
  have hself : AlikeWhileBusy s s := ⟨h.busy, ⟨rfl, rfl, rfl⟩, rfl, rfl, rfl⟩
  obtain ⟨t, _, hhost, -, halike, hdelay, hacts⟩ := hself.hostStep (noResetEdge_take_of_le h.noEdge (by omega))
  have hm : coreMoves s = false := coreMoves_of_delay (by simp [h.delay])
  have hstep : step s = .next t := (Machine.step_host hm).trans hhost
  have hreset : t.resetActive = s.resetActive :=
    not_not.mp fun hne => not_atResetEdge_of_noResetEdge h.noEdge ((StepEffect.of_step hstep).resetActive_changes hne)
  refine ⟨t, hstep, everyStepKeepsTheInvariant.1 s t h.good hstep, hreset.trans h.active, halike.busy,
    by simp [hdelay, h.delay], ?_⟩
  rcases hacts with hacts | hacts <;> rw [hacts]
  · exact noResetEdge_take_of_le h.noEdge (Nat.le_succ n)
  · exact noResetEdge_take_tail h.noEdge

/-- With none left the core moves, and BUSY is 0 after its step. -/
theorem step_core (h : BusyPeriodLeft 0 s) : ∃ t, step s = .next t ∧ t.status.busy = false := by
  have hidle : s.phase ≠ .idle := h.good.busy.mp h.busy
  obtain ⟨t, hstep, hbusy, -⟩ := step_completes h.good ((coreMoves_iff s).mpr ⟨h.active, h.busy, hidle, h.delay⟩)
  exact ⟨t, hstep, hbusy⟩

/-- The host steps left and the core step lead to BUSY = 0. -/
theorem run_ends (h : BusyPeriodLeft n s) :
    ∃ t, Host.Core.run core (n + 1) s = .next t ∧ t.status.busy = false := by
  induction n generalizing s with
  | zero =>
    obtain ⟨t, hstep, hbusy⟩ := h.step_core
    exact ⟨t, run_succ core 0 hstep, hbusy⟩
  | succ n ih =>
    obtain ⟨t, hstep, hleft⟩ := h.step_host
    rw [run_succ core (n + 1) hstep]
    exact ih hleft

end BusyPeriodLeft

/-- Settles O56, by induction on the host steps left to the busy period. -/
theorem everyBusyPeriodEnds : Obligations.EveryBusyPeriodEnds :=
  fun _ hi hr hb hedge => BusyPeriodLeft.run_ends ⟨hi, hr, hb, rfl, hedge⟩

end Sys2Proof.Machine
end
